-- ==== Sys2Proof/Word.lean ====
section
/-! DEFINITION. The word types of the AWVM bytecode runtime (00_scope.md R8). -/

namespace Sys2Proof

/-- One byte: an opcode byte, a register index, an 8-bit immediate (R92). -/
abbrev Byte := BitVec 8

/-- One 16-bit word: a register, a segment offset, a stack entry (R21, R28, R30). -/
abbrev Word := BitVec 16

/-- One 32-bit word of the packed stream (R73). -/
abbrev DWord := BitVec 32

end Sys2Proof
end

