-- ==== Sys2Proof/Machine/Flags.lean ====
section
/-! DEFINITION. Conditions. The machine has no status flags and no condition codes (10_state.md R38): `cjmp` computes its condition and consumes it at once, and this file is that computation. -/

namespace Sys2Proof.Machine

/-- The comparison code `cc = v[2:0]` of a variant byte (R95). -/
def conditionCode (v : Byte) : BitVec 3 := v.extractLsb' 0 3

/-- `cond(cc, b, a)` (R193, R194): a signed comparison of the left operand `b` with the right operand `a`; none for the
codes 6 and 7, which raise a fault. -/
def condition (cc : BitVec 3) (b a : Int) : Option Bool :=
  match cc.toNat with
  | 0 => some (decide (b = a))
  | 1 => some (decide (b ≠ a))
  | 2 => some (decide (b > a))
  | 3 => some (decide (b ≥ a))
  | 4 => some (decide (b < a))
  | 5 => some (decide (b ≤ a))
  | _ => none

end Sys2Proof.Machine
end

