-- ==== Sys2Proof/Types.lean ====
section
/-! DEFINITION. The plain data that State and Config share: the register bank, a thread control block, an input snapshot, an event. -/

namespace Sys2Proof.Machine

/-- The register bank `x[0] … x[255]` (R21). -/
abbrev RegBank := Vector Word 256

/-- The entries of the call stack `S[0] … S[255]` (R28). -/
abbrev StackBank := Vector Word 256

/-- A thread control block, with the fields of the table of R23 and no other. -/
structure Tcb where
  /-- `current_pc`: 0xFFFF means halted. -/
  currentPc : Word
  /-- `requested_pc`: 0xFFFF means none, 0xFFFE a halt request. -/
  requestedPc : Word
  /-- `current_state`: 0 running, 1 paused. -/
  currentState : Byte
  /-- `requested_state`: 0 running, 1 paused. -/
  requestedState : Byte
  /-- `opcode`: transient, the opcode byte being executed. -/
  opcode : Byte
  /-- `yield`: transient, set to end the slice. -/
  yield : Bool
deriving DecidableEq, Repr, Inhabited

/-- The 64 thread control blocks `T[0] … T[63]` (R23). -/
abbrev TcbBank := Vector Tcb 64

/-- The host's input snapshot, the opaque value of R130, as plain data: a string of bytes (log 5). -/
abbrev Snapshot := List Byte

/-- The collaborators that opcodes reach (the table of R369). -/
inductive Collaborator where
  | video
  | audio
  | resource
deriving DecidableEq, Repr

/-- One event handed to a collaborator (R250), with the values its rule lists. -/
inductive Event where
  /-- `Video.SelectPalette(n)` (R253). -/
  | selectPalette (n : Byte)
  /-- `Video.SelectPage(p)` (R254). -/
  | selectPage (p : Byte)
  /-- `Video.FillPage(p, c)` (R255). -/
  | fillPage (p c : Byte)
  /-- `Video.CopyPage(a, b, scroll)` (R256). -/
  | copyPage (src dst : Byte) (scroll : Int)
  /-- `Video.BlitPage(p)` (R257). -/
  | blitPage (p : Byte)
  /-- `Video.DrawString(id, x, y, c)` (R258). -/
  | drawString (id : Word) (x y c : Byte)
  /-- `Video.DrawPolygon(buf, off, px, py, zoom)` (R281). -/
  | drawPolygon (buf : Fin 2) (off : Word) (px py : Int) (zoom : Word)
  /-- `Audio.PlaySound(id, f, v, ch)` (R259). -/
  | playSound (id : Word) (freq vol chan : Byte)
  /-- `Audio.PlayMusic(id, d, pos)` (R260). -/
  | playMusic (id delay : Word) (pos : Byte)
  /-- `Resource.Load(id)` (R261). -/
  | load (id : Word)
deriving DecidableEq, Repr, Inhabited

end Sys2Proof.Machine
end

