-- ==== Sys2Proof/Config.lean ====
section
/-! DEFINITION. What an implementation fixes (the parameters of 00_scope.md R7) and the free values that a fault leaves. -/

namespace Sys2Proof.Config

open Sys2Proof.Machine

/-- The parameter `INPUT_MAP` (R7, R131, D17), a function of the snapshot and the register bank, named by plain data so
that State can hold it (log 5). DESIGN CHOICE, safe: a statement about every state is about every constructor, and
`uninterpreted` is any function at all. -/
inductive InputMap where
  /-- A map that writes, for each listed snapshot, the listed values in order, and for any other snapshot nothing;
  `table []` is the identity. -/
  | table (rows : List (Snapshot × List (Byte × Word)))
  /-- A map of which nothing is known. -/
  | uninterpreted (n : Nat)
deriving DecidableEq, Repr

/-- The values of `InputMap.uninterpreted`: functions of the snapshot and the bank that no proof can look into. -/
opaque inputMap : Nat → Snapshot → RegBank → RegBank

/-- The implementation parameters of R7, as plain data. State holds one value of this type and no step writes it,
so a statement about every state is a statement about every value of the parameters (log 4). -/
structure Params where
  /-- `STACK_SLICE_RESET` (D6). -/
  stackSliceReset : Bool
  /-- `REG_RESET` (D7), one value for each register. -/
  regReset : RegBank
  /-- `INPUT_MAP` (D17). -/
  inputMap : InputMap
  /-- The reserved registers, the only ones `INPUT_MAP` may write (R22, R131, D17). -/
  reserved : List Byte
  /-- `IDX_PAUSE_SLICES` (D19). -/
  idxPauseSlices : Byte
  /-- `IDX_SCROLL_Y` (D19). -/
  idxScrollY : Byte
  /-- `IDX_MUSIC_MARK` (D19). -/
  idxMusicMark : Byte
  /-- `QUANTUM` (D18), the positive number of host ticks for one `PAUSE_SLICES` unit. -/
  quantum : { n : Nat // 0 < n }
deriving DecidableEq, Repr

/-- The defaults of the table of R7. DESIGN CHOICE, unsafe: `regReset` is zero because the spec gives no value
(log 2), `inputMap` is the identity, and `reserved` names the three registers whose index the spec gives (log 5). -/
def Params.default : Params where
  stackSliceReset := false
  regReset := Vector.replicate 256 0
  inputMap := .table []
  reserved := [0xF4, 0xF9, 0xFF]
  idxPauseSlices := 0xFF
  idxScrollY := 0xF9
  idxMusicMark := 0xF4
  quantum := ⟨20, by decide⟩

/-! R350 and D28: after a fault everything of the interpreter but the fault record is unspecified. Each part is a free
value, a constant with no body applied to State's counter (log 9). DESIGN CHOICE, safe: no proof can see a value. -/

/-- The register bank of a faulted block: free (R350). -/
opaque faultedRegs : Nat → RegBank

/-- The thread control blocks of a faulted block: free (R350). -/
opaque faultedTcbs : Nat → TcbBank

/-- The stack entries of a faulted block: free (R350). -/
opaque faultedStack : Nat → StackBank

/-- The stack index of a faulted block: free (R350). -/
opaque faultedSp : Nat → Fin 257

/-- The cursor of a faulted block: free (D28). -/
opaque faultedPc : Nat → Word

/-- The current-thread index of a faulted block: free (D28). -/
opaque faultedCur : Nat → Fin 64

/-- The event output of a faulted block: free (R350). -/
opaque faultedEvents : Nat → List Event

end Sys2Proof.Config
end

