-- ==== Sys2Proof/Machine/Memory.lean ====
section
/-! DEFINITION. A byte-addressed memory of a given length: the bytecode segment and the decompressor's buffer (20_memory.md R60). -/

namespace Sys2Proof.Machine

/-- A memory of `len` bytes at offsets `0 … len − 1`; no other offset exists (R60). `cells` lists the nonzero bytes by
rising offset; an unlisted offset below `len` reads as `unlisted`. -/
structure Memory where
  len : Nat
  cells : List Host.Cell
deriving DecidableEq, Repr

/-- What an offset below `len` that `cells` does not list reads as. Every byte of a segment or a buffer is given by the
host, so this fixes how a zero byte is written down, not what an unwritten byte holds (log 1, DESIGN CHOICE, safe). -/
def Memory.unlisted : Byte := 0

/-- The byte that a cell list gives an offset. -/
def Memory.lookup : List Host.Cell → Nat → Byte
  | [], _ => Memory.unlisted
  | (a, v) :: cs, o => if a = o then v else Memory.lookup cs o

/-- A cell list with the byte at one offset replaced, in the canonical form. -/
def Memory.insert (o : Nat) (v : Byte) : List Host.Cell → List Host.Cell
  | [] => if v = Memory.unlisted then [] else [(o, v)]
  | (a, w) :: cs =>
    if o < a then if v = Memory.unlisted then (a, w) :: cs else (o, v) :: (a, w) :: cs
    else if o = a then if v = Memory.unlisted then cs else (o, v) :: cs
    else (a, w) :: Memory.insert o v cs

/-- The byte at offset `o`, none where the offset does not exist (R60, R63, R72). -/
def Memory.read (m : Memory) (o : Nat) : Option Byte :=
  if o < m.len then some (Memory.lookup m.cells o) else none

/-- The memory with the byte at offset `o` replaced; unchanged where the offset does not exist. -/
def Memory.write (m : Memory) (o : Nat) (v : Byte) : Memory :=
  if o < m.len then { m with cells := Memory.insert o v m.cells } else m

/-- The cells of a byte string whose first byte stands at offset `base`. -/
def Memory.cellsOf (base : Nat) : List Byte → List Host.Cell
  | [] => []
  | b :: bs =>
    if b = Memory.unlisted then Memory.cellsOf (base + 1) bs else (base, b) :: Memory.cellsOf (base + 1) bs

/-- The memory that holds a byte string at offsets `0 …` (R31, R300). -/
def Memory.ofBytes (bs : List Byte) : Memory := { len := bs.length, cells := Memory.cellsOf 0 bs }

/-- The byte string that a memory holds. -/
def Memory.toBytes (m : Memory) : List Byte := (List.range m.len).map (Memory.lookup m.cells)

/-- The four bytes `o … o+3` as one big-endian number, none if one of them does not exist (R62, R72). The offset is an
integer because the decompressor's read cursor can fall below 0 (R312). -/
def Memory.read32 (m : Memory) (o : Int) : Option DWord :=
  if o < 0 then none
  else
    match m.read o.toNat, m.read (o.toNat + 1), m.read (o.toNat + 2), m.read (o.toNat + 3) with
    | some a, some b, some c, some d => some (a ++ b ++ c ++ d)
    | _, _, _, _ => none

/-- Offsets strictly rise, each is at least `lo` and below `len`, and no cell holds the unlisted byte. -/
def Memory.cellsWf (len : Nat) : Nat → List Host.Cell → Bool
  | _, [] => true
  | lo, (a, v) :: cs => decide (lo ≤ a) && decide (a < len) && decide (v ≠ Memory.unlisted) && Memory.cellsWf len (a + 1) cs

/-- The canonical form: equal contents are equal data. -/
def Memory.wf (m : Memory) : Bool := Memory.cellsWf m.len 0 m.cells

end Sys2Proof.Machine
end

