-- ==== Sys2Proof/Machine/State.lean ====
section
/-! DEFINITION. The machine's state as plain data, the fault and refusal reasons, and the state after reset (10_state.md, 60_exceptions.md). -/

namespace Sys2Proof.Machine

/-- The fault causes of the table of R351, each with the info it records. -/
inductive FaultCause where
  /-- 1: an opcode byte in 0x1B–0x3F (R91, R353). -/
  | invalidOpcode (op : Byte)
  /-- 2: `call` with `sp = 256` (R196). -/
  | stackOverflow
  /-- 3: `ret` with `sp = 0` (R197). -/
  | stackUnderflow
  /-- 4: a fetched offset at or above `SEG_LEN` (R63). -/
  | fetchOutOfSegment (o : Word)
  /-- 5: `init` with a thread operand of 64 or more (R220). -/
  | badThreadId (t : Byte)
  /-- 6: `reset` with an index of 64 or more, or `first > last` (R226). -/
  | badThreadRange (first last : Byte)
  /-- 7: `reset` with a state operand of 3 or more (R226). -/
  | badThreadState (state : Byte)
  /-- 8: `cjmp` with comparison code 6 or 7 (R192, R194). -/
  | badCondition (cc : BitVec 3)
  /-- 9: `run` with no segment installed (R130). -/
  | noSegment
deriving DecidableEq, Repr

/-- The fault record of R352. -/
structure FaultRecord where
  cause : FaultCause
  /-- `cur`, when the fault arises in an execution pass. -/
  thread : Option (Fin 64)
  /-- The offset of the faulting opcode's first byte; none when no opcode was being executed (log 12). -/
  offset : Option Word
  /-- The opcode byte, when one was fetched. -/
  opcode : Option Byte
deriving DecidableEq, Repr

/-- The failure causes of `decompress` (the table of R360). -/
inductive DecompressFailure where
  | checksumError
  /-- Never produced (R313). -/
  | badCode
  | trailerTooShort
  | bufferTooSmall
  | sizeMismatch
  | readBounds
  | writeBounds
  | refBounds
deriving DecidableEq, Repr

/-- The decompressor's state during one call (R36, R302): the buffer, the caller's `unpackedSize`, and `src`, `dst`,
`rem`, `crc`, `chunk`. -/
structure Decomp where
  buf : Memory
  unpacked : Nat
  src : Int
  dst : Int
  rem : Int
  crc : DWord
  chunk : DWord
deriving DecidableEq, Repr

/-- What the block is doing (log 8): the points between which one step runs. -/
inductive Phase where
  /-- Between host calls (R372). -/
  | idle
  /-- The execution pass is about to look at thread `t`; 64 or more means that it has looked at all (R133). -/
  | scan (t : Nat)
  /-- The slice of thread `cur` is running; the next step executes one opcode (R136). -/
  | slice
  /-- A `decompress` call is running (R300). -/
  | unpack (d : Decomp)
deriving DecidableEq, Repr

/-- A host call (R384, R385). -/
inductive HostCall where
  /-- `setByteCode(segment)` (R380). -/
  | setByteCode (segment : List Byte)
  /-- `run(input, now)` (R130). -/
  | run (input : Snapshot) (now : Nat)
  /-- `getRegister(i)` (R384). -/
  | getRegister (i : Byte)
  /-- `setRegister(i, v)` (R384). -/
  | setRegister (i : Byte) (v : Word)
  /-- The audio collaborator's write of `MUSIC_MARK`, a `setRegister(IDX_MUSIC_MARK, v)` (R384). -/
  | setMusicMark (v : Word)
  /-- `decompress(B, packedSize, unpackedSize)` (R300). -/
  | decompress (buf : List Byte) (packedSize unpackedSize : Nat)
deriving DecidableEq, Repr

/-- What a host call returned. -/
inductive HostResult where
  /-- `run`: the next deadline and the events of the pass (R130, R143). -/
  | pass (deadline : Nat) (events : List Event)
  /-- `getRegister(i)`: the register's value (R384). -/
  | register (i : Byte) (v : Word)
  /-- `decompress`: `ok`, with the bytes of the buffer (R300). -/
  | unpacked (buf : List Byte)
  /-- `decompress`: `fail(cause)`; the buffer's contents are unspecified (R315) and are not returned (log 14). -/
  | unpackFailed (cause : DecompressFailure)
deriving DecidableEq, Repr

/-- The machine's state. INVENTORY.md lists each field with its rule and its reset value. -/
structure State where
  /-- The parameters of R7; no step writes them. -/
  params : Config.Params
  /-- The register bank `x` (R21). -/
  regs : RegBank
  /-- The thread control blocks `T` (R23). -/
  tcbs : TcbBank
  /-- The call-stack entries `S` (R28). -/
  stack : StackBank
  /-- The call-stack index `sp`, 0 to 256 (R28). -/
  sp : Fin 257
  /-- The shared cursor (R30). -/
  pc : Word
  /-- The installed segment, or none (R31). -/
  segment : Option Memory
  /-- The current-thread index (R33). -/
  cur : Fin 64
  /-- The fault state (R34). -/
  fault : Option FaultRecord
  /-- The event output, oldest first (R35). -/
  events : List Event
  /-- What the block is doing, with the decompressor's state during a call (R36). -/
  phase : Phase
  /-- The `now` argument of the `run` in progress (R130). -/
  passNow : Nat
  /-- The length of `events` when the `run` in progress began (R130). -/
  passMark : Nat
  /-- The offset of the first byte of the opcode being executed (R352). -/
  opStart : Word
  /-- The host calls still to come, oldest first (log 6). -/
  hostQueue : List HostCall
  /-- What the host calls returned, oldest first. -/
  results : List HostResult
  /-- The index of the next free value (log 9). -/
  freeCount : Nat
deriving DecidableEq, Repr

/-- Why a step stops the machine. -/
inductive Fault where
  /-- Raised by `step` in a state whose fault state is a fault: the block is stopped for good and no operation executes
  (R350, R366). The record is the one the faulting step wrote. Safe. -/
  | stopped (record : FaultRecord)
deriving DecidableEq, Repr

/-- Why a step has no meaning. -/
inductive Refusal where
  /-- Raised by `exec` for an instruction with no meaning yet. Safe. -/
  | notModelled (mnemonic : String)
  /-- Raised by `hostCall` for a `getRegister` or `setRegister` before the first `setByteCode`, which R383 says is not
  legal. Safe: the machine stops. -/
  | registersBeforeInstall
  /-- Raised by `hostCall` for a `setByteCode` of more than 65536 bytes, which R7 and R380 exclude. Safe: the machine
  stops. -/
  | segmentTooLong (length : Nat)
deriving DecidableEq, Repr

/-- The reset value of `T[t]` (R23, R380): thread 0 at offset 0, all others halted, nothing pending, all running.
DESIGN CHOICE, unsafe: the transient fields are 0, which the spec leaves unspecified (log 3). -/
def Tcb.reset (t : Fin 64) : Tcb where
  currentPc := if t = 0 then 0x0000 else 0xFFFF
  requestedPc := 0xFFFF
  currentState := 0
  requestedState := 0
  opcode := 0
  yield := false

/-- The 64 thread control blocks after reset (R380, R381); that they hold these values before the first `setByteCode` too
is log 17. -/
def TcbBank.reset : TcbBank := Vector.ofFn Tcb.reset

/-- The machine right after reset, with the default parameters and no segment installed (R380, R383). DESIGN CHOICE,
unsafe: before the first `setByteCode` the interpreter's state has no value (R383), and registers, thread control blocks
and stack index here have the values that `setByteCode` writes (log 17). Registers are `REG_RESET` (log 2); the cursor, `cur` and the stack entries, which the spec leaves unspecified, are 0 (log 3); the
model's own fields are empty (log 10). -/
def State.reset : State where
  params := Config.Params.default
  regs := Config.Params.default.regReset
  tcbs := TcbBank.reset
  stack := Vector.replicate 256 0
  sp := 0
  pc := 0
  segment := none
  cur := 0
  fault := none
  events := []
  phase := .idle
  passNow := 0
  passMark := 0
  opStart := 0
  hostQueue := []
  results := []
  freeCount := 0

end Sys2Proof.Machine
end

