-- ==== Sys2Proof/Machine/Ops.lean ====
section
/-! DEFINITION. The named operations over registers, thread control blocks, the call stack, the cursor, the segment and the event output, and taking a fault. -/

namespace Sys2Proof.Machine

/-- The outcome of one instruction or one step. -/
abbrev Result := Host.Outcome State Fault Refusal

/-! ## Registers (R21) -/

/-- `x[i]`. -/
def State.reg (s : State) (i : Byte) : Word := s.regs[i.toNat]'(i.isLt)

/-- `x[i] <- v`. -/
def State.setReg (s : State) (i : Byte) (v : Word) : State := { s with regs := s.regs.set i.toNat v i.isLt }

/-! ## The cursor (R30, R65) -/

/-- `seek(o)`: it never faults (R65). -/
def State.seek (s : State) (o : Word) : State := { s with pc := o }

/-! ## The segment (R31, R60 to R64) -/

/-- `SEG_LEN`; 0 with no segment. -/
def State.segLen (s : State) : Nat := (s.segment.map Memory.len).getD 0

/-- The segment byte at offset `o`, none where `o ≥ SEG_LEN` (R63). -/
def State.segByte (s : State) (o : Word) : Option Byte := s.segment.bind fun m => m.read o.toNat

/-- The segment bytes at `a`, `a+1`, … (modulo 65536, R62), at most `n`, up to the first offset that does not exist. -/
def State.segBytes (s : State) : Nat → Word → List Byte
  | 0, _ => []
  | n + 1, a =>
    match s.segByte a with
    | none => []
    | some b => b :: s.segBytes n (a + 1)

/-- `MemRead(a, n)`: `n` bytes as one big-endian number (R62), or the first offset at or above `SEG_LEN` (R63). -/
def State.memRead (s : State) (a : Word) (n : Nat) : Except Word Nat :=
  let bs := s.segBytes n a
  if bs.length = n then .ok (bs.foldl (fun v b => v * 256 + b.toNat) 0) else .error (a + BitVec.ofNat 16 bs.length)

/-- `MemRead(pc, n)`, then the cursor advances by `n` modulo 65536 (R64). -/
def State.fetch (s : State) (n : Nat) : Except Word (Nat × State) :=
  match s.memRead s.pc n with
  | .ok v => .ok (v, s.seek (s.pc + BitVec.ofNat 16 n))
  | .error o => .error o

/-- `Fetch8()` (R64). -/
def State.fetch8 (s : State) : Except Word (Byte × State) := (s.fetch 1).map fun (v, t) => (BitVec.ofNat 8 v, t)

/-- `Fetch16()` (R64). -/
def State.fetch16 (s : State) : Except Word (Word × State) := (s.fetch 2).map fun (v, t) => (BitVec.ofNat 16 v, t)

/-- `Fetch32()` (R64): part of the cursor's interface, used by no opcode (R66). -/
def State.fetch32 (s : State) : Except Word (DWord × State) := (s.fetch 4).map fun (v, t) => (BitVec.ofNat 32 v, t)

/-! ## Thread control blocks (R23) -/

/-- `T[t]`. -/
def State.tcb (s : State) (t : Fin 64) : Tcb := s.tcbs[t]

/-- `T[t]` with some of its fields replaced. -/
def State.modifyTcb (s : State) (t : Fin 64) (f : Tcb → Tcb) : State :=
  { s with tcbs := s.tcbs.set t (f s.tcbs[t]) }

/-- The loop `for t in first .. first + n − 1` over the bank (R226). -/
def mapRange (f : Tcb → Tcb) : Nat → Nat → TcbBank → TcbBank
  | 0, _, x => x
  | n + 1, first, x => mapRange f n (first + 1) (if h : first < 64 then x.set first (f x[first]) else x)

/-- Every `T[t]` with `first ≤ t ≤ last`, with some of its fields replaced. -/
def State.modifyRange (s : State) (first last : Nat) (f : Tcb → Tcb) : State :=
  { s with tcbs := mapRange f (last + 1 - first) first s.tcbs }

/-! ## The call stack (R28) -/

/-- `push(v)`; none where it overflows (`sp = 256`). -/
def State.push (s : State) (v : Word) : Option State :=
  if h : s.sp.val < 256 then
    some { s with stack := s.stack.set s.sp.val v h, sp := ⟨s.sp.val + 1, by omega⟩ }
  else none

/-- `pop()`; none where it underflows (`sp = 0`). The entry popped stays in `S` (R28 writes only `sp`). -/
def State.pop (s : State) : Option (Word × State) :=
  if h : s.sp.val = 0 then none
  else some (s.stack[s.sp.val - 1]'(by have := s.sp.isLt; omega), { s with sp := ⟨s.sp.val - 1, by omega⟩ })

/-! ## Events (R250) -/

/-- `emit E`: the event is appended to the event output; the collaborator returns nothing (R251). -/
def State.emit (s : State) (e : Event) : State := { s with events := s.events ++ [e] }

/-- The collaborator that an event is handed to (the table of R369). -/
def Event.collaborator : Event → Collaborator
  | .selectPalette _ | .selectPage _ | .fillPage _ _ | .copyPage _ _ _ | .blitPage _ | .drawString _ _ _ _
  | .drawPolygon _ _ _ _ _ => .video
  | .playSound _ _ _ _ | .playMusic _ _ _ => .audio
  | .load _ => .resource

/-! ## Taking a fault (R350 to R352, R365, R366)

There is no handler and no return from a fault (R366), so there is no operation beside `takeFault` that undoes it. -/

/-- The numeric code of a cause (the table of R351). -/
def FaultCause.code : FaultCause → Nat
  | .invalidOpcode _ => 1
  | .stackOverflow => 2
  | .stackUnderflow => 3
  | .fetchOutOfSegment _ => 4
  | .badThreadId _ => 5
  | .badThreadRange _ _ => 6
  | .badThreadState _ => 7
  | .badCondition _ => 8
  | .noSegment => 9

/-- Taking a fault (R350): opcode, slice and pass end at once and the fault state becomes the record. The rest of the
interpreter's state is unspecified (R350, D28): free values (log 9). The segment, which nothing writes (R61), the
parameters, what earlier host calls returned and the host's calls to come stand. -/
def State.takeFault (s : State) (record : FaultRecord) : State :=
  { s with
    fault := some record
    phase := .idle
    regs := Config.faultedRegs s.freeCount
    tcbs := Config.faultedTcbs s.freeCount
    stack := Config.faultedStack s.freeCount
    sp := Config.faultedSp s.freeCount
    pc := Config.faultedPc s.freeCount
    cur := Config.faultedCur s.freeCount
    events := Config.faultedEvents s.freeCount
    freeCount := s.freeCount + 1 }

/-- The record of a fault that an opcode raises (R352): the thread, the offset of the opcode's first byte, its opcode byte. -/
def State.faultRecord (s : State) (cause : FaultCause) : FaultRecord where
  cause := cause
  thread := some s.cur
  offset := some s.opStart
  opcode := some (s.tcb s.cur).opcode

/-- `raise Fault(cause)` inside an opcode. -/
def State.raise (s : State) (cause : FaultCause) : State := s.takeFault (s.faultRecord cause)

end Sys2Proof.Machine
end

