-- ==== Sys2Proof/Syntax.lean ====
section
/-! DEFINITION. The instructions: one constructor per row of spec/opcode_table.json, operands as 30_encoding.md R92 to R98 give them. -/

namespace Sys2Proof

/-- The right-hand operand of `cjmp`, one of the three shapes that the variant byte selects (R95). -/
inductive CmpOperand where
  /-- A register, when `v[7] = 1`. -/
  | reg (s : Byte)
  /-- A 16-bit immediate, when `v[7] = 0` and `v[6] = 1`. -/
  | imm16 (n : Word)
  /-- An 8-bit immediate, when `v[7] = 0` and `v[6] = 0`. -/
  | imm8 (n : Byte)
deriving DecidableEq, Repr

/-- The x field of `poly40`, selected by `op[5:4]` (R98). -/
inductive XField where
  /-- `00`: a signed 16-bit immediate. -/
  | imm16 (n : Word)
  /-- `01`: a register. -/
  | reg (b : Byte)
  /-- `10`: a byte, 0 to 255. -/
  | byte (b : Byte)
  /-- `11`: a byte plus 256. -/
  | bytePlus256 (b : Byte)
deriving DecidableEq, Repr

/-- The y field of `poly40`, selected by `op[3:2]` (R98). -/
inductive YField where
  /-- `00`: a signed 16-bit immediate. -/
  | imm16 (n : Word)
  /-- `01`: a register. -/
  | reg (b : Byte)
  /-- `10` or `11`: a byte, 0 to 255. -/
  | byte (b : Byte)
deriving DecidableEq, Repr

/-- The zoom field of `poly40`, selected by `op[1:0]` (R98). -/
inductive ZoomField where
  /-- `00`: zoom 64, buffer 0, no byte. -/
  | unscaled
  /-- `01`: a register, buffer 0. -/
  | reg (b : Byte)
  /-- `10`: a byte, buffer 0. -/
  | byte (b : Byte)
  /-- `11`: zoom 64, buffer 1, no byte. -/
  | secondBuffer
deriving DecidableEq, Repr

/-- An instruction of the opcode map (R93). The `cjmp` variant byte and the six mode bits of `poly40` are kept whole, so
that no bit of an encoding is lost; `Instr.wellFormed` says that the operand shapes agree with them. -/
inductive Instr where
  | movi (d : Byte) (n : Word)
  | movr (d s : Byte)
  | addr (d s : Byte)
  | addi (d : Byte) (n : Word)
  | call (tgt : Word)
  | ret
  | yield
  | jump (tgt : Word)
  | init (t : Byte) (tgt : Word)
  | djnz (r : Byte) (tgt : Word)
  | cjmp (v r : Byte) (rhs : CmpOperand) (tgt : Word)
  | palette (w : Word)
  | reset (first last state : Byte)
  | page (p : Byte)
  | fill (p c : Byte)
  | copy (src dst : Byte)
  | blit (p : Byte)
  | kill
  | print (id : Word) (x y c : Byte)
  | subr (d s : Byte)
  | andi (d : Byte) (n : Word)
  | iori (d : Byte) (n : Word)
  | shli (d : Byte) (n : Word)
  | shri (d : Byte) (n : Word)
  | sound (id : Word) (freq vol chan : Byte)
  | loadres (id : Word)
  | music (id delay : Word) (pos : Byte)
  /-- The row 0x1B, mask 0xFF. -/
  | invalid1B
  /-- The row 0x1C, mask 0xFC: the opcode byte's bits 1:0. -/
  | invalid1C (low : BitVec 2)
  /-- The row 0x20, mask 0xE0: the opcode byte's bits 4:0. -/
  | invalid20 (low : BitVec 5)
  /-- 0x40–0x7F: the opcode byte's bits 5:0, the two offset bytes, the three fields (R98). -/
  | poly40 (mode : BitVec 6) (hi lo : Byte) (x : XField) (y : YField) (zoom : ZoomField)
  /-- 0x80–0xFF: the opcode byte's bits 6:0, the low offset byte, the position (R97). -/
  | poly80 (high : BitVec 7) (lo x y : Byte)
deriving DecidableEq, Repr

end Sys2Proof
end

