-- ==== Sys2Proof/Machine/Operands.lean ====
section
/-! DEFINITION. The operand forms: what each operand of an instruction stands for in a state. -/

namespace Sys2Proof.Machine

/-- `s16(w)`: the two's-complement reading (R8). -/
def s16 (w : Word) : Int := w.toInt

/-- The right-hand operand of `cjmp` as a signed integer (R192, D13): a register or a 16-bit immediate read as `s16`, an
8-bit immediate zero-extended. -/
def cmpValue (s : State) : CmpOperand → Int
  | .reg i => s16 (s.reg i)
  | .imm16 n => s16 n
  | .imm8 n => (n.toNat : Int)

/-- `decode_x` (R284). -/
def xValue (s : State) : XField → Int
  | .imm16 n => s16 n
  | .reg b => s16 (s.reg b)
  | .byte b => (b.toNat : Int)
  | .bytePlus256 b => (b.toNat : Int) + 256

/-- `decode_y` (R285). No clamp at 199. -/
def yValue (s : State) : YField → Int
  | .imm16 n => s16 n
  | .reg b => s16 (s.reg b)
  | .byte b => (b.toNat : Int)

/-- The zoom of `decode_zoom` (R286): a register's 16-bit pattern, a byte, or 64. -/
def zoomValue (s : State) : ZoomField → Word
  | .unscaled => 64
  | .reg b => s.reg b
  | .byte b => b.setWidth 16
  | .secondBuffer => 64

/-- The buffer selector of `decode_zoom` (R286). -/
def zoomBuffer : ZoomField → Fin 2
  | .unscaled | .reg _ | .byte _ => 0
  | .secondBuffer => 1

/-- A polygon offset from two bytes: `trunc16((hi << 8 | lo) << 1)` (R97, R98). -/
def polygonOffset (hi lo : Byte) : Word := (hi ++ lo : Word) <<< 1

end Sys2Proof.Machine
end

