-- ==== Sys2Proof/Machine/Control.lean ====
section
/-! DEFINITION. Control-transfer instructions (42_control.md). No target is checked: a bad one faults at the next fetch (R190). -/

namespace Sys2Proof.Machine

/-- `jump tgt` (R191). -/
def execJump (tgt : Word) (s : State) : Result := .next (s.seek tgt)

/-- `cjmp` (R192 to R194): the left operand is `x[r]`, both sides are compared as signed integers, the codes 6 and 7
raise a fault; not taken, the cursor stays after the target bytes. -/
def execCjmp (v r : Byte) (rhs : CmpOperand) (tgt : Word) (s : State) : Result :=
  match condition (conditionCode v) (s16 (s.reg r)) (cmpValue s rhs) with
  | none => .next (s.raise (.badCondition (conditionCode v)))
  | some true => .next (s.seek tgt)
  | some false => .next s

/-- `djnz [r], tgt` (R195): the test is on the decremented value. -/
def execDjnz (r : Byte) (tgt : Word) (s : State) : Result :=
  let v := s.reg r - 1
  let t := s.setReg r v
  .next (if v ≠ 0 then t.seek tgt else t)

/-- `call tgt` (R196): the cursor, which stands after the instruction, is pushed. -/
def execCall (tgt : Word) (s : State) : Result :=
  match s.push s.pc with
  | some t => .next (t.seek tgt)
  | none => .next (s.raise .stackOverflow)

/-- `ret` (R197). -/
def execRet (s : State) : Result :=
  match s.pop with
  | some (v, t) => .next (t.seek v)
  | none => .next (s.raise .stackUnderflow)

end Sys2Proof.Machine
end

