-- ==== Sys2Proof/Machine/DataArith.lean ====
section
/-! DEFINITION. Data move, arithmetic and bitwise instructions (41_data_arith.md). -/

namespace Sys2Proof.Machine

/-- `shli`'s result (R167): the count is not masked, 16 or more gives 0 (D14). -/
def shiftLeft16 (v n : Word) : Word := if n.toNat < 16 then v <<< n.toNat else 0

/-- `shri`'s result (R168): zeros enter from the top, a count of 16 or more gives 0 (D14). -/
def shiftRight16 (v n : Word) : Word := if n.toNat < 16 then v >>> n.toNat else 0

/-- `movi [d], imm16` (R160). -/
def execMovi (d : Byte) (n : Word) (s : State) : Result := .next (s.setReg d n)

/-- `movr [d], [s]` (R161). -/
def execMovr (d src : Byte) (s : State) : Result := .next (s.setReg d (s.reg src))

/-- `addi [d], imm16`, modulo 65536 (R162, R169). -/
def execAddi (d : Byte) (n : Word) (s : State) : Result := .next (s.setReg d (s.reg d + n))

/-- `addr [d], [s]`, modulo 65536 (R163, R169). -/
def execAddr (d src : Byte) (s : State) : Result := .next (s.setReg d (s.reg d + s.reg src))

/-- `subr [d], [s]`, modulo 65536 (R164, R169). -/
def execSubr (d src : Byte) (s : State) : Result := .next (s.setReg d (s.reg d - s.reg src))

/-- `andi [d], imm16` (R165). -/
def execAndi (d : Byte) (n : Word) (s : State) : Result := .next (s.setReg d (s.reg d &&& n))

/-- `iori [d], imm16` (R166). -/
def execIori (d : Byte) (n : Word) (s : State) : Result := .next (s.setReg d (s.reg d ||| n))

/-- `shli [d], imm16` (R167). -/
def execShli (d : Byte) (n : Word) (s : State) : Result := .next (s.setReg d (shiftLeft16 (s.reg d) n))

/-- `shri [d], imm16` (R168). -/
def execShri (d : Byte) (n : Word) (s : State) : Result := .next (s.setReg d (shiftRight16 (s.reg d) n))

end Sys2Proof.Machine
end

