-- ==== Sys2Proof/WellFormed.lean ====
section
/-! DEFINITION. Which instruction terms stand for an encoding, and which of those have legal operand values (30_encoding.md R95, R98, R101). -/

namespace Sys2Proof

/-- The right-hand operand has the shape that `v[7]` and `v[6]` select; `v[7]` takes precedence (R95). -/
def CmpOperand.agrees (v : Byte) : CmpOperand → Bool
  | .reg _ => v.getLsbD 7
  | .imm16 _ => !v.getLsbD 7 && v.getLsbD 6
  | .imm8 _ => !v.getLsbD 7 && !v.getLsbD 6

/-- The x field has the shape that `op[5:4]` selects (R98). -/
def XField.agrees (mode : BitVec 6) : XField → Bool
  | .imm16 _ => !mode.getLsbD 5 && !mode.getLsbD 4
  | .reg _ => !mode.getLsbD 5 && mode.getLsbD 4
  | .byte _ => mode.getLsbD 5 && !mode.getLsbD 4
  | .bytePlus256 _ => mode.getLsbD 5 && mode.getLsbD 4

/-- The y field has the shape that `op[3:2]` selects (R98). -/
def YField.agrees (mode : BitVec 6) : YField → Bool
  | .imm16 _ => !mode.getLsbD 3 && !mode.getLsbD 2
  | .reg _ => !mode.getLsbD 3 && mode.getLsbD 2
  | .byte _ => mode.getLsbD 3

/-- The zoom field has the shape that `op[1:0]` selects (R98). -/
def ZoomField.agrees (mode : BitVec 6) : ZoomField → Bool
  | .unscaled => !mode.getLsbD 1 && !mode.getLsbD 0
  | .reg _ => !mode.getLsbD 1 && mode.getLsbD 0
  | .byte _ => mode.getLsbD 1 && !mode.getLsbD 0
  | .secondBuffer => mode.getLsbD 1 && mode.getLsbD 0

/-- The term stands for an encoding: the operand shapes agree with the mode bits that select them. Every other operand
may hold any value (R92, R101). -/
def Instr.wellFormed : Instr → Bool
  | .cjmp v _ rhs _ => rhs.agrees v
  | .poly40 mode _ _ x y zoom => x.agrees mode && y.agrees mode && zoom.agrees mode
  | .movi .. | .movr .. | .addr .. | .addi .. | .call .. | .ret | .yield | .jump .. | .init .. | .djnz .. | .palette ..
  | .reset .. | .page .. | .fill .. | .copy .. | .blit .. | .kill | .print .. | .subr .. | .andi .. | .iori .. | .shli .. | .shri ..
  | .sound .. | .loadres .. | .music .. | .invalid1B | .invalid1C .. | .invalid20 .. | .poly80 .. => true

/-- The operand values are legal in the sense of R101: an illegal one raises the fault its rule names. -/
def Instr.legalOperands : Instr → Bool
  | .cjmp v _ _ _ => decide ((v.extractLsb' 0 3).toNat < 6)
  | .init t _ => decide (t.toNat < 64)
  | .reset first last state =>
    decide (first.toNat < 64) && decide (last.toNat < 64) && decide (first.toNat ≤ last.toNat) && decide (state.toNat < 3)
  | .movi .. | .movr .. | .addr .. | .addi .. | .call .. | .ret | .yield | .jump .. | .djnz .. | .palette ..
  | .page .. | .fill .. | .copy .. | .blit .. | .kill | .print .. | .subr .. | .andi .. | .iori .. | .shli .. | .shri ..
  | .sound .. | .loadres .. | .music .. | .invalid1B | .invalid1C .. | .invalid20 .. | .poly40 .. | .poly80 .. => true

end Sys2Proof
end

