-- ==== Sys2Proof/Decode.lean ====
section
/-! DEFINITION. The decoder and the encoder of the bytecode (30_encoding.md R90 to R103). -/

namespace Sys2Proof

/-- Why the decoder gives no instruction. Neither is an illegal encoding: every opcode byte decodes (R91), the invalid
band to the `invalid` instructions, so only missing bytes stop it. Safe: `Machine.fetchInstr` turns each into the
fetch fault of R63. -/
inductive DecodeError where
  /-- There is no opcode byte. -/
  | noOpcode
  /-- The opcode byte is there and an operand byte is missing. -/
  | missingOperand
deriving DecidableEq, Repr

/-- A decoded instruction and the bytes after it. -/
abbrev Decoded := Except DecodeError (Instr × List Byte)

/-- `hi : lo`, a big-endian 16-bit operand (R67, R92). -/
def be16 (hi lo : Byte) : Word := hi ++ lo

/-- The more significant byte of a 16-bit operand. -/
def hiByte (w : Word) : Byte := w.extractLsb' 8 8

/-- The less significant byte of a 16-bit operand. -/
def loByte (w : Word) : Byte := w.extractLsb' 0 8

/-! One function per format of R94; each takes the bytes after the opcode byte. -/

/-- Format `N`. -/
def fmtN (i : Instr) (bs : List Byte) : Decoded := .ok (i, bs)

/-- Formats `RI`, `TJ` and `RJ`: one byte, one 16-bit operand. -/
def fmtBW (mk : Byte → Word → Instr) : List Byte → Decoded
  | b :: hi :: lo :: bs => .ok (mk b (be16 hi lo), bs)
  | _ => .error .missingOperand

/-- Formats `RR` and `BB`: two bytes. -/
def fmtBB (mk : Byte → Byte → Instr) : List Byte → Decoded
  | b :: c :: bs => .ok (mk b c, bs)
  | _ => .error .missingOperand

/-- Formats `J` and `W`: one 16-bit operand. -/
def fmtW (mk : Word → Instr) : List Byte → Decoded
  | hi :: lo :: bs => .ok (mk (be16 hi lo), bs)
  | _ => .error .missingOperand

/-- Format `B`: one byte. -/
def fmtB (mk : Byte → Instr) : List Byte → Decoded
  | b :: bs => .ok (mk b, bs)
  | _ => .error .missingOperand

/-- Format `TR`: three bytes. -/
def fmtBBB (mk : Byte → Byte → Byte → Instr) : List Byte → Decoded
  | b :: c :: d :: bs => .ok (mk b c d, bs)
  | _ => .error .missingOperand

/-- Formats `PR` and `SN`: one 16-bit operand, three bytes. -/
def fmtWBBB (mk : Word → Byte → Byte → Byte → Instr) : List Byte → Decoded
  | hi :: lo :: b :: c :: d :: bs => .ok (mk (be16 hi lo) b c d, bs)
  | _ => .error .missingOperand

/-- Format `MU`: two 16-bit operands, one byte. -/
def fmtWWB (mk : Word → Word → Byte → Instr) : List Byte → Decoded
  | hi :: lo :: hi' :: lo' :: b :: bs => .ok (mk (be16 hi lo) (be16 hi' lo') b, bs)
  | _ => .error .missingOperand

/-- The right-hand operand of `cjmp` by its variant byte: `v[7]` first, then `v[6]` (R95). -/
def decodeCmpOperand (v : Byte) : List Byte → Except DecodeError (CmpOperand × List Byte)
  | [] => .error .missingOperand
  | b :: bs =>
    if v.getLsbD 7 then .ok (.reg b, bs)
    else if v.getLsbD 6 then
      match bs with
      | lo :: bs => .ok (.imm16 (be16 b lo), bs)
      | [] => .error .missingOperand
    else .ok (.imm8 b, bs)

/-- Format `CJ`: variant byte, left register, right-hand operand, target (R94, R95). -/
def fmtCJ : List Byte → Decoded
  | v :: r :: bs =>
    match decodeCmpOperand v bs with
    | .ok (rhs, hi :: lo :: bs) => .ok (.cjmp v r rhs (be16 hi lo), bs)
    | _ => .error .missingOperand
  | _ => .error .missingOperand

/-- The x field of `poly40` by `op[5:4]` (R98). -/
def decodeXField (mode : BitVec 6) : List Byte → Except DecodeError (XField × List Byte)
  | [] => .error .missingOperand
  | b :: bs =>
    if mode.getLsbD 5 then
      if mode.getLsbD 4 then .ok (.bytePlus256 b, bs) else .ok (.byte b, bs)
    else if mode.getLsbD 4 then .ok (.reg b, bs)
    else
      match bs with
      | lo :: bs => .ok (.imm16 (be16 b lo), bs)
      | [] => .error .missingOperand

/-- The y field of `poly40` by `op[3:2]` (R98). -/
def decodeYField (mode : BitVec 6) : List Byte → Except DecodeError (YField × List Byte)
  | [] => .error .missingOperand
  | b :: bs =>
    if mode.getLsbD 3 then .ok (.byte b, bs)
    else if mode.getLsbD 2 then .ok (.reg b, bs)
    else
      match bs with
      | lo :: bs => .ok (.imm16 (be16 b lo), bs)
      | [] => .error .missingOperand

/-- The zoom field of `poly40` by `op[1:0]` (R98). -/
def decodeZoomField (mode : BitVec 6) (bs : List Byte) : Except DecodeError (ZoomField × List Byte) :=
  if mode.getLsbD 1 then
    if mode.getLsbD 0 then .ok (.secondBuffer, bs)
    else
      match bs with
      | b :: bs => .ok (.byte b, bs)
      | [] => .error .missingOperand
  else if mode.getLsbD 0 then
    match bs with
    | b :: bs => .ok (.reg b, bs)
    | [] => .error .missingOperand
  else .ok (.unscaled, bs)

/-- Format `P40`: two offset bytes, then the x, y and zoom fields in that order (R94, R98, R287). -/
def fmtP40 (mode : BitVec 6) : List Byte → Decoded
  | hi :: lo :: bs =>
    match decodeXField mode bs with
    | .error e => .error e
    | .ok (x, bs) =>
      match decodeYField mode bs with
      | .error e => .error e
      | .ok (y, bs) =>
        match decodeZoomField mode bs with
        | .error e => .error e
        | .ok (zoom, bs) => .ok (.poly40 mode hi lo x y zoom, bs)
  | _ => .error .missingOperand

/-- The opcode map for bytes below 0x40: the 27 named opcodes (R93), then the invalid band, split as the three rows of
spec/opcode_table.json split it. -/
def decodeNamed (op : Byte) (bs : List Byte) : Decoded :=
  match op.toNat with
  | 0x00 => fmtBW .movi bs
  | 0x01 => fmtBB .movr bs
  | 0x02 => fmtBB .addr bs
  | 0x03 => fmtBW .addi bs
  | 0x04 => fmtW .call bs
  | 0x05 => fmtN .ret bs
  | 0x06 => fmtN .yield bs
  | 0x07 => fmtW .jump bs
  | 0x08 => fmtBW .init bs
  | 0x09 => fmtBW .djnz bs
  | 0x0A => fmtCJ bs
  | 0x0B => fmtW .palette bs
  | 0x0C => fmtBBB .reset bs
  | 0x0D => fmtB .page bs
  | 0x0E => fmtBB .fill bs
  | 0x0F => fmtBB .copy bs
  | 0x10 => fmtB .blit bs
  | 0x11 => fmtN .kill bs
  | 0x12 => fmtWBBB .print bs
  | 0x13 => fmtBB .subr bs
  | 0x14 => fmtBW .andi bs
  | 0x15 => fmtBW .iori bs
  | 0x16 => fmtBW .shli bs
  | 0x17 => fmtBW .shri bs
  | 0x18 => fmtWBBB .sound bs
  | 0x19 => fmtW .loadres bs
  | 0x1A => fmtWWB .music bs
  | 0x1B => fmtN .invalid1B bs
  | _ =>
    if op.toNat < 0x20 then fmtN (.invalid1C (op.extractLsb' 0 2)) bs
    else fmtN (.invalid20 (op.extractLsb' 0 5)) bs

/-- The decoder, total over the opcode byte and tried in the order of R91: bit 7, then bit 6, then the map. -/
def decode : List Byte → Decoded
  | [] => .error .noOpcode
  | op :: bs =>
    if op.getLsbD 7 then fmtBBB (.poly80 (op.extractLsb' 0 7)) bs
    else if op.getLsbD 6 then fmtP40 (op.extractLsb' 0 6) bs
    else decodeNamed op bs

/-- The instruction that the decoder reads from the bits of `w`, byte `k` being bits `8k+7 … 8k` and every bit from
`nbits` on being 0, with zero bytes up to the longest instruction (8 bytes, R90). -/
def tableBytes (nbits w : Nat) : List Byte :=
  (List.range 8).map fun k => BitVec.ofNat 8 ((w % 2 ^ nbits) >>> (8 * k))

/-- What `decode` reads from an instruction word of spec/opcode_table.json; none where it gives none. -/
def decodeTableWord (nbits w : Nat) : Option Instr :=
  match decode (tableBytes nbits w) with
  | .ok (i, _) => some i
  | .error _ => none

/-! The encoder, from the same table (R93 to R98). -/

/-- The two bytes of a 16-bit operand, the more significant first (R67). -/
def wordBytes (w : Word) : List Byte := [hiByte w, loByte w]

/-- The bytes of the right-hand operand of `cjmp` (R95). -/
def CmpOperand.bytes : CmpOperand → List Byte
  | .reg s => [s]
  | .imm16 n => wordBytes n
  | .imm8 n => [n]

/-- The bytes of the x field of `poly40` (R98). -/
def XField.bytes : XField → List Byte
  | .imm16 n => wordBytes n
  | .reg b => [b]
  | .byte b => [b]
  | .bytePlus256 b => [b]

/-- The bytes of the y field of `poly40` (R98). -/
def YField.bytes : YField → List Byte
  | .imm16 n => wordBytes n
  | .reg b => [b]
  | .byte b => [b]

/-- The bytes of the zoom field of `poly40` (R98). -/
def ZoomField.bytes : ZoomField → List Byte
  | .unscaled => []
  | .reg b => [b]
  | .byte b => [b]
  | .secondBuffer => []

/-- The opcode byte of an instruction (R93, R97, R98). -/
def Instr.opcodeByte : Instr → Byte
  | .movi _ _ => 0x00
  | .movr _ _ => 0x01
  | .addr _ _ => 0x02
  | .addi _ _ => 0x03
  | .call _ => 0x04
  | .ret => 0x05
  | .yield => 0x06
  | .jump _ => 0x07
  | .init _ _ => 0x08
  | .djnz _ _ => 0x09
  | .cjmp _ _ _ _ => 0x0A
  | .palette _ => 0x0B
  | .reset _ _ _ => 0x0C
  | .page _ => 0x0D
  | .fill _ _ => 0x0E
  | .copy _ _ => 0x0F
  | .blit _ => 0x10
  | .kill => 0x11
  | .print _ _ _ _ => 0x12
  | .subr _ _ => 0x13
  | .andi _ _ => 0x14
  | .iori _ _ => 0x15
  | .shli _ _ => 0x16
  | .shri _ _ => 0x17
  | .sound _ _ _ _ => 0x18
  | .loadres _ => 0x19
  | .music _ _ _ => 0x1A
  | .invalid1B => 0x1B
  | .invalid1C low => 0b000111#6 ++ low
  | .invalid20 low => 0b001#3 ++ low
  | .poly40 mode _ _ _ _ _ => 0b01#2 ++ mode
  | .poly80 high _ _ _ => 1#1 ++ high

/-- The operand bytes of an instruction, in the order of R94. -/
def Instr.operandBytes : Instr → List Byte
  | .movi d n | .addi d n | .andi d n | .iori d n | .shli d n | .shri d n => d :: wordBytes n
  | .movr d s | .addr d s | .subr d s => [d, s]
  | .call tgt | .jump tgt => wordBytes tgt
  | .ret | .yield | .kill | .invalid1B | .invalid1C _ | .invalid20 _ => []
  | .init t tgt => t :: wordBytes tgt
  | .djnz r tgt => r :: wordBytes tgt
  | .cjmp v r rhs tgt => v :: r :: (rhs.bytes ++ wordBytes tgt)
  | .palette w => wordBytes w
  | .loadres id => wordBytes id
  | .reset first last state => [first, last, state]
  | .page p | .blit p => [p]
  | .fill p c => [p, c]
  | .copy src dst => [src, dst]
  | .print id x y c => wordBytes id ++ [x, y, c]
  | .sound id freq vol chan => wordBytes id ++ [freq, vol, chan]
  | .music id delay pos => wordBytes id ++ wordBytes delay ++ [pos]
  | .poly40 _ hi lo x y zoom => hi :: lo :: (x.bytes ++ y.bytes ++ zoom.bytes)
  | .poly80 _ lo x y => [lo, x, y]

/-- The bytes of an instruction (R90). -/
def encode (i : Instr) : List Byte := i.opcodeByte :: i.operandBytes

/-- The length in bytes that the opcode map gives an instruction (R93), with the lengths of R95 for `cjmp` and of R99
for `poly40`. -/
def Instr.byteLength : Instr → Nat
  | .movi _ _ | .addi _ _ | .andi _ _ | .iori _ _ | .shli _ _ | .shri _ _ => 4
  | .movr _ _ | .addr _ _ | .subr _ _ => 3
  | .call _ | .jump _ | .palette _ | .loadres _ => 3
  | .ret | .yield | .kill | .invalid1B | .invalid1C _ | .invalid20 _ => 1
  | .init _ _ | .djnz _ _ | .reset _ _ _ => 4
  | .cjmp v _ _ _ => if !v.getLsbD 7 && v.getLsbD 6 then 7 else 6
  | .page _ | .blit _ => 2
  | .fill _ _ | .copy _ _ => 3
  | .print _ _ _ _ | .sound _ _ _ _ | .music _ _ _ => 6
  | .poly40 mode _ _ _ _ _ =>
    3 + (if mode.extractLsb' 4 2 = 0 then 2 else 1) + (if mode.extractLsb' 2 2 = 0 then 2 else 1)
      + (if mode.extractLsb' 0 2 = 1 ∨ mode.extractLsb' 0 2 = 2 then 1 else 0)
  | .poly80 _ _ _ _ => 4

end Sys2Proof
end

