-- ==== Sys2Proof/Machine/Engine.lean ====
section
/-! DEFINITION. Engine-call instructions (44_engine_calls.md): each emits one event and changes nothing else. -/

namespace Sys2Proof.Machine

/-- `palette imm16` (R253): the palette number is the high byte, the low byte is ignored. -/
def execPalette (w : Word) (s : State) : Result := .next (s.emit (.selectPalette (hiByte w)))

/-- `page imm8` (R254). -/
def execPage (p : Byte) (s : State) : Result := .next (s.emit (.selectPage p))

/-- `fill imm8, imm8` (R255). -/
def execFill (p c : Byte) (s : State) : Result := .next (s.emit (.fillPage p c))

/-- `copy imm8, imm8` (R256): the scroll is `s16(x[IDX_SCROLL_Y])` at the time of the opcode. -/
def execCopy (src dst : Byte) (s : State) : Result :=
  .next (s.emit (.copyPage src dst (s16 (s.reg s.params.idxScrollY))))

/-- `blit imm8` (R257): no register is written (D34). -/
def execBlit (p : Byte) (s : State) : Result := .next (s.emit (.blitPage p))

/-- `print imm16, imm8, imm8, imm8` (R258). -/
def execPrint (id : Word) (x y c : Byte) (s : State) : Result := .next (s.emit (.drawString id x y c))

/-- `sound imm16, imm8, imm8, imm8` (R259). -/
def execSound (id : Word) (freq vol chan : Byte) (s : State) : Result := .next (s.emit (.playSound id freq vol chan))

/-- `music imm16, imm16, imm8` (R260). -/
def execMusic (id delay : Word) (pos : Byte) (s : State) : Result := .next (s.emit (.playMusic id delay pos))

/-- `loadres imm16` (R261): whatever the host does with the id, the block's state does not change (R262). -/
def execLoadres (id : Word) (s : State) : Result := .next (s.emit (.load id))

end Sys2Proof.Machine
end

