-- ==== Sys2Proof/Machine/Invalid.lean ====
section
/-! DEFINITION. The invalid band 0x1B–0x3F (30_encoding.md R100, 60_exceptions.md R353): no operand byte is fetched, `Fault(InvalidOpcode)` is raised. -/

namespace Sys2Proof.Machine

/-- The opcode byte 0x1B. -/
def execInvalid1B (s : State) : Result := .next (s.raise (.invalidOpcode 0x1B))

/-- The opcode bytes 0x1C–0x1F. -/
def execInvalid1C (low : BitVec 2) (s : State) : Result := .next (s.raise (.invalidOpcode (0b000111#6 ++ low)))

/-- The opcode bytes 0x20–0x3F. -/
def execInvalid20 (low : BitVec 5) (s : State) : Result := .next (s.raise (.invalidOpcode (0b001#3 ++ low)))

end Sys2Proof.Machine
end

