-- ==== Sys2Proof/Machine/Polygon.lean ====
section
/-! DEFINITION. Polygon-draw instructions (45_polygon.md): each emits one `DrawPolygon` event and changes nothing else. -/

namespace Sys2Proof.Machine

/-- The position of `poly80` (R282): for `y` above 199 the excess moves into `x`. -/
def poly80Position (x y : Byte) : Int × Int :=
  if y.toNat > 199 then ((x.toNat : Int) + ((y.toNat : Int) - 199), 199) else ((x.toNat : Int), (y.toNat : Int))

/-- `poly80 off, x, y` (R282): the offset is `op[6:0] : lo : 0`, the buffer 0, the zoom 64. -/
def execPoly80 (high : BitVec 7) (lo x y : Byte) (s : State) : Result :=
  let p := poly80Position x y
  .next (s.emit (.drawPolygon 0 (polygonOffset (1#1 ++ high) lo) p.1 p.2 64))

/-- `poly40` (R283 to R287). The mode bits have done their work in the decoder, which chose the fields' shapes. -/
def execPoly40 (_mode : BitVec 6) (hi lo : Byte) (x : XField) (y : YField) (zoom : ZoomField) (s : State) : Result :=
  .next (s.emit (.drawPolygon (zoomBuffer zoom) (polygonOffset hi lo) (xValue s x) (yValue s y) (zoomValue s zoom)))

end Sys2Proof.Machine
end

