-- ==== Sys2Proof/Machine/Thread.lean ====
section
/-! DEFINITION. Thread-control instructions (43_thread_control.md): the only writers of `requested_pc` and `requested_state` (R228). -/

namespace Sys2Proof.Machine

/-- `init t, tgt` (R220): a deferred PC change; 0xFFFF cancels a request and 0xFFFE asks for a halt (R221, R26). -/
def execInit (t : Byte) (tgt : Word) (s : State) : Result :=
  if h : t.toNat < 64 then .next (s.modifyTcb ⟨t.toNat, h⟩ fun c => { c with requestedPc := tgt })
  else .next (s.raise (.badThreadId t))

/-- `kill` (R222, C1): the cursor becomes the halt value, which R137 then copies to `current_pc`, and the slice ends. -/
def execKill (s : State) : Result := .next ((s.seek 0xFFFF).modifyTcb s.cur fun c => { c with yield := true })

/-- `yield` (R224). -/
def execYield (s : State) : Result := .next (s.modifyTcb s.cur fun c => { c with yield := true })

/-- What `reset` does to one thread of its range (R226): state 2 asks for a halt, 0 and 1 ask for run or pause. -/
def Tcb.request (state : Byte) (c : Tcb) : Tcb :=
  if state = 2 then { c with requestedPc := 0xFFFE } else { c with requestedState := state }

/-- `reset first, last, state` (R226): the range is checked before the state (R364). -/
def execReset (first last state : Byte) (s : State) : Result :=
  if first.toNat ≥ 64 ∨ last.toNat ≥ 64 ∨ first.toNat > last.toNat then .next (s.raise (.badThreadRange first last))
  else if state.toNat ≥ 3 then .next (s.raise (.badThreadState state))
  else .next (s.modifyRange first.toNat last.toNat (Tcb.request state))

end Sys2Proof.Machine
end

