-- ==== Sys2Proof/Machine/Dispatch.lean ====
section
/-! DEFINITION. One arm per instruction (40_scheduler.md R139). -/

namespace Sys2Proof.Machine

def exec (i : Instr) (s : State) : Host.Outcome State Fault Refusal :=
  match i with
  | .movi d n => Sys2Proof.Machine.execMovi d n s
  | .movr d src => Sys2Proof.Machine.execMovr d src s
  | .addr d src => Sys2Proof.Machine.execAddr d src s
  | .addi d n => Sys2Proof.Machine.execAddi d n s
  | .call tgt => Sys2Proof.Machine.execCall tgt s
  | .ret => Sys2Proof.Machine.execRet s
  | .yield => Sys2Proof.Machine.execYield s
  | .jump tgt => Sys2Proof.Machine.execJump tgt s
  | .init t tgt => Sys2Proof.Machine.execInit t tgt s
  | .djnz r tgt => Sys2Proof.Machine.execDjnz r tgt s
  | .cjmp v r rhs tgt => Sys2Proof.Machine.execCjmp v r rhs tgt s
  | .palette w => Sys2Proof.Machine.execPalette w s
  | .reset first last state => Sys2Proof.Machine.execReset first last state s
  | .page p => Sys2Proof.Machine.execPage p s
  | .fill p c => Sys2Proof.Machine.execFill p c s
  | .copy src dst => Sys2Proof.Machine.execCopy src dst s
  | .blit p => Sys2Proof.Machine.execBlit p s
  | .kill => Sys2Proof.Machine.execKill s
  | .print id x y c => Sys2Proof.Machine.execPrint id x y c s
  | .subr d src => Sys2Proof.Machine.execSubr d src s
  | .andi d n => Sys2Proof.Machine.execAndi d n s
  | .iori d n => Sys2Proof.Machine.execIori d n s
  | .shli d n => Sys2Proof.Machine.execShli d n s
  | .shri d n => Sys2Proof.Machine.execShri d n s
  | .sound id freq vol chan => Sys2Proof.Machine.execSound id freq vol chan s
  | .loadres id => Sys2Proof.Machine.execLoadres id s
  | .music id delay pos => Sys2Proof.Machine.execMusic id delay pos s
  | .invalid1B => Sys2Proof.Machine.execInvalid1B s
  | .invalid1C low => Sys2Proof.Machine.execInvalid1C low s
  | .invalid20 low => Sys2Proof.Machine.execInvalid20 low s
  | .poly40 mode hi lo x y zoom => Sys2Proof.Machine.execPoly40 mode hi lo x y zoom s
  | .poly80 high lo x y => Sys2Proof.Machine.execPoly80 high lo x y s

end Sys2Proof.Machine
end

