-- ==== Sys2Proof/Machine/Fetch.lean ====
section
/-! DEFINITION. Fetching the next instruction at the cursor, and what the execution pass does after an opcode (40_scheduler.md R136 to R138). -/

namespace Sys2Proof.Machine

/-- The segment bytes at the cursor, as many as the longest instruction has (8, R90) and as exist (R63). -/
def State.window (s : State) : List Byte := s.segBytes 8 s.pc

/-- The state in which an opcode of `n` bytes executes (R136): the cursor stands after its bytes, `T[cur].opcode` holds
its opcode byte. DEDUCED, safe: all operand bytes are fetched before the opcode's effects (log 11). -/
def State.fetched (s : State) (opcode : Byte) (n : Nat) : State :=
  { s.modifyTcb s.cur (fun c => { c with opcode := opcode }) with
    pc := s.pc + BitVec.ofNat 16 n
    opStart := s.pc }

/-- The record of a fetch fault (R63, R352): the first offset that does not exist, and the opcode byte if it was fetched. -/
def State.fetchFaultRecord (s : State) : FaultRecord where
  cause := .fetchOutOfSegment (s.pc + BitVec.ofNat 16 s.window.length)
  thread := some s.cur
  offset := some s.pc
  opcode := s.window.head?

/-- Fetch and decode one instruction at the cursor: the instruction and the state it executes in, or the state after
the fetch fault (R63, R91, R136). -/
def fetchInstr (s : State) : Except State (Instr × State) :=
  match decode s.window with
  | .ok (i, rest) => .ok (i, s.fetched i.opcodeByte (s.window.length - rest.length))
  | .error _ => .error (s.takeFault s.fetchFaultRecord)

/-- After an opcode that does not fault, `T[cur].current_pc` follows the cursor (R137); the slice ends when
`T[cur].yield = 1` (R138), and the pass goes on with the next thread (R133). -/
def State.endOpcode (t : State) : State :=
  if t.fault.isSome then t
  else
    let u := t.modifyTcb t.cur (fun c => { c with currentPc := t.pc })
    if (t.tcb t.cur).yield then { u with phase := .scan (t.cur.val + 1) } else u

/-- An opcode's outcome with `endOpcode` applied to its next state. -/
def endOpcodeResult : Result → Result
  | .next t => .next t.endOpcode
  | .fault f => .fault f
  | .refused r => .refused r

/-- The cell-by-cell store of an instruction's bytes at offset `o` and on, modulo 65536. -/
def storeBytes (m : Memory) (o : Word) : List Byte → Memory
  | [] => m
  | b :: bs => storeBytes (m.write o.toNat b) (o + 1) bs

/-- The segment, empty if none is installed, long enough for 8 bytes at the cursor, which are replaced. -/
def State.withBytesAtCursor (s : State) (bs : List Byte) : Memory :=
  let m := s.segment.getD { len := 0, cells := [] }
  storeBytes { m with len := max m.len (min 65536 (s.pc.toNat + 8)) } s.pc bs

end Sys2Proof.Machine
end

