-- ==== Sys2Proof/Machine/Decompress.lean ====
section
/-! DEFINITION. The ByteKiller decompressor (46_decompressor.md). One step runs one iteration of the decode loop (log 8). -/

namespace Sys2Proof.Machine

/-- What one iteration of the decode loop does (the table of R307). -/
inductive Token where
  | literal (count : Nat)
  | backRef (count offset : Nat)
deriving DecidableEq, Repr

/-- The preconditions of R301 in their order, then the trailer and the initial state of R302 and R303. -/
def Decomp.start (bytes : List Byte) (packedSize unpackedSize : Nat) : Except DecompressFailure Decomp :=
  let buf := Memory.ofBytes bytes
  if packedSize < 12 then .error .trailerTooShort
  else if packedSize > buf.len ∨ unpackedSize > buf.len then .error .bufferTooSmall
  else
    match buf.read32 ((packedSize : Int) - 4) with
    | none => .error .readBounds
    | some length =>
      if length.toNat ≠ unpackedSize then .error .sizeMismatch
      else
        match buf.read32 ((packedSize : Int) - 8), buf.read32 ((packedSize : Int) - 12) with
        | some seed, some chunk =>
          .ok
            { buf := buf
              unpacked := unpackedSize
              src := (packedSize : Int) - 16
              dst := (unpackedSize : Int) - 1
              rem := (length.toNat : Int)
              crc := seed ^^^ chunk
              chunk := chunk }
        | _, _ => .error .readBounds

/-- `GetBit()` (R304): the low bit, then a right shift; when the chunk becomes zero the bit was the marker, and the bit
comes from the next word, with a 1 shifted in at the top. -/
def Decomp.getBit (d : Decomp) : Except DecompressFailure (Bool × Decomp) :=
  if d.chunk >>> 1 = 0 then
    match d.buf.read32 d.src with
    | none => .error .readBounds
    | some w =>
      .ok (w.getLsbD 0, { d with src := d.src - 4, crc := d.crc ^^^ w, chunk := (w >>> 1) ||| 0x80000000 })
  else .ok (d.chunk.getLsbD 0, { d with chunk := d.chunk >>> 1 })

/-- The loop of `GetBits` (R305): `n` more bits after the value `v`, the first bit read most significant. -/
def Decomp.getBitsFrom : Nat → Nat → Decomp → Except DecompressFailure (Nat × Decomp)
  | 0, v, d => .ok (v, d)
  | n + 1, v, d =>
    match d.getBit with
    | .error e => .error e
    | .ok (b, d) => Decomp.getBitsFrom n (2 * v + b.toNat) d

/-- `GetBits(n)` (R305). -/
def Decomp.getBits (d : Decomp) (n : Nat) : Except DecompressFailure (Nat × Decomp) := Decomp.getBitsFrom n 0 d

/-- A byte goes to the output at `dst`, which falls by one; below offset 0 it fails (R308, R309, R312). A `dst` at or
above `BUF_LEN`, which no call reaches, fails the same way (R72). -/
def Decomp.put (d : Decomp) (v : Byte) : Except DecompressFailure Decomp :=
  if d.dst < 0 then .error .writeBounds
  else if d.dst.toNat < d.buf.len then .ok { d with buf := d.buf.write d.dst.toNat v, dst := d.dst - 1 }
  else .error .writeBounds

/-- The loop of `Literal(count)` (R308): the byte is read before the bound of its write is checked. -/
def Decomp.literalBytes : Nat → Decomp → Except DecompressFailure Decomp
  | 0, d => .ok d
  | n + 1, d =>
    match d.getBits 8 with
    | .error e => .error e
    | .ok (v, d) =>
      match d.put (BitVec.ofNat 8 v) with
      | .error e => .error e
      | .ok d => Decomp.literalBytes n d

/-- The loop of `BackRef(count, offset)` (R309): one byte at a time, the write's bound checked first. A source outside
the buffer, which no call reaches, is a read failure (R72). -/
def Decomp.backRefBytes (offset : Nat) : Nat → Decomp → Except DecompressFailure Decomp
  | 0, d => .ok d
  | n + 1, d =>
    if d.dst < 0 then .error .writeBounds
    else if d.dst + offset ≥ d.unpacked then .error .refBounds
    else
      match d.buf.read (d.dst + offset).toNat with
      | none => .error .readBounds
      | some v =>
        match d.put v with
        | .error e => .error e
        | .ok d => Decomp.backRefBytes offset n d

/-- A back-reference header whose count is fixed and whose offset has `bits` bits (codes 01, 100, 101 of R307). -/
def Decomp.backRefHeader (d : Decomp) (count bits : Nat) : Except DecompressFailure (Token × Decomp) :=
  match d.getBits bits with
  | .error e => .error e
  | .ok (offset, d) => .ok (.backRef count offset, d)

/-- A literal header whose count field has `bits` bits and is counted from `base` (codes 00 and 111 of R307). -/
def Decomp.literalHeader (d : Decomp) (bits base : Nat) : Except DecompressFailure (Token × Decomp) :=
  match d.getBits bits with
  | .error e => .error e
  | .ok (v, d) => .ok (.literal (v + base), d)

/-- The code and the header fields of one iteration (R307). Every bit sequence decodes (R313). -/
def Decomp.readToken (d : Decomp) : Except DecompressFailure (Token × Decomp) :=
  match d.getBit with
  | .error e => .error e
  | .ok (false, d) =>
    match d.getBit with
    | .error e => .error e
    | .ok (false, d) => d.literalHeader 3 1
    | .ok (true, d) => d.backRefHeader 2 8
  | .ok (true, d) =>
    match d.getBits 2 with
    | .error e => .error e
    | .ok (0, d) => d.backRefHeader 3 9
    | .ok (1, d) => d.backRefHeader 4 10
    | .ok (2, d) =>
      match d.getBits 8 with
      | .error e => .error e
      | .ok (c, d) => d.backRefHeader (c + 1) 12
    | .ok (_, d) => d.literalHeader 8 9

/-- `Literal` or `BackRef`: `rem` drops by the count before the first byte is written (R308 to R310). -/
def Decomp.runToken (d : Decomp) : Token → Except DecompressFailure Decomp
  | .literal count => Decomp.literalBytes count { d with rem := d.rem - count }
  | .backRef count offset => Decomp.backRefBytes offset count { d with rem := d.rem - count }

/-- One iteration of the decode loop (R307). -/
def Decomp.iterate (d : Decomp) : Except DecompressFailure Decomp :=
  match d.readToken with
  | .error e => .error e
  | .ok (token, d) => d.runToken token

/-- The result after the loop (R311): the checksum is checked only here. -/
def Decomp.result (d : Decomp) : HostResult :=
  if d.crc ≠ 0 then .unpackFailed .checksumError else .unpacked d.buf.toBytes

/-- The call returns: the block is idle again and the decompressor's state is gone (R36, R316). -/
def State.endUnpack (s : State) (r : HostResult) : State := { s with phase := .idle, results := s.results ++ [r] }

/-- One step of a running call (R307, R310, R311): an iteration while `rem > 0`, then the result. A failure ends the
call only; the interpreter's state is untouched (R360). -/
def State.unpackStep (s : State) (d : Decomp) : State :=
  if d.rem > 0 then
    match d.iterate with
    | .ok d => { s with phase := .unpack d }
    | .error e => s.endUnpack (.unpackFailed e)
  else s.endUnpack d.result

/-- `decompress(B, packedSize, unpackedSize)` is called (R300 to R303). -/
def State.beginUnpack (s : State) (bytes : List Byte) (packedSize unpackedSize : Nat) : State :=
  match Decomp.start bytes packedSize unpackedSize with
  | .ok d => { s with phase := .unpack d }
  | .error e => s.endUnpack (.unpackFailed e)

end Sys2Proof.Machine
end

