-- ==== Sys2Proof/Machine/Scheduler.lean ====
section
/-! DEFINITION. The scheduling pass: input copy, dispatch pass, execution pass, deadline (40_scheduler.md). -/

namespace Sys2Proof.Machine

/-- The lifecycle states of a thread (R27). -/
inductive Lifecycle where
  | halted
  | paused
  | runnable
deriving DecidableEq, Repr

/-- A thread's lifecycle state as a function of its TCB (R27). -/
def Tcb.lifecycle (c : Tcb) : Lifecycle :=
  if c.currentPc = 0xFFFF then .halted else if c.currentState ≠ 0 then .paused else .runnable

/-- Register writes one after another. -/
def writeRegs : List (Byte × Word) → RegBank → RegBank
  | [], x => x
  | (i, v) :: ws, x => writeRegs ws (x.set i.toNat v i.isLt)

/-- The writes that a table gives a snapshot: its first row for it, none if it has no row. -/
def tableWrites (input : Snapshot) : List (Snapshot × List (Byte × Word)) → List (Byte × Word)
  | [] => []
  | (i, ws) :: rows => if i = input then ws else tableWrites input rows

/-- `INPUT_MAP(input, x)` (R131). -/
def applyInputMap (m : Config.InputMap) (input : Snapshot) (x : RegBank) : RegBank :=
  match m with
  | .table rows => writeRegs (tableWrites input rows) x
  | .uninterpreted n => Config.inputMap n input x

/-- The bank with the reserved registers taken from the mapped one: `INPUT_MAP` may write no other (R22, R131). -/
def copyReserved (mapped : RegBank) : List Byte → RegBank → RegBank
  | [], x => x
  | i :: is, x => copyReserved mapped is (x.set i.toNat (mapped[i.toNat]'(i.isLt)) i.isLt)

/-- Step 1, the input copy (R131): `x <- INPUT_MAP(input, x)`, on reserved registers only. -/
def inputCopy (p : Config.Params) (input : Snapshot) (x : RegBank) : RegBank :=
  copyReserved (applyInputMap p.inputMap input x) p.reserved x

/-- `dispatch(t)` on one TCB (R132). -/
def Tcb.dispatch (c : Tcb) : Tcb :=
  let c := { c with currentState := c.requestedState }
  if c.requestedPc ≠ 0xFFFF then
    { c with
      currentPc := if c.requestedPc = 0xFFFE then 0xFFFF else c.requestedPc
      requestedPc := 0xFFFF }
  else c

/-- The record of the fault that `run` raises with no segment installed (R130, R352): no thread, no opcode (log 12). -/
def noSegmentRecord : FaultRecord where
  cause := .noSegment
  thread := none
  offset := none
  opcode := none

/-- Steps 1 and 2 of `run(input, now)` (R130 to R132); the execution pass then starts at thread 0. -/
def State.beginPass (s : State) (input : Snapshot) (now : Nat) : State :=
  match s.segment with
  | none => s.takeFault noSegmentRecord
  | some _ =>
    { s with
      regs := inputCopy s.params input s.regs
      tcbs := s.tcbs.map Tcb.dispatch
      phase := .scan 0
      passNow := now
      passMark := s.events.length }

/-- Slice start for thread `t` (R135). -/
def State.beginSlice (s : State) (t : Fin 64) : State :=
  { s.modifyTcb t (fun c => { c with yield := false }) with
    cur := t
    pc := (s.tcb t).currentPc
    sp := if s.params.stackSliceReset then 0 else s.sp
    phase := .slice }

/-- `deadline(now)` (R143): strictly later than `now`, the register read unsigned. -/
def deadline (now : Nat) (pauseSlices : Word) (quantum : Nat) : Nat := now + max 1 (pauseSlices.toNat * quantum)

/-- Step 4 and the return of `run` (R143, R130): the deadline and the events of the pass. -/
def State.endPass (s : State) : State :=
  { s with
    phase := .idle
    results := s.results ++ [.pass (deadline s.passNow (s.reg s.params.idxPauseSlices) s.params.quantum.val) (s.events.drop s.passMark)] }

/-- The execution pass reaches thread `t` (R133, R134): skipped unless runnable; after thread 63 the pass ends. -/
def State.scanThread (s : State) (t : Nat) : State :=
  if h : t < 64 then
    if (s.tcb ⟨t, h⟩).lifecycle = .runnable then s.beginSlice ⟨t, h⟩ else { s with phase := .scan (t + 1) }
  else s.endPass

end Sys2Proof.Machine
end

