-- ==== Sys2Proof/Machine/HostCalls.lean ====
section
/-! DEFINITION. The host calls (70_reset_and_hazards.md R380 to R386), made only while the block is idle (20_memory.md R78). -/

namespace Sys2Proof.Machine

/-- `setByteCode(segment)` (R380, R381): the segment is replaced and every piece of state goes to its reset value. The
event output is not part of the reset. DESIGN CHOICE, unsafe: the state R380 leaves unspecified goes to the values that
State.reset has (log 3). -/
def State.setByteCode (s : State) (bytes : List Byte) : State :=
  { s with
    segment := some (Memory.ofBytes bytes)
    regs := s.params.regReset
    tcbs := TcbBank.reset
    stack := Vector.replicate 256 0
    sp := 0
    pc := 0
    cur := 0 }

/-- One host call of an idle block (log 13). -/
def hostCall (c : HostCall) (s : State) : Result :=
  match c with
  | .setByteCode bytes => if bytes.length ≤ 65536 then .next (s.setByteCode bytes) else .refused (.segmentTooLong bytes.length)
  | .run input now => .next (s.beginPass input now)
  | .getRegister i =>
    if s.segment.isSome then .next { s with results := s.results ++ [.register i (s.reg i)] }
    else .refused .registersBeforeInstall
  | .setRegister i v => if s.segment.isSome then .next (s.setReg i v) else .refused .registersBeforeInstall
  | .setMusicMark v =>
    if s.segment.isSome then .next (s.setReg s.params.idxMusicMark v) else .refused .registersBeforeInstall
  | .decompress bytes packedSize unpackedSize => .next (s.beginUnpack bytes packedSize unpackedSize)

/-- An idle block waits for the host (R372); the oldest call to come is made. -/
def hostStep (s : State) : Result :=
  match s.hostQueue with
  | [] => .next s
  | c :: cs => hostCall c { s with hostQueue := cs }

/-- The state with host calls added after those already to come. -/
def State.withHostCalls (s : State) (cs : List HostCall) : State := { s with hostQueue := s.hostQueue ++ cs }

end Sys2Proof.Machine
end

