-- ==== Sys2Proof/Machine/Step.lean ====
section
/-! DEFINITION. One step of the block (log 8): a host call, a thread looked at, an opcode, or an iteration of the decompressor. -/

namespace Sys2Proof.Machine

/-- One step. A faulted block is stopped for good (R350, R366). -/
def step (s : State) : Host.Outcome State Fault Refusal :=
  match s.fault with
  | some record => .fault (.stopped record)
  | none =>
    match s.phase with
    | .idle => hostStep s
    | .scan t => .next (s.scanThread t)
    | .slice =>
      match fetchInstr s with
      | .ok (i, t) => endOpcodeResult (exec i t)
      | .error t => .next t
    | .unpack d => .next (s.unpackStep d)

/-- The state in which the next step fetches and runs the instruction whose bits are `w` (spec/opcode_table.json's
numbering): its bytes stand in the segment at the cursor, followed by zero bytes up to the longest instruction, and the
slice of thread `cur` is running (log 7). -/
def State.withFetchWord (s : State) (nbits w : Nat) : State :=
  { s with
    segment := some (s.withBytesAtCursor (tableBytes nbits w))
    phase := .slice
    fault := none }

end Sys2Proof.Machine
end

