-- ==== Sys2Proof/Safety.lean ====
section
/-! DEFINITION. The terms that statements use: what a step leaves unchanged, the invariant of a running block, runs of instructions and of steps. -/

namespace Sys2Proof.Machine

/-! ## Frames -/

/-- Every byte of the segment reads as before. -/
def SameSegment (s t : State) : Prop := ∀ o, t.segByte o = s.segByte o

/-- Nothing but register `d` differs. -/
def OnlyRegister (d : Byte) (s t : State) : Prop :=
  (∀ j, j ≠ d → t.reg j = s.reg j) ∧ t = { s with regs := t.regs } ∧ SameSegment s t

/-- Nothing but the cursor differs. -/
def OnlyCursor (s t : State) : Prop :=
  (∀ j, t.reg j = s.reg j) ∧ t = { s with pc := t.pc } ∧ SameSegment s t

/-- Nothing but the event output differs, and it is longer by `e`. -/
def OnlyEvent (e : Event) (s t : State) : Prop :=
  t.events = s.events ++ [e] ∧ (∀ j, t.reg j = s.reg j) ∧ t = { s with events := t.events } ∧ SameSegment s t

/-- Nothing but thread control blocks differs. -/
def OnlyTcbs (s t : State) : Prop :=
  (∀ j, t.reg j = s.reg j) ∧ t = { s with tcbs := t.tcbs } ∧ SameSegment s t

/-- `t` is the state after an opcode of state `s` raised `cause`: the fault state holds the record of R352, the pass has
ended, and what no fault touches stands. -/
def FaultedBy (cause : FaultCause) (s t : State) : Prop :=
  t.fault = some { cause := cause, thread := some s.cur, offset := some s.opStart, opcode := some (s.tcb s.cur).opcode } ∧
    t.phase = .idle ∧ t.params = s.params ∧ t.results = s.results ∧ SameSegment s t

/-! ## Bytes and words -/

/-- The four bytes at `o` and on are the big-endian bytes of `w` (R72, R73). -/
def BigEndianAt (byte : Nat → Option Byte) (o : Nat) (w : DWord) : Prop :=
  ∃ b0 b1 b2 b3, byte o = some b0 ∧ byte (o + 1) = some b1 ∧ byte (o + 2) = some b2 ∧ byte (o + 3) = some b3 ∧
    w.toNat = b0.toNat * 2 ^ 24 + b1.toNat * 2 ^ 16 + b2.toNat * 2 ^ 8 + b3.toNat

/-! ## Instructions one after another, and steps one after another -/

/-- The outcome of executing instructions one after another, stopping at the first fault state or stop. -/
def execAll : List Instr → State → Result
  | [], s => .next s
  | i :: is, s =>
    match exec i s with
    | .next t => if t.fault.isSome then .next t else execAll is t
    | .fault f => .fault f
    | .refused r => .refused r

/-- `n` steps. -/
def stepN : Nat → State → Result
  | 0, s => .next s
  | n + 1, s =>
    match step s with
    | .next t => stepN n t
    | .fault f => .fault f
    | .refused r => .refused r

/-! ## The invariant of a block that has not faulted -/

/-- A state field of a thread control block holds 0 or 1 (R25). -/
def Tcb.legalStates (c : Tcb) : Prop :=
  (c.currentState = 0 ∨ c.currentState = 1) ∧ (c.requestedState = 0 ∨ c.requestedState = 1)

/-- The state of a running decompression: the buffer in its canonical form, the output inside it, and `dst` always one
below the bytes still to write (R302, R310). -/
structure Decomp.Good (d : Decomp) : Prop where
  bufWf : d.buf.wf = true
  fits : d.unpacked ≤ d.buf.len
  cursor : d.dst = d.rem - 1
  remPos : 0 ≤ d.rem
  remLe : d.rem ≤ d.unpacked

/-- A pass is in progress. -/
def Phase.inPass : Phase → Bool
  | .scan _ | .slice => true
  | .idle | .unpack _ => false

/-- What holds at every point of a block that has not faulted. -/
structure State.Good (s : State) : Prop where
  /-- The segment is in its canonical form and has at most 65536 bytes (R31). -/
  segment : ∀ m, s.segment = some m → m.wf = true ∧ m.len ≤ 65536
  /-- The state fields of every thread hold 0 or 1 (R25). -/
  states : ∀ t, (s.tcb t).legalStates
  /-- During a pass a segment is installed (R130), and the pass's events are the tail of the output. -/
  pass : s.phase.inPass = true → s.segment.isSome = true ∧ s.passMark ≤ s.events.length
  /-- During a slice the current thread is not paused, has not yielded, and its `current_pc` is the cursor (R134, R135,
  R137, R138). -/
  slice : s.phase = .slice →
    (s.tcb s.cur).currentPc = s.pc ∧ (s.tcb s.cur).currentState = 0 ∧ (s.tcb s.cur).yield = false
  /-- During a decompression its state is good. -/
  unpack : ∀ d, s.phase = .unpack d → d.Good

/-- The invariant: what holds at every point until the block faults; after a fault the state is unspecified (R350). -/
def State.Inv (s : State) : Prop := s.fault = none → s.Good

end Sys2Proof.Machine
end

