-- ==== Sys2Proof/Certificates/Slice0/Obligations.lean ====
section
/-! DEFINITION. The statements for the provers. Each docstring names the rule of spec/ that it formalises. -/

open Sys2Proof Sys2Proof.Machine

/-! ## Encoding -/

/-- Words written out from the layouts of R93 to R98 (the bytes of the examples of R160, R192, R220, R258, R282, R283 and
the invalid band of R100) decode to the instructions they stand for. -/
def Obligations.SampleWordsDecode : Prop :=
  decode [0x00, 0x0A, 0x12, 0x34] = .ok (.movi 0x0A 0x1234, []) ∧
  decode [0x0A, 0x82, 0x01, 0x02, 0x00, 0x16] = .ok (.cjmp 0x82 0x01 (.reg 0x02) 0x0016, []) ∧
  decode [0x0A, 0x41, 0x0B, 0x23, 0x10, 0x00, 0x33] = .ok (.cjmp 0x41 0x0B (.imm16 0x2310) 0x0033, []) ∧
  decode [0x08, 0x01, 0x00, 0x0C] = .ok (.init 0x01 0x000C, []) ∧
  decode [0x12, 0x00, 0x10, 0x05, 0x09, 0x0F] = .ok (.print 0x0010 0x05 0x09 0x0F, []) ∧
  decode [0x81, 0x23, 0x10, 0xCB] = .ok (.poly80 0x01 0x23 0x10 0xCB, []) ∧
  decode [0x5E, 0x01, 0x00, 0x20, 0x30, 0x80] = .ok (.poly40 0x1E 0x01 0x00 (.reg 0x20) (.byte 0x30) (.byte 0x80), []) ∧
  decode [0x1B] = .ok (.invalid1B, []) ∧
  decode [0x1F] = .ok (.invalid1C 0x3, []) ∧
  decode [0x3F] = .ok (.invalid20 0x1F, [])

/-- Decoding the bytes of a well-formed instruction gives it back, whatever follows them (R93 to R98). -/
def Obligations.DecodeInvertsEncode : Prop :=
  ∀ (i : Instr) (rest : List Byte), i.wellFormed = true → decode (encode i ++ rest) = .ok (i, rest)

/-- What the decoder reads is well-formed and the bytes it took are its encoding: every byte sequence has one meaning
(R91 to R98). -/
def Obligations.EncodeInvertsDecode : Prop :=
  ∀ (bs : List Byte) (i : Instr) (rest : List Byte), decode bs = .ok (i, rest) →
    i.wellFormed = true ∧ encode i ++ rest = bs

/-- Decoding is total over the opcode byte, in the order bit 7, bit 6, the map, the invalid band (R91, R100). -/
def Obligations.OpcodeByteSelectsInstruction : Prop :=
  ∀ (op : Byte) (bs : List Byte), 7 ≤ bs.length → ∃ i rest, decode (op :: bs) = .ok (i, rest) ∧
    i.opcodeByte = op ∧
    (op.getLsbD 7 = true ↔ ∃ h lo x y, i = .poly80 h lo x y) ∧
    (op.getLsbD 7 = false ∧ op.getLsbD 6 = true ↔ ∃ m hi lo x y z, i = .poly40 m hi lo x y z) ∧
    (0x1B ≤ op.toNat ∧ op.toNat ≤ 0x3F ↔ i = .invalid1B ∨ (∃ l, i = .invalid1C l) ∨ ∃ l, i = .invalid20 l)

/-- The decoder takes as many bytes as the opcode map gives the instruction, 1 to 8 (R90, R93, R95). -/
def Obligations.DecodeTakesByteLength : Prop :=
  ∀ (bs : List Byte) (i : Instr) (rest : List Byte), decode bs = .ok (i, rest) →
    bs.length = rest.length + i.byteLength ∧ 1 ≤ i.byteLength ∧ i.byteLength ≤ 8

/-- The length of `poly40` by its mode bits, from 5 to 8 bytes (R99). -/
def Obligations.PolyFortyLength : Prop :=
  ∀ (bs rest : List Byte) (m : BitVec 6) (hi lo : Byte) (x : XField) (y : YField) (z : ZoomField),
    decode bs = .ok (.poly40 m hi lo x y z, rest) →
    bs.length = rest.length + (3 + (if m.extractLsb' 4 2 = 0 then 2 else 1) + (if m.extractLsb' 2 2 = 0 then 2 else 1)
      + (if m.extractLsb' 0 2 = 1 ∨ m.extractLsb' 0 2 = 2 then 1 else 0)) ∧
    rest.length + 5 ≤ bs.length ∧ bs.length ≤ rest.length + 8

/-! ## Fetching and the step -/

/-- `MemRead` is big-endian with offsets modulo 65536, and the three fetches advance the cursor modulo 65536 (R62, R64). -/
def Obligations.CursorFetchesBigEndian : Prop :=
  ∀ (s : State),
    (∀ a b0, s.segByte a = some b0 → s.memRead a 1 = .ok b0.toNat) ∧
    (∀ a b0 b1, s.segByte a = some b0 → s.segByte (a + 1) = some b1 →
      s.memRead a 2 = .ok (b0.toNat * 2 ^ 8 + b1.toNat)) ∧
    (∀ a b0 b1 b2 b3, s.segByte a = some b0 → s.segByte (a + 1) = some b1 → s.segByte (a + 2) = some b2 →
      s.segByte (a + 3) = some b3 →
      s.memRead a 4 = .ok (b0.toNat * 2 ^ 24 + b1.toNat * 2 ^ 16 + b2.toNat * 2 ^ 8 + b3.toNat)) ∧
    (∀ v, s.memRead s.pc 1 = .ok v → s.fetch8 = .ok (BitVec.ofNat 8 v, { s with pc := s.pc + 1 })) ∧
    (∀ v, s.memRead s.pc 2 = .ok v → s.fetch16 = .ok (BitVec.ofNat 16 v, { s with pc := s.pc + 2 })) ∧
    (∀ v, s.memRead s.pc 4 = .ok v → s.fetch32 = .ok (BitVec.ofNat 32 v, { s with pc := s.pc + 4 }))

/-- A read that touches an offset at or above `SEG_LEN` answers the first such offset, byte by byte (R63, R76). -/
def Obligations.ReadPastSegmentNamesFirstOffset : Prop :=
  ∀ (s : State) (a : Word) (n k : Nat), k < n → (∀ j, j < k → (s.segByte (a + BitVec.ofNat 16 j)).isSome = true) →
    s.segLen ≤ (a + BitVec.ofNat 16 k).toNat → s.memRead a n = .error (a + BitVec.ofNat 16 k)

/-- The window at the cursor decodes to `i` iff `i` is well-formed and the segment's bytes from the cursor on are its
encoding. Then a step of a running slice executes exactly `i`; afterwards, unless it faulted, `T[cur].current_pc` is the
cursor and the slice ends if `T[cur].yield` is set (R136 to R138). The state that `i` executes in, with the cursor after
all its bytes and its opcode byte in `T[cur].opcode`, is the model's reading (log 11), as is the opcode as one step
(log 8). -/
def Obligations.StepRunsDecodedInstruction : Prop :=
  ∀ (s : State) (i : Instr), s.fault = none → s.phase = .slice →
    ((∃ rest, decode s.window = .ok (i, rest)) ↔
      i.wellFormed = true ∧ ∀ j, j < i.byteLength → s.segByte (s.pc + BitVec.ofNat 16 j) = (encode i)[j]?) ∧
    ∀ rest, decode s.window = .ok (i, rest) →
      ∃ u t, u.pc = s.pc + BitVec.ofNat 16 i.byteLength ∧ u.opStart = s.pc ∧
        (∀ k, u.tcb k = if k = s.cur then { s.tcb k with opcode := i.opcodeByte } else s.tcb k) ∧
        u = { s with pc := u.pc, opStart := u.opStart, tcbs := u.tcbs } ∧
        exec i u = .next t ∧ step s = .next t.endOpcode ∧
        (t.fault.isSome = true → t.endOpcode = t) ∧
        (t.fault = none →
          (∀ k, t.endOpcode.tcb k = if k = t.cur then { t.tcb k with currentPc := t.pc } else t.tcb k) ∧
          t.endOpcode.phase = (if (t.tcb t.cur).yield = true then .scan (t.cur.val + 1) else t.phase) ∧
          t.endOpcode = { t with tcbs := t.endOpcode.tcbs, phase := t.endOpcode.phase })

/-- When a byte of the instruction at the cursor does not exist, the step takes the fetch fault: the record names the
first missing offset, the thread, the opcode's offset, and its byte if it was there (R63, R351, R352). That every byte is
looked at before any effect is the model's reading (log 11). -/
def Obligations.StepFaultsOnMissingByte : Prop :=
  ∀ (s : State) (e : DecodeError), s.fault = none → s.phase = .slice → decode s.window = .error e →
    ∃ k t, k < 8 ∧ (∀ j, j < k → (s.segByte (s.pc + BitVec.ofNat 16 j)).isSome = true) ∧
      s.segByte (s.pc + BitVec.ofNat 16 k) = none ∧ step s = .next t ∧ t.phase = .idle ∧ t.results = s.results ∧
      t.fault = some { cause := .fetchOutOfSegment (s.pc + BitVec.ofNat 16 k), thread := some s.cur, offset := some s.pc,
                       opcode := s.segByte s.pc }

/-! ## Data move, arithmetic and bitwise instructions -/

/-- `movi` and `movr` write the destination and nothing else (R160, R161). -/
def Obligations.MoveWritesDestination : Prop :=
  ∀ (d src : Byte) (n : Word) (s : State),
    (∃ t, exec (.movi d n) s = .next t ∧ t.reg d = n ∧ OnlyRegister d s t) ∧
    (∃ t, exec (.movr d src) s = .next t ∧ t.reg d = s.reg src ∧ OnlyRegister d s t)

/-- `addi`, `addr` and `subr` are modulo 65536, the same result read as unsigned or as signed, and write nothing but the
destination (R162, R163, R164, R169). -/
def Obligations.AddAndSubtractWrap : Prop :=
  ∀ (d src : Byte) (n : Word) (s : State),
    (∃ t, exec (.addi d n) s = .next t ∧ (t.reg d).toNat = ((s.reg d).toNat + n.toNat) % 65536 ∧
      (t.reg d).toInt = ((s.reg d).toInt + n.toInt).bmod 65536 ∧ OnlyRegister d s t) ∧
    (∃ t, exec (.addr d src) s = .next t ∧ (t.reg d).toNat = ((s.reg d).toNat + (s.reg src).toNat) % 65536 ∧
      (t.reg d).toInt = ((s.reg d).toInt + (s.reg src).toInt).bmod 65536 ∧ OnlyRegister d s t) ∧
    (∃ t, exec (.subr d src) s = .next t ∧
      (t.reg d).toNat = ((s.reg d).toNat + (65536 - (s.reg src).toNat)) % 65536 ∧
      (t.reg d).toInt = ((s.reg d).toInt - (s.reg src).toInt).bmod 65536 ∧ OnlyRegister d s t)

/-- `andi` and `iori` act on each of the 16 bits and write nothing but the destination (R165, R166). -/
def Obligations.BitwiseImmediatesActOnEachBit : Prop :=
  ∀ (d : Byte) (n : Word) (s : State),
    (∃ t, exec (.andi d n) s = .next t ∧ (∀ k, (t.reg d).getLsbD k = ((s.reg d).getLsbD k && n.getLsbD k)) ∧
      OnlyRegister d s t) ∧
    (∃ t, exec (.iori d n) s = .next t ∧ (∀ k, (t.reg d).getLsbD k = ((s.reg d).getLsbD k || n.getLsbD k)) ∧
      OnlyRegister d s t)

/-- `shli` and `shri` are logical shifts by the unmasked count, so that a count of 16 or more gives 0, and write nothing
but the destination (R167, R168). -/
def Obligations.ShiftsAreLogicalAndUnmasked : Prop :=
  ∀ (d : Byte) (n : Word) (s : State),
    (∃ t, exec (.shli d n) s = .next t ∧
      (∀ k, k < 16 → (t.reg d).getLsbD k = (decide (n.toNat ≤ k) && (s.reg d).getLsbD (k - n.toNat))) ∧
      (16 ≤ n.toNat → t.reg d = 0) ∧ OnlyRegister d s t) ∧
    (∃ t, exec (.shri d n) s = .next t ∧
      (∀ k, k < 16 → (t.reg d).getLsbD k = (decide (k + n.toNat < 16) && (s.reg d).getLsbD (k + n.toNat))) ∧
      (16 ≤ n.toNat → t.reg d = 0) ∧ OnlyRegister d s t)

/-- An instruction that is neither one of the nine of 41_data_arith.md nor `djnz` leaves every register as it was: the
rules of the others write none (R191, R192, R196, R197, R220, R222, R224, R226, R253 to R261, R282, R283). -/
def Obligations.OnlyDataInstructionsAndDjnzWriteRegisters : Prop :=
  ∀ (i : Instr) (s t : State), exec i s = .next t → t.fault = none →
    (match i with
      | .movi _ _ | .movr _ _ | .addi _ _ | .addr _ _ | .subr _ _ | .andi _ _ | .iori _ _ | .shli _ _ | .shri _ _
      | .djnz _ _ => False
      | _ => True) →
    ∀ j, t.reg j = s.reg j

/-! ## Control-transfer instructions -/

/-- `jump` sets the cursor and nothing else, whatever the target (R190, R191). -/
def Obligations.JumpSetsCursor : Prop :=
  ∀ (tgt : Word) (s : State), ∃ t, exec (.jump tgt) s = .next t ∧ t.pc = tgt ∧ OnlyCursor s t

/-- `cjmp` compares the left register with the right operand, both as signed integers, the 8-bit immediate zero-extended;
it jumps iff the comparison of its code holds, changes nothing but the cursor, and the codes 6 and 7 fault (R193, R194). -/
def Obligations.CjmpComparesSigned : Prop :=
  ∀ (v r : Byte) (rhs : CmpOperand) (tgt : Word) (s : State) (a b : Int),
    b = (s.reg r).toInt →
    a = (match rhs with
      | .reg j => (s.reg j).toInt
      | .imm16 n => n.toInt
      | .imm8 n => (n.toNat : Int)) →
    (v.toNat % 8 < 6 → ∃ t, exec (.cjmp v r rhs tgt) s = .next t ∧ OnlyCursor s t ∧
      (v.toNat % 8 = 0 → t.pc = if b = a then tgt else s.pc) ∧
      (v.toNat % 8 = 1 → t.pc = if b ≠ a then tgt else s.pc) ∧
      (v.toNat % 8 = 2 → t.pc = if b > a then tgt else s.pc) ∧
      (v.toNat % 8 = 3 → t.pc = if b ≥ a then tgt else s.pc) ∧
      (v.toNat % 8 = 4 → t.pc = if b < a then tgt else s.pc) ∧
      (v.toNat % 8 = 5 → t.pc = if b ≤ a then tgt else s.pc)) ∧
    (6 ≤ v.toNat % 8 → ∃ t, exec (.cjmp v r rhs tgt) s = .next t ∧
      FaultedBy (.badCondition (BitVec.ofNat 3 (v.toNat % 8))) s t)

/-- `djnz` decrements modulo 65536 and jumps iff the decremented register is not 0; nothing else changes (R195). -/
def Obligations.DjnzDecrementsThenTests : Prop :=
  ∀ (r : Byte) (tgt : Word) (s : State), ∃ t, exec (.djnz r tgt) s = .next t ∧
    (t.reg r).toNat = ((s.reg r).toNat + 65535) % 65536 ∧
    t.pc = (if (s.reg r).toNat = 1 then s.pc else tgt) ∧
    (∀ j, j ≠ r → t.reg j = s.reg j) ∧ t = { s with regs := t.regs, pc := t.pc } ∧ SameSegment s t

/-- `call` pushes the cursor, which stands after the instruction, and jumps; with `sp = 256` it faults (R28, R196). -/
def Obligations.CallPushesReturnOffset : Prop :=
  ∀ (tgt : Word) (s : State),
    (s.sp.val < 256 → ∃ t, exec (.call tgt) s = .next t ∧ t.pc = tgt ∧ t.sp.val = s.sp.val + 1 ∧
      t.stack[s.sp.val]? = some s.pc ∧ (∀ k, k ≠ s.sp.val → t.stack[k]? = s.stack[k]?) ∧
      (∀ j, t.reg j = s.reg j) ∧ t = { s with pc := t.pc, sp := t.sp, stack := t.stack } ∧ SameSegment s t) ∧
    (s.sp.val = 256 → ∃ t, exec (.call tgt) s = .next t ∧ FaultedBy .stackOverflow s t)

/-- `ret` pops the cursor; with `sp = 0` it faults (R28, R197). -/
def Obligations.RetPopsCursor : Prop :=
  ∀ (s : State),
    (0 < s.sp.val → ∃ t, exec .ret s = .next t ∧ s.stack[s.sp.val - 1]? = some t.pc ∧ t.sp.val = s.sp.val - 1 ∧
      (∀ j, t.reg j = s.reg j) ∧ t = { s with pc := t.pc, sp := t.sp } ∧ SameSegment s t) ∧
    (s.sp.val = 0 → ∃ t, exec .ret s = .next t ∧ FaultedBy .stackUnderflow s t)

/-- After `n` nested calls, `k ≤ n` returns give back the offset pushed `k` calls ago, last in first out; after `n` of
them the cursor and the index are as before (R198). -/
def Obligations.NestedCallsReturnInReverseOrder : Prop :=
  ∀ (targets : List Word) (k : Nat) (s : State), s.fault = none → s.sp.val + targets.length ≤ 256 → k ≤ targets.length →
    ∃ t, execAll (targets.map Instr.call ++ List.replicate k Instr.ret) s = .next t ∧ t.fault = none ∧
      (s.pc :: targets)[targets.length - k]? = some t.pc ∧ t.sp.val = s.sp.val + (targets.length - k) ∧
      (∀ j, t.reg j = s.reg j) ∧ (∀ m, m < s.sp.val → t.stack[m]? = s.stack[m]?)

/-- Nothing but `call` and `ret` reads or writes the call stack: any other instruction that does not fault leaves the
index and the entries as they were, and with another index and other entries it does the same to everything else (R28). -/
def Obligations.OnlyCallAndRetUseStack : Prop :=
  ∀ (i : Instr) (s t : State) (sp : Fin 257) (stack : StackBank), exec i s = .next t → t.fault = none → i ≠ .ret →
    (∀ tgt, i ≠ .call tgt) →
    t.sp = s.sp ∧ t.stack = s.stack ∧
      exec i { s with sp := sp, stack := stack } = .next { t with sp := sp, stack := stack }

/-! ## Thread-control instructions -/

/-- `init` writes one thread's `requested_pc` and nothing else; a thread operand of 64 or more faults (R220). -/
def Obligations.InitRequestsPcChange : Prop :=
  ∀ (t : Byte) (tgt : Word) (s : State),
    (t.toNat < 64 → ∃ u, exec (.init t tgt) s = .next u ∧ OnlyTcbs s u ∧
      ∀ k, u.tcb k = if k.val = t.toNat then { s.tcb k with requestedPc := tgt } else s.tcb k) ∧
    (64 ≤ t.toNat → ∃ u, exec (.init t tgt) s = .next u ∧ FaultedBy (.badThreadId t) s u)

/-- `kill` sets the cursor to 0xFFFF and `T[cur].yield`; `yield` sets `T[cur].yield` only (R222, R224). -/
def Obligations.KillAndYieldSetYieldFlag : Prop :=
  ∀ (s : State),
    (∃ t, exec .kill s = .next t ∧ t.pc = 0xFFFF ∧
      (∀ k, t.tcb k = if k = s.cur then { s.tcb k with yield := true } else s.tcb k) ∧
      (∀ j, t.reg j = s.reg j) ∧ t = { s with pc := t.pc, tcbs := t.tcbs } ∧ SameSegment s t) ∧
    (∃ t, exec .yield s = .next t ∧ OnlyTcbs s t ∧
      ∀ k, t.tcb k = if k = s.cur then { s.tcb k with yield := true } else s.tcb k)

/-- `reset` writes 0xFFFE to `requested_pc` (state 2) or the state to `requested_state` (states 0, 1) of every thread of
its range and nothing else; a bad range faults before a bad state does (R226, R364). -/
def Obligations.ResetActsOnThreadRange : Prop :=
  ∀ (first last state : Byte) (s : State),
    (first.toNat < 64 → last.toNat < 64 → first.toNat ≤ last.toNat → state.toNat < 3 →
      ∃ t, exec (.reset first last state) s = .next t ∧ OnlyTcbs s t ∧
        ∀ k, t.tcb k =
          if first.toNat ≤ k.val ∧ k.val ≤ last.toNat then
            if state.toNat = 2 then { s.tcb k with requestedPc := 0xFFFE } else { s.tcb k with requestedState := state }
          else s.tcb k) ∧
    (64 ≤ first.toNat ∨ 64 ≤ last.toNat ∨ last.toNat < first.toNat →
      ∃ t, exec (.reset first last state) s = .next t ∧ FaultedBy (.badThreadRange first last) s t) ∧
    (first.toNat < 64 → last.toNat < 64 → first.toNat ≤ last.toNat → 3 ≤ state.toNat →
      ∃ t, exec (.reset first last state) s = .next t ∧ FaultedBy (.badThreadState state) s t)

/-- `init` and `reset` are the only instructions that write `requested_pc` or `requested_state` of any thread (R228). -/
def Obligations.OnlyInitAndResetWriteRequests : Prop :=
  ∀ (i : Instr) (s t : State), exec i s = .next t → t.fault = none → (∀ a b, i ≠ .init a b) → (∀ a b c, i ≠ .reset a b c) →
    ∀ k, (t.tcb k).requestedPc = (s.tcb k).requestedPc ∧ (t.tcb k).requestedState = (s.tcb k).requestedState

/-- An opcode changes no thread's `current_state` and no other thread's `current_pc`; the executing thread's own
`current_pc` follows the cursor (R24, R137). -/
def Obligations.OpcodeMovesOnlyOwnCurrentPc : Prop :=
  ∀ (s t : State), s.phase = .slice → step s = .next t → t.fault = none →
    (∀ k, (t.tcb k).currentState = (s.tcb k).currentState) ∧ t.cur = s.cur ∧
    (∀ k, k ≠ s.cur → (t.tcb k).currentPc = (s.tcb k).currentPc) ∧ (t.tcb s.cur).currentPc = t.pc

/-! ## Engine calls and polygon draws -/

/-- Each engine call appends exactly its event, with the operands its rule lists, and changes nothing else; `copy` reads
the scroll register as signed, `palette` passes its high byte (R253 to R261). -/
def Obligations.EngineCallsEmitOneEvent : Prop :=
  ∀ (w w' : Word) (a b c : Byte) (s : State),
    (∃ t, exec (.palette w) s = .next t ∧ OnlyEvent (.selectPalette (BitVec.ofNat 8 (w.toNat / 256))) s t) ∧
    (∃ t, exec (.page a) s = .next t ∧ OnlyEvent (.selectPage a) s t) ∧
    (∃ t, exec (.fill a b) s = .next t ∧ OnlyEvent (.fillPage a b) s t) ∧
    (∃ t, exec (.copy a b) s = .next t ∧ OnlyEvent (.copyPage a b (s.reg s.params.idxScrollY).toInt) s t) ∧
    (∃ t, exec (.blit a) s = .next t ∧ OnlyEvent (.blitPage a) s t) ∧
    (∃ t, exec (.print w a b c) s = .next t ∧ OnlyEvent (.drawString w a b c) s t) ∧
    (∃ t, exec (.sound w a b c) s = .next t ∧ OnlyEvent (.playSound w a b c) s t) ∧
    (∃ t, exec (.music w w' a) s = .next t ∧ OnlyEvent (.playMusic w w' a) s t) ∧
    (∃ t, exec (.loadres w) s = .next t ∧ OnlyEvent (.load w) s t)

/-- `poly80` draws from buffer 0 at offset `op[6:0] : lo : 0` with zoom 64; above 199 the excess of y moves into x; nothing
else changes (R282). -/
def Obligations.PolyEightyDrawsClamped : Prop :=
  ∀ (high : BitVec 7) (lo x y : Byte) (s : State), ∃ t px py, exec (.poly80 high lo x y) s = .next t ∧
    OnlyEvent (.drawPolygon 0 (BitVec.ofNat 16 ((high.toNat * 256 + lo.toNat) * 2)) px py 64) s t ∧
    (y.toNat ≤ 199 → px = (x.toNat : Int) ∧ py = (y.toNat : Int)) ∧
    (199 < y.toNat → px = (x.toNat : Int) + ((y.toNat : Int) - 199) ∧ py = 199) ∧
    px ≤ 311 ∧ py ≤ 199

/-- `poly40` draws with the position, zoom and buffer that its fields give: signed 16-bit immediates and registers for x
and y, bytes (plus 256 for x), the zoom a register's pattern, a byte or 64, buffer 1 only in the last zoom form; nothing
else changes (R283 to R287). -/
def Obligations.PolyFortyDrawsFromFields : Prop :=
  ∀ (m : BitVec 6) (hi lo : Byte) (x : XField) (y : YField) (z : ZoomField) (s : State), ∃ t buf px py zoom,
    exec (.poly40 m hi lo x y z) s = .next t ∧
    OnlyEvent (.drawPolygon buf (BitVec.ofNat 16 ((hi.toNat * 256 + lo.toNat) * 2)) px py zoom) s t ∧
    (px = match x with
      | .imm16 n => n.toInt
      | .reg b => (s.reg b).toInt
      | .byte b => (b.toNat : Int)
      | .bytePlus256 b => (b.toNat : Int) + 256) ∧
    (py = match y with
      | .imm16 n => n.toInt
      | .reg b => (s.reg b).toInt
      | .byte b => (b.toNat : Int)) ∧
    (zoom.toNat = match z with
      | .unscaled => 64
      | .reg b => (s.reg b).toNat
      | .byte b => b.toNat
      | .secondBuffer => 64) ∧
    (buf = 1 ↔ z = .secondBuffer)

/-! ## Faults -/

/-- Each byte of the invalid band raises `Fault(InvalidOpcode)` with that byte (R100, R353). -/
def Obligations.InvalidOpcodesFault : Prop :=
  ∀ (l2 : BitVec 2) (l5 : BitVec 5) (s : State),
    (∃ t, exec .invalid1B s = .next t ∧ FaultedBy (.invalidOpcode 0x1B) s t) ∧
    (∃ t, exec (.invalid1C l2) s = .next t ∧ FaultedBy (.invalidOpcode (BitVec.ofNat 8 (0x1C + l2.toNat))) s t) ∧
    (∃ t, exec (.invalid20 l5) s = .next t ∧ FaultedBy (.invalidOpcode (BitVec.ofNat 8 (0x20 + l5.toNat))) s t)

/-- Every instruction answers a next state (R139), and its fault state is the cause that the table of R351 names for it,
in exactly the cases it names, and none in all others. -/
def Obligations.OpcodeFaultsExactlyAsTabled : Prop :=
  ∀ (i : Instr) (s : State), s.fault = none → ∃ t, exec i s = .next t ∧
    t.fault.map FaultRecord.cause = match i with
      | .call _ => if s.sp.val = 256 then some .stackOverflow else none
      | .ret => if s.sp.val = 0 then some .stackUnderflow else none
      | .init k _ => if 64 ≤ k.toNat then some (.badThreadId k) else none
      | .reset f l st =>
        if 64 ≤ f.toNat ∨ 64 ≤ l.toNat ∨ l.toNat < f.toNat then some (.badThreadRange f l)
        else if 3 ≤ st.toNat then some (.badThreadState st) else none
      | .cjmp v _ _ _ => if 6 ≤ v.toNat % 8 then some (.badCondition (BitVec.ofNat 3 v.toNat)) else none
      | .invalid1B | .invalid1C _ | .invalid20 _ => some (.invalidOpcode i.opcodeByte)
      | _ => none

/-- A faulted block is stopped for good, whatever the host calls (R350, R366). That the stop is an outcome of the step is
the model's choice (log 9, log 13). -/
def Obligations.FaultedBlockStaysFaulted : Prop :=
  ∀ (s : State) (record : FaultRecord) (calls : List HostCall), s.fault = some record →
    step (s.withHostCalls calls) = .fault (.stopped record)

/-! ## The scheduling pass -/

/-- `run` with no segment installed raises `Fault(NoSegment)` (R130). That the record then names no thread, offset or
opcode is the model's choice (log 12). -/
def Obligations.RunWithoutSegmentFaults : Prop :=
  ∀ (s : State) (input : Snapshot) (now : Nat) (calls : List HostCall), s.fault = none → s.phase = .idle →
    s.hostQueue = .run input now :: calls → s.segment = none →
    ∃ t, step s = .next t ∧ t.fault = some { cause := .noSegment, thread := none, offset := none, opcode := none } ∧
      t.phase = .idle ∧ t.results = s.results

/-- The dispatch pass, for every thread whatever its state: `current_state` becomes `requested_state`; a pending
`requested_pc` is applied, 0xFFFE as a halt, and cleared; the execution pass then starts at thread 0 (R132). -/
def Obligations.DispatchAppliesRequests : Prop :=
  ∀ (s : State) (m : Memory) (input : Snapshot) (now : Nat) (calls : List HostCall), s.fault = none → s.phase = .idle →
    s.hostQueue = .run input now :: calls → s.segment = some m →
    ∃ t, step s = .next t ∧ t.phase = .scan 0 ∧ t.passNow = now ∧ t.passMark = s.events.length ∧ t.hostQueue = calls ∧
      (∀ k, t.tcb k = { s.tcb k with
        currentState := (s.tcb k).requestedState
        currentPc := if (s.tcb k).requestedPc = 0xFFFF then (s.tcb k).currentPc
          else if (s.tcb k).requestedPc = 0xFFFE then 0xFFFF else (s.tcb k).requestedPc
        requestedPc := 0xFFFF }) ∧
      t = { s with regs := t.regs, tcbs := t.tcbs, phase := t.phase, passNow := t.passNow, passMark := t.passMark,
                   hostQueue := t.hostQueue } ∧ SameSegment s t

/-- The input copy applies `INPUT_MAP`, a parameter, to the snapshot and the bank, and takes the reserved registers from
the result; where the map writes reserved registers only, the bank becomes its result (R131). After the step the
call is gone from the queue. That the map is plain data, and that a map which writes other registers is cut down to the
reserved ones, is the model's choice (log 5). -/
def Obligations.InputCopyWritesOnlyReserved : Prop :=
  ∀ (s : State) (m : Memory) (input : Snapshot) (now : Nat) (calls : List HostCall) (mapped : RegBank), s.fault = none →
    s.phase = .idle → s.hostQueue = .run input now :: calls → s.segment = some m →
    mapped = applyInputMap s.params.inputMap input s.regs →
    ∃ t, step s = .next t ∧ t.hostQueue = calls ∧
      (∀ j, j ∉ s.params.reserved → t.reg j = s.reg j) ∧
      (∀ j, j ∈ s.params.reserved → t.reg j = mapped[j.toNat]'(j.isLt)) ∧
      ((∀ j : Byte, j ∉ s.params.reserved → mapped[j.toNat]'(j.isLt) = s.reg j) → t.regs = mapped)

/-- The execution pass skips a thread whose `current_pc` is 0xFFFF or whose `current_state` is not 0, and changes nothing
(R134). -/
def Obligations.HaltedAndPausedThreadsAreSkipped : Prop :=
  ∀ (s : State) (k : Fin 64), s.fault = none → s.phase = .scan k.val →
    ((s.tcb k).currentPc = 0xFFFF ∨ (s.tcb k).currentState ≠ 0) → step s = .next { s with phase := .scan (k.val + 1) }

/-- Slice start: `cur`, the cursor, `yield`, and `sp` under `STACK_SLICE_RESET`; nothing else changes (R135). -/
def Obligations.SliceStartSeeksThread : Prop :=
  ∀ (s : State) (k : Fin 64), s.fault = none → s.phase = .scan k.val → (s.tcb k).currentPc ≠ 0xFFFF →
    (s.tcb k).currentState = 0 →
    ∃ t, step s = .next t ∧ t.phase = .slice ∧ t.cur = k ∧ t.pc = (s.tcb k).currentPc ∧
      (s.params.stackSliceReset = true → t.sp = 0) ∧ (s.params.stackSliceReset = false → t.sp = s.sp) ∧
      (∀ j, t.tcb j = if j = k then { s.tcb j with yield := false } else s.tcb j) ∧
      (∀ j, t.reg j = s.reg j) ∧
      t = { s with phase := t.phase, cur := t.cur, pc := t.pc, sp := t.sp, tcbs := t.tcbs } ∧ SameSegment s t

/-- A slice ends only at `yield` or `kill`, and there it always ends; the pass then goes on with the next thread (R138). -/
def Obligations.SliceEndsOnlyAtYieldOrKill : Prop :=
  ∀ (s t : State), s.phase = .slice → (s.tcb s.cur).yield = false → step s = .next t → t.fault = none →
    ∃ i rest, decode s.window = .ok (i, rest) ∧
      ((i = .yield ∨ i = .kill) ∧ t.phase = .scan (s.cur.val + 1) ∨ (i ≠ .yield ∧ i ≠ .kill) ∧ t.phase = .slice)

/-- A thread that is halted when the execution pass has begun, and is not the one running, stays halted and does not run
for the rest of the pass, whatever is requested for it (R141, R390). -/
def Obligations.HaltedThreadNeverStartsWithinPass : Prop :=
  ∀ (s t : State) (k : Fin 64), s.phase.inPass = true → (s.tcb k).currentPc = 0xFFFF → (s.phase = .slice → s.cur ≠ k) →
    step s = .next t → t.fault = none → (t.tcb k).currentPc = 0xFFFF ∧ (t.phase = .slice → t.cur ≠ k)

/-- After thread 63 the pass returns the deadline, `now` plus the pause register times the quantum and at least 1; the
register is read unsigned after the execution pass (R143). It returns with it the events emitted during the pass (R130),
which in the model are those after the mark that the beginning of the pass set (log 16). -/
def Obligations.PassReturnsDeadline : Prop :=
  ∀ (s : State) (k : Nat), s.fault = none → s.phase = .scan k → 64 ≤ k →
    ∃ t d, step s = .next t ∧ t.phase = .idle ∧ t.results = s.results ++ [.pass d (s.events.drop s.passMark)] ∧
      s.passNow < d ∧ d = s.passNow + max 1 ((s.reg s.params.idxPauseSlices).toNat * s.params.quantum.val) ∧
      t = { s with phase := t.phase, results := t.results } ∧ SameSegment s t

/-! ## Host calls and reset -/

/-- What reset leaves: thread 0 at offset 0, all others halted, nothing pending, all running, the stack empty, no segment,
no fault (R23, R29, R31, R34). That the threads and the stack index have these values before the first `setByteCode` too,
where R383 gives them none, is the model's choice (log 17). -/
def Obligations.ResetStateValues : Prop :=
  (∀ k : Fin 64, (State.reset.tcb k).currentPc = (if k = 0 then 0x0000 else 0xFFFF) ∧
    (State.reset.tcb k).requestedPc = 0xFFFF ∧ (State.reset.tcb k).currentState = 0 ∧
    (State.reset.tcb k).requestedState = 0) ∧
  State.reset.sp = 0 ∧ State.reset.segment = none ∧ State.reset.fault = none

/-- `setByteCode` installs the segment and resets registers, threads and stack index to their reset values; the event
output, the parameters and the fault state stand (R380, R381). -/
def Obligations.SetByteCodeInstallsAndResets : Prop :=
  ∀ (s : State) (bytes : List Byte) (calls : List HostCall), s.fault = none → s.phase = .idle →
    s.hostQueue = .setByteCode bytes :: calls → bytes.length ≤ 65536 →
    ∃ t, step s = .next t ∧ t.segLen = bytes.length ∧ (∀ o, t.segByte o = bytes[o.toNat]?) ∧
      (∀ j, t.reg j = s.params.regReset[j.toNat]'(j.isLt)) ∧
      (∀ k, (t.tcb k).currentPc = (if k = 0 then 0x0000 else 0xFFFF) ∧ (t.tcb k).requestedPc = 0xFFFF ∧
        (t.tcb k).currentState = 0 ∧ (t.tcb k).requestedState = 0) ∧
      t.sp = 0 ∧ t.events = s.events ∧ t.fault = none ∧ t.params = s.params ∧ t.results = s.results ∧ t.hostQueue = calls

/-- Between passes the host reads and writes one register, and the `MUSIC_MARK` write is such a write (R384). -/
def Obligations.HostReadsAndWritesRegisters : Prop :=
  ∀ (s : State) (m : Memory) (i : Byte) (v : Word) (calls : List HostCall), s.fault = none → s.phase = .idle →
    s.segment = some m →
    (s.hostQueue = .getRegister i :: calls →
      step s = .next { s with hostQueue := calls, results := s.results ++ [.register i (s.reg i)] }) ∧
    (s.hostQueue = .setRegister i v :: calls → ∃ t, step s = .next t ∧ t.reg i = v ∧
      OnlyRegister i { s with hostQueue := calls } t) ∧
    (s.hostQueue = .setMusicMark v :: calls → ∃ t, step s = .next t ∧ t.reg s.params.idxMusicMark = v ∧
      OnlyRegister s.params.idxMusicMark { s with hostQueue := calls } t)

/-- Before the first `setByteCode` the host's register calls are not legal: they are refused (R383; log 13). -/
def Obligations.RegisterCallsBeforeInstallAreRefused : Prop :=
  ∀ (s : State) (i : Byte) (v : Word) (calls : List HostCall), s.fault = none → s.phase = .idle → s.segment = none →
    s.hostQueue = .getRegister i :: calls ∨ s.hostQueue = .setRegister i v :: calls ∨
      s.hostQueue = .setMusicMark v :: calls → step s = .refused .registersBeforeInstall

/-- A host call is made only between passes and between decompressions: no other step touches the calls to come, and what
earlier calls returned is never lost (R78, R71). The queue of calls and the list of results are the model's (log 6). -/
def Obligations.HostCallsWaitForIdle : Prop :=
  ∀ (s t : State), step s = .next t →
    (s.phase ≠ .idle → t.hostQueue = s.hostQueue) ∧ ∃ new, new.length ≤ 1 ∧ t.results = s.results ++ new

/-- The segment is read only: no step writes it, only `setByteCode` replaces it as a whole (R61). -/
def Obligations.OnlySetByteCodeReplacesSegment : Prop :=
  ∀ (s t : State), step s = .next t →
    (t.segment = s.segment ∧ SameSegment s t) ∨
    ∃ bytes calls, s.phase = .idle ∧ s.hostQueue = .setByteCode bytes :: calls ∧ t.segLen = bytes.length ∧
      ∀ o, t.segByte o = bytes[o.toNat]?

/-! ## The decompressor -/

/-- The entry checks of `decompress`, in their order; a failure is returned and the interpreter is untouched (R301). -/
def Obligations.DecompressEntryChecks : Prop :=
  ∀ (s : State) (bytes : List Byte) (packed unpacked : Nat) (calls : List HostCall), s.fault = none → s.phase = .idle →
    s.hostQueue = .decompress bytes packed unpacked :: calls →
    (packed < 12 → step s = .next { s with hostQueue := calls, results := s.results ++ [.unpackFailed .trailerTooShort] }) ∧
    (12 ≤ packed → bytes.length < packed ∨ bytes.length < unpacked →
      step s = .next { s with hostQueue := calls, results := s.results ++ [.unpackFailed .bufferTooSmall] })

/-- After the entry checks the trailer's three words, big-endian at the buffer's named bytes, always exist; a declared
length other than the caller's fails, and otherwise the call starts from them (R302, R303). -/
def Obligations.DecompressStartsFromTrailer : Prop :=
  ∀ (s : State) (bytes : List Byte) (packed unpacked : Nat) (calls : List HostCall), s.fault = none → s.phase = .idle →
    s.hostQueue = .decompress bytes packed unpacked :: calls → 12 ≤ packed → packed ≤ bytes.length →
    unpacked ≤ bytes.length →
    ∃ length seed chunk : DWord,
      BigEndianAt (fun o => bytes[o]?) (packed - 4) length ∧
      BigEndianAt (fun o => bytes[o]?) (packed - 8) seed ∧
      BigEndianAt (fun o => bytes[o]?) (packed - 12) chunk ∧
      (length.toNat ≠ unpacked →
        step s = .next { s with hostQueue := calls, results := s.results ++ [.unpackFailed .sizeMismatch] }) ∧
      (length.toNat = unpacked → ∃ d : Decomp, step s = .next { s with hostQueue := calls, phase := .unpack d } ∧
        d.buf.len = bytes.length ∧ (∀ o, d.buf.read o = bytes[o]?) ∧ d.unpacked = unpacked ∧ d.src = (packed : Int) - 16 ∧
        d.dst = (unpacked : Int) - 1 ∧ d.rem = unpacked ∧ d.crc = seed ^^^ chunk ∧ d.chunk = chunk)

/-- `GetBit`: the low bit, then a right shift; a chunk that becomes zero is refilled from the big-endian word at `src`,
whose low bit is returned, with a 1 seeded at the top; a word with a byte outside the buffer fails (R304, R312). -/
def Obligations.GetBitTakesLowBitAndRefills : Prop :=
  ∀ (d : Decomp),
    (d.chunk.toNat / 2 ≠ 0 → d.getBit = .ok (decide (d.chunk.toNat % 2 = 1), { d with chunk := d.chunk >>> 1 })) ∧
    (d.chunk.toNat / 2 = 0 → ∀ (o : Nat) (w : DWord), d.src = o → BigEndianAt d.buf.read o w →
      d.getBit = .ok (decide (w.toNat % 2 = 1),
        { d with src := d.src - 4, crc := d.crc ^^^ w, chunk := BitVec.ofNat 32 (w.toNat / 2 + 2 ^ 31) })) ∧
    (d.chunk.toNat / 2 = 0 → d.src < 0 ∨ (d.buf.len : Int) < d.src + 4 → d.getBit = .error .readBounds)

/-- `GetBits` assembles its bits first bit most significant: `m + n` bits are `m` bits followed by `n` (R305). -/
def Obligations.GetBitsFirstBitMostSignificant : Prop :=
  ∀ (d : Decomp),
    d.getBits 0 = .ok (0, d) ∧
    (∀ b e, d.getBit = .ok (b, e) → d.getBits 1 = .ok (if b = true then 1 else 0, e)) ∧
    (∀ m n v w e f, d.getBits m = .ok (v, e) → e.getBits n = .ok (w, f) →
      d.getBits (m + n) = .ok (v * 2 ^ n + w, f) ∧ v < 2 ^ m ∧ w < 2 ^ n)

/-- The six codes of the decode loop with their counts and offsets; every answer is one of these six runs with its
bounds, or the failure to read a bit, so no other code exists (R307, R313). An iteration reads one code and performs its
run; a failure of either ends the call (R307; one iteration as one step is log 8). -/
def Obligations.CodesSelectRuns : Prop :=
  ∀ (d : Decomp),
    (∀ e v f, d.getBits 2 = .ok (0, e) → e.getBits 3 = .ok (v, f) → d.readToken = .ok (.literal (v + 1), f)) ∧
    (∀ e v f, d.getBits 2 = .ok (1, e) → e.getBits 8 = .ok (v, f) → d.readToken = .ok (.backRef 2 v, f)) ∧
    (∀ e v f, d.getBits 3 = .ok (4, e) → e.getBits 9 = .ok (v, f) → d.readToken = .ok (.backRef 3 v, f)) ∧
    (∀ e v f, d.getBits 3 = .ok (5, e) → e.getBits 10 = .ok (v, f) → d.readToken = .ok (.backRef 4 v, f)) ∧
    (∀ e c f v g, d.getBits 3 = .ok (6, e) → e.getBits 8 = .ok (c, f) → f.getBits 12 = .ok (v, g) →
      d.readToken = .ok (.backRef (c + 1) v, g)) ∧
    (∀ e v f, d.getBits 3 = .ok (7, e) → e.getBits 8 = .ok (v, f) → d.readToken = .ok (.literal (v + 9), f)) ∧
    (d.readToken = .error .readBounds ∨ ∃ token f, d.readToken = .ok (token, f) ∧
      ((∃ v, v < 2 ^ 3 ∧ token = .literal (v + 1)) ∨ (∃ v, v < 2 ^ 8 ∧ token = .backRef 2 v) ∨
        (∃ v, v < 2 ^ 9 ∧ token = .backRef 3 v) ∨ (∃ v, v < 2 ^ 10 ∧ token = .backRef 4 v) ∨
        (∃ c v, c < 2 ^ 8 ∧ v < 2 ^ 12 ∧ token = .backRef (c + 1) v) ∨ ∃ v, v < 2 ^ 8 ∧ token = .literal (v + 9))) ∧
    (∀ s : State, s.fault = none → s.phase = .unpack d → 0 < d.rem →
      (∀ x, d.readToken = .error x → step s = .next { s with phase := .idle, results := s.results ++ [.unpackFailed x] }) ∧
      (∀ token f x, d.readToken = .ok (token, f) → f.runToken token = .error x →
        step s = .next { s with phase := .idle, results := s.results ++ [.unpackFailed x] }) ∧
      ∀ token f e, d.readToken = .ok (token, f) → f.runToken token = .ok e → step s = .next { s with phase := .unpack e })

/-- A literal run writes its bytes one by one, highest offset first, each the next 8 bits; `rem` drops by the run's count;
it fails where the bits do, or with `WriteBounds` once `dst` is below 0; no other byte changes (R308, R312). -/
def Obligations.LiteralRunWritesNextBytesDownward : Prop :=
  ∀ (d : Decomp),
    d.runToken (.literal 0) = .ok d ∧
    (∀ n x, d.getBits 8 = .error x → d.runToken (.literal (n + 1)) = .error x) ∧
    (∀ n v f, d.getBits 8 = .ok (v, f) → f.dst < 0 → d.runToken (.literal (n + 1)) = .error .writeBounds) ∧
    (∀ (n v : Nat) (f : Decomp) (o : Nat), d.getBits 8 = .ok (v, f) → f.dst = o → o < f.buf.len →
      d.runToken (.literal (n + 1)) =
        Decomp.runToken { f with buf := f.buf.write o (BitVec.ofNat 8 v), dst := f.dst - 1, rem := f.rem - 1 } (.literal n)) ∧
    (∀ (n : Nat) (e : Decomp), d.buf.wf = true → d.runToken (.literal n) = .ok e →
      e.rem = d.rem - n ∧ e.dst = d.dst - n ∧
      (∀ v f, 0 < n → d.getBits 8 = .ok (v, f) → e.buf.read d.dst.toNat = some (BitVec.ofNat 8 v)) ∧
      ∀ o : Nat, (o : Int) ≤ e.dst ∨ d.dst < o → e.buf.read o = d.buf.read o)

/-- A back-reference that succeeds writes `count` bytes downward, each equal to the byte `offset` above it, so that an
overlapping copy repeats with period `offset`; an offset of 0 leaves every byte as it was; no other byte changes. It
succeeds iff its source lies below `unpackedSize` and its bytes at or above offset 0, and fails with `RefBounds` or
`WriteBounds` otherwise (R309, R312). -/
def Obligations.BackReferenceRepeatsAtOffset : Prop :=
  ∀ (d : Decomp) (count offset : Nat), d.buf.wf = true →
    (∀ e, d.runToken (.backRef count offset) = .ok e →
      e.rem = d.rem - count ∧ e.dst = d.dst - count ∧
      (∀ o : Nat, e.dst < o → (o : Int) ≤ d.dst → e.buf.read o = e.buf.read (o + offset) ∧ o + offset < d.unpacked) ∧
      (offset = 0 → ∀ o, e.buf.read o = d.buf.read o) ∧
      (∀ o : Nat, (o : Int) ≤ e.dst ∨ d.dst < o → e.buf.read o = d.buf.read o)) ∧
    (d.unpacked ≤ d.buf.len → 0 < count →
      (d.dst < 0 → d.runToken (.backRef count offset) = .error .writeBounds) ∧
      (0 ≤ d.dst → (d.unpacked : Int) ≤ d.dst + offset → d.runToken (.backRef count offset) = .error .refBounds) ∧
      (0 ≤ d.dst → d.dst + offset < d.unpacked → d.dst + 1 < count →
        d.runToken (.backRef count offset) = .error .writeBounds) ∧
      (d.dst + offset < d.unpacked → count ≤ d.dst + 1 → ∃ e, d.runToken (.backRef count offset) = .ok e))

/-- No step of a running decompression writes a byte at or above `unpackedSize` (R315). -/
def Obligations.DecompressNeverWritesAboveUnpackedSize : Prop :=
  ∀ (s t : State) (d e : Decomp), s.phase = .unpack d → d.Good → step s = .next t → t.phase = .unpack e →
    e.unpacked = d.unpacked ∧ e.buf.len = d.buf.len ∧ ∀ o, d.unpacked ≤ o → e.buf.read o = d.buf.read o

/-- The cause `BadCode` is never produced (R313). -/
def Obligations.BadCodeIsNeverProduced : Prop :=
  ∀ (s t : State), step s = .next t → t.results ≠ s.results ++ [.unpackFailed .badCode]

/-- After the loop, with every output byte written (`dst` is below offset 0), a checksum of zero makes the call succeed
with the buffer's bytes, and any other makes it fail; a call succeeds in no other state (R310, R311). -/
def Obligations.DecompressSuccessIsCompleteAndChecked : Prop :=
  ∀ (s t : State) (d : Decomp), s.fault = none → s.phase = .unpack d → d.Good → step s = .next t →
    (∀ bytes, t.results = s.results ++ [.unpacked bytes] →
      d.dst = -1 ∧ d.rem = 0 ∧ d.crc = 0 ∧ ∀ o : Nat, bytes[o]? = d.buf.read o) ∧
    (d.rem = 0 → d.crc = 0 → t.phase = .idle ∧ ∃ bytes, t.results = s.results ++ [.unpacked bytes] ∧
      ∀ o : Nat, bytes[o]? = d.buf.read o) ∧
    (d.rem = 0 → d.crc ≠ 0 → t.phase = .idle ∧ t.results = s.results ++ [.unpackFailed .checksumError])

/-- A decompression ends: within `rem + 1` steps the call has returned one result, and nothing of the interpreter has
changed (R310, R316, R360). That one step is one iteration of the decode loop is the model's choice (log 8). -/
def Obligations.DecompressReturnsWithinBound : Prop :=
  ∀ (s : State) (d : Decomp), s.fault = none → s.phase = .unpack d →
    ∃ n t r, n ≤ d.rem.toNat + 1 ∧ stepN n s = .next t ∧ t = { s with phase := .idle, results := s.results ++ [r] }

/-! ## Invariant -/

/-- Every step keeps the invariant: segment and buffer in canonical form and within their bounds, thread states 0 or 1,
the running thread's `current_pc` at the cursor (R25, R31, R134 to R138, R310). It speaks of the model's phases (log 8) and
holds nothing about a faulted block, whose state is unspecified (log 9). -/
def Obligations.StepKeepsInvariant : Prop :=
  ∀ (s t : State), s.Inv → step s = .next t → t.Inv

/-- The invariant holds after reset; the values of the thread control blocks there, before the first `setByteCode`, are the
model's choice (log 17). -/
def Obligations.ResetHasInvariant : Prop := State.reset.Inv
end

