-- ==== Sys2Proof/Laws/Codec.lean ====
section
/-! SUPPORT. The codec: 16-bit operands, the variable operand fields in both directions, the opcode bytes with bits of their own. -/

namespace Sys2Proof

/-! ## 16-bit operands -/

theorem be16_hiByte_loByte (w : Word) : be16 (hiByte w) (loByte w) = w := by
  apply BitVec.eq_of_getLsbD_eq
  intro i h
  simp only [be16, hiByte, loByte, BitVec.getLsbD_append, BitVec.getLsbD_extractLsb']
  split
  · rename_i h8
    simp [h8]
  · have e : 8 + (i - 8) = i := by omega
    have e' : i - 8 < 8 := by omega
    simp [e, e']

theorem hiByte_be16 (hi lo : Byte) : hiByte (be16 hi lo) = hi := by
  apply BitVec.eq_of_getLsbD_eq
  intro i h
  simp only [be16, hiByte, BitVec.getLsbD_extractLsb', BitVec.getLsbD_append]
  simp [h]

theorem loByte_be16 (hi lo : Byte) : loByte (be16 hi lo) = lo := by
  apply BitVec.eq_of_getLsbD_eq
  intro i h
  simp only [be16, loByte, BitVec.getLsbD_extractLsb', BitVec.getLsbD_append]
  simp [h]

/-! ## The fields whose shape mode bits select -/

theorem decodeCmpOperand_bytes {v : Byte} {x : CmpOperand} (h : x.agrees v = true) (rest : List Byte) :
    decodeCmpOperand v (x.bytes ++ rest) = .ok (x, rest) := by
  cases x <;> simp_all [CmpOperand.agrees, CmpOperand.bytes, decodeCmpOperand, wordBytes, be16_hiByte_loByte]

theorem decodeXField_bytes {m : BitVec 6} {x : XField} (h : x.agrees m = true) (rest : List Byte) :
    decodeXField m (x.bytes ++ rest) = .ok (x, rest) := by
  cases x <;> simp_all [XField.agrees, XField.bytes, decodeXField, wordBytes, be16_hiByte_loByte]

theorem decodeYField_bytes {m : BitVec 6} {y : YField} (h : y.agrees m = true) (rest : List Byte) :
    decodeYField m (y.bytes ++ rest) = .ok (y, rest) := by
  cases y <;> simp_all [YField.agrees, YField.bytes, decodeYField, wordBytes, be16_hiByte_loByte]

theorem decodeZoomField_bytes {m : BitVec 6} {z : ZoomField} (h : z.agrees m = true) (rest : List Byte) :
    decodeZoomField m (z.bytes ++ rest) = .ok (z, rest) := by
  cases z <;> simp_all [ZoomField.agrees, ZoomField.bytes, decodeZoomField]

theorem decodeCmpOperand_ok {v : Byte} {bs rest : List Byte} {x : CmpOperand} (h : decodeCmpOperand v bs = .ok (x, rest)) :
    x.agrees v = true ∧ x.bytes ++ rest = bs := by
  unfold decodeCmpOperand at h
  split at h
  · cases h
  · split at h
    · cases h; simp_all [CmpOperand.agrees, CmpOperand.bytes]
    · split at h
      · split at h
        · cases h; simp_all [CmpOperand.agrees, CmpOperand.bytes, wordBytes, hiByte_be16, loByte_be16]
        · cases h
      · cases h; simp_all [CmpOperand.agrees, CmpOperand.bytes]

theorem decodeXField_ok {m : BitVec 6} {bs rest : List Byte} {x : XField} (h : decodeXField m bs = .ok (x, rest)) :
    x.agrees m = true ∧ x.bytes ++ rest = bs := by
  unfold decodeXField at h
  split at h
  · cases h
  · split at h
    · split at h <;> cases h <;> simp_all [XField.agrees, XField.bytes]
    · split at h
      · cases h; simp_all [XField.agrees, XField.bytes]
      · split at h
        · cases h; simp_all [XField.agrees, XField.bytes, wordBytes, hiByte_be16, loByte_be16]
        · cases h

theorem decodeYField_ok {m : BitVec 6} {bs rest : List Byte} {y : YField} (h : decodeYField m bs = .ok (y, rest)) :
    y.agrees m = true ∧ y.bytes ++ rest = bs := by
  unfold decodeYField at h
  split at h
  · cases h
  · split at h
    · cases h; simp_all [YField.agrees, YField.bytes]
    · split at h
      · cases h; simp_all [YField.agrees, YField.bytes]
      · split at h
        · cases h; simp_all [YField.agrees, YField.bytes, wordBytes, hiByte_be16, loByte_be16]
        · cases h

theorem decodeZoomField_ok {m : BitVec 6} {bs rest : List Byte} {z : ZoomField} (h : decodeZoomField m bs = .ok (z, rest)) :
    z.agrees m = true ∧ z.bytes ++ rest = bs := by
  unfold decodeZoomField at h
  split at h
  · split at h
    · cases h; simp_all [ZoomField.agrees, ZoomField.bytes]
    · split at h
      · cases h; simp_all [ZoomField.agrees, ZoomField.bytes]
      · cases h
  · split at h
    · split at h
      · cases h; simp_all [ZoomField.agrees, ZoomField.bytes]
      · cases h
    · cases h; simp_all [ZoomField.agrees, ZoomField.bytes]

/-! ## Opcode bytes that carry mode or offset bits -/

theorem poly40_opcodeByte_bits (m : BitVec 6) :
    (0b01#2 ++ m : Byte).getLsbD 7 = false ∧ (0b01#2 ++ m : Byte).getLsbD 6 = true ∧
      (0b01#2 ++ m : Byte).extractLsb' 0 6 = m := by
  revert m; decide

theorem poly80_opcodeByte_bits (h : BitVec 7) :
    (1#1 ++ h : Byte).getLsbD 7 = true ∧ (1#1 ++ h : Byte).extractLsb' 0 7 = h := by
  revert h; decide

theorem poly40_opcodeByte_of_bits (op : Byte) :
    op.getLsbD 7 = false → op.getLsbD 6 = true → (0b01#2 ++ op.extractLsb' 0 6 : Byte) = op := by
  revert op; decide

theorem poly80_opcodeByte_of_bits (op : Byte) : op.getLsbD 7 = true → (1#1 ++ op.extractLsb' 0 7 : Byte) = op := by
  revert op; decide

theorem invalid1C_opcodeByte_of_range (op : Byte) :
    0x1B < op.toNat → op.toNat < 0x20 → (0b000111#6 ++ op.extractLsb' 0 2 : Byte) = op := by
  revert op; decide

theorem invalid20_opcodeByte_of_range (op : Byte) :
    op.getLsbD 7 = false → op.getLsbD 6 = false → 0x20 ≤ op.toNat → (0b001#3 ++ op.extractLsb' 0 5 : Byte) = op := by
  revert op; decide

end Sys2Proof
end

