-- ==== Sys2Proof/Laws/Memory.lean ====
section
/-! SUPPORT. Memory: a read after a write, and that every operation keeps the canonical form. -/

namespace Sys2Proof.Machine

@[simp] theorem Memory.write_len (m : Memory) (o : Nat) (v : Byte) : (m.write o v).len = m.len := by
  unfold Memory.write; split <;> rfl

@[simp] theorem Memory.ofBytes_len (bs : List Byte) : (Memory.ofBytes bs).len = bs.length := rfl

theorem Memory.read_eq_none_iff (m : Memory) (o : Nat) : m.read o = none ↔ m.len ≤ o := by
  unfold Memory.read; split <;> simp <;> omega

theorem Memory.read_isSome_iff (m : Memory) (o : Nat) : (m.read o).isSome = true ↔ o < m.len := by
  unfold Memory.read; split <;> simp <;> omega

theorem Memory.lookup_insert_ne {o p : Nat} (h : p ≠ o) (v : Byte) (cs : List Host.Cell) :
    Memory.lookup (Memory.insert o v cs) p = Memory.lookup cs p := by
  induction cs with
  | nil => unfold Memory.insert; split <;> simp [Memory.lookup, Ne.symm h]
  | cons c cs ih =>
    obtain ⟨a, w⟩ := c
    unfold Memory.insert
    split
    · split <;> simp [Memory.lookup, Ne.symm h]
    · split
      · rename_i heq
        subst heq
        split <;> simp [Memory.lookup, Ne.symm h]
      · simp [Memory.lookup, ih]

/-- Below the least offset that a canonical cell list may hold, every offset reads as the unlisted byte. -/
theorem Memory.lookup_below {len lo o : Nat} {cs : List Host.Cell} (h : Memory.cellsWf len lo cs = true) (ho : o < lo) :
    Memory.lookup cs o = Memory.unlisted := by
  induction cs generalizing lo with
  | nil => rfl
  | cons c cs ih =>
    obtain ⟨a, w⟩ := c
    simp only [Memory.cellsWf, Bool.and_eq_true, decide_eq_true_eq] at h
    obtain ⟨⟨⟨h1, _⟩, _⟩, h4⟩ := h
    have hne : a ≠ o := by omega
    simp only [Memory.lookup, hne, if_false]
    exact ih h4 (by omega)

theorem Memory.lookup_insert_self {len lo o : Nat} {cs : List Host.Cell} (h : Memory.cellsWf len lo cs = true) (v : Byte) :
    Memory.lookup (Memory.insert o v cs) o = v := by
  induction cs generalizing lo with
  | nil =>
    unfold Memory.insert
    split
    · rename_i hv; simp [Memory.lookup, hv]
    · simp [Memory.lookup]
  | cons c cs ih =>
    obtain ⟨a, w⟩ := c
    simp only [Memory.cellsWf, Bool.and_eq_true, decide_eq_true_eq] at h
    obtain ⟨⟨⟨h1, _⟩, _⟩, h4⟩ := h
    unfold Memory.insert
    split
    · rename_i hlt
      split
      · rename_i hv
        have hne : a ≠ o := by omega
        simp only [Memory.lookup, hne, if_false, hv]
        exact Memory.lookup_below h4 (by omega)
      · simp [Memory.lookup]
    · split
      · rename_i heq
        subst heq
        split
        · rename_i hv
          rw [hv]
          exact Memory.lookup_below h4 (by omega)
        · simp [Memory.lookup]
      · rename_i hne
        have hne' : a ≠ o := fun hao => hne hao.symm
        simp only [Memory.lookup, hne', if_false]
        exact ih h4

theorem Memory.cellsWf_mono {len lo lo' : Nat} {cs : List Host.Cell} (h : Memory.cellsWf len lo cs = true) (hl : lo' ≤ lo) :
    Memory.cellsWf len lo' cs = true := by
  cases cs with
  | nil => rfl
  | cons c cs =>
    obtain ⟨a, w⟩ := c
    simp only [Memory.cellsWf, Bool.and_eq_true, decide_eq_true_eq] at h ⊢
    exact ⟨⟨⟨by omega, h.1.1.2⟩, h.1.2⟩, h.2⟩

theorem Memory.cellsWf_len_mono {len len' lo : Nat} {cs : List Host.Cell} (h : Memory.cellsWf len lo cs = true)
    (hl : len ≤ len') : Memory.cellsWf len' lo cs = true := by
  induction cs generalizing lo with
  | nil => rfl
  | cons c cs ih =>
    obtain ⟨a, w⟩ := c
    simp only [Memory.cellsWf, Bool.and_eq_true, decide_eq_true_eq] at h ⊢
    exact ⟨⟨⟨h.1.1.1, by omega⟩, h.1.2⟩, ih h.2⟩

theorem Memory.insert_cellsWf {len lo o : Nat} {cs : List Host.Cell} (h : Memory.cellsWf len lo cs = true) (v : Byte)
    (hlo : lo ≤ o) (hlen : o < len) : Memory.cellsWf len lo (Memory.insert o v cs) = true := by
  induction cs generalizing lo with
  | nil =>
    unfold Memory.insert
    split
    · rfl
    · rename_i hv; simp [Memory.cellsWf, hlo, hlen, hv]
  | cons c cs ih =>
    obtain ⟨a, w⟩ := c
    have h0 := h
    simp only [Memory.cellsWf, Bool.and_eq_true, decide_eq_true_eq] at h
    obtain ⟨⟨⟨h1, h2⟩, h3⟩, h4⟩ := h
    unfold Memory.insert
    split
    · split
      · exact h0
      · rename_i hv
        simp only [Memory.cellsWf, Bool.and_eq_true, decide_eq_true_eq]
        exact ⟨⟨⟨hlo, hlen⟩, hv⟩, ⟨⟨by omega, h2⟩, h3⟩, h4⟩
    · split
      · rename_i heq
        subst heq
        split
        · exact Memory.cellsWf_mono h4 (by omega)
        · rename_i hv
          simp only [Memory.cellsWf, Bool.and_eq_true, decide_eq_true_eq]
          exact ⟨⟨⟨h1, h2⟩, hv⟩, h4⟩
      · simp only [Memory.cellsWf, Bool.and_eq_true, decide_eq_true_eq]
        exact ⟨⟨⟨h1, h2⟩, h3⟩, ih h4 (by omega)⟩

/-- A write keeps the canonical form. -/
theorem Memory.write_wf {m : Memory} (h : m.wf = true) (o : Nat) (v : Byte) : (m.write o v).wf = true := by
  unfold Memory.write
  split
  · exact Memory.insert_cellsWf h v (by omega) (by assumption)
  · exact h

theorem Memory.cellsOf_wf (base : Nat) (bs : List Byte) :
    Memory.cellsWf (base + bs.length) base (Memory.cellsOf base bs) = true := by
  induction bs generalizing base with
  | nil => rfl
  | cons b bs ih =>
    have h := ih (base + 1)
    rw [show base + 1 + bs.length = base + (b :: bs).length by simp; omega] at h
    unfold Memory.cellsOf
    split
    · exact Memory.cellsWf_mono h (by omega)
    · rename_i hv
      simp only [Memory.cellsWf, Bool.and_eq_true, decide_eq_true_eq]
      exact ⟨⟨⟨by omega, by simp⟩, hv⟩, h⟩

/-- A byte string's memory is in the canonical form. -/
theorem Memory.ofBytes_wf (bs : List Byte) : (Memory.ofBytes bs).wf = true := by
  have h := Memory.cellsOf_wf 0 bs
  simpa [Memory.wf, Memory.ofBytes] using h

/-- A read after a write of the same offset gives the byte written. -/
theorem Memory.read_write_self {m : Memory} (h : m.wf = true) {o : Nat} (ho : o < m.len) (v : Byte) :
    (m.write o v).read o = some v := by
  unfold Memory.write Memory.read
  simp [ho, Memory.lookup_insert_self h]

/-- A write leaves every other offset alone. -/
theorem Memory.read_write_ne (m : Memory) {o p : Nat} (h : p ≠ o) (v : Byte) : (m.write o v).read p = m.read p := by
  unfold Memory.write Memory.read
  split
  · simp [Memory.lookup_insert_ne h]
  · rfl

theorem storeBytes_wf {m : Memory} (h : m.wf = true) (o : Word) (bs : List Byte) : (storeBytes m o bs).wf = true := by
  induction bs generalizing m o with
  | nil => exact h
  | cons b bs ih => exact ih (Memory.write_wf h _ _) _

@[simp] theorem storeBytes_len (m : Memory) (o : Word) (bs : List Byte) : (storeBytes m o bs).len = m.len := by
  induction bs generalizing m o with
  | nil => rfl
  | cons b bs ih => simp [storeBytes, ih]

theorem Memory.lookup_cellsOf (base : Nat) (bs : List Byte) (o : Nat) :
    Memory.lookup (Memory.cellsOf base bs) (base + o) = bs.getD o Memory.unlisted := by
  induction bs generalizing base o with
  | nil => simp [Memory.cellsOf, Memory.lookup]
  | cons b bs ih =>
    rw [show Memory.cellsOf base (b :: bs) = if b = Memory.unlisted then Memory.cellsOf (base + 1) bs
      else (base, b) :: Memory.cellsOf (base + 1) bs from rfl]
    cases o with
    | zero =>
      by_cases hb : b = Memory.unlisted
      · simpa [hb] using Memory.lookup_below (Memory.cellsOf_wf (base + 1) bs) (Nat.lt_succ_self base)
      · simp [hb, Memory.lookup]
    | succ n =>
      have h := ih (base + 1) n
      rw [show base + 1 + n = base + (n + 1) by omega] at h
      by_cases hb : b = Memory.unlisted
      · simpa [hb] using h
      · have hne : base ≠ base + (n + 1) := by omega
        simpa [hb, Memory.lookup, hne] using h

/-- A byte string's memory reads as the byte string. -/
theorem Memory.read_ofBytes (bs : List Byte) (o : Nat) : (Memory.ofBytes bs).read o = bs[o]? := by
  have h := Memory.lookup_cellsOf 0 bs o
  simp only [Nat.zero_add] at h
  by_cases ho : o < bs.length
  · simp [Memory.read, Memory.ofBytes, ho, h]
  · simp [Memory.read, Memory.ofBytes, ho]

end Sys2Proof.Machine
end

