-- ==== Sys2Proof/Laws/Decompress.lean ====
section
/-! SUPPORT. The decompressor: reading bits touches only the bit reader, writing bytes only the output. -/

namespace Sys2Proof.Machine

/-- Only the bit reader's state differs: `src`, `crc` and `chunk`. -/
def Decomp.ReadsOnly (d e : Decomp) : Prop := e = { d with src := e.src, crc := e.crc, chunk := e.chunk }

theorem Decomp.ReadsOnly.refl (d : Decomp) : d.ReadsOnly d := rfl

theorem Decomp.ReadsOnly.trans {a b c : Decomp} (h : a.ReadsOnly b) (k : b.ReadsOnly c) : a.ReadsOnly c := by
  unfold Decomp.ReadsOnly at *
  rw [h] at k
  exact k

theorem Decomp.getBit_readsOnly {d e : Decomp} {b : Bool} (h : d.getBit = .ok (b, e)) : d.ReadsOnly e := by
  unfold Decomp.getBit at h
  split at h
  · split at h
    · cases h
    · cases h; rfl
  · cases h; rfl

theorem Decomp.getBitsFrom_readsOnly {n v w : Nat} {d e : Decomp} (h : Decomp.getBitsFrom n v d = .ok (w, e)) :
    d.ReadsOnly e := by
  induction n generalizing v d with
  | zero => cases h; rfl
  | succ n ih =>
    simp only [Decomp.getBitsFrom] at h
    cases hb : d.getBit with
    | error x => simp [hb] at h
    | ok p =>
      obtain ⟨b, f⟩ := p
      simp only [hb] at h
      exact (Decomp.getBit_readsOnly hb).trans (ih h)

theorem Decomp.getBits_readsOnly {n w : Nat} {d e : Decomp} (h : d.getBits n = .ok (w, e)) : d.ReadsOnly e :=
  Decomp.getBitsFrom_readsOnly h

/-- What a token's run writes is one byte or more. -/
def Token.count : Token → Nat
  | .literal n => n
  | .backRef n _ => n

theorem Decomp.literalHeader_ok {d e : Decomp} {bits base : Nat} {t : Token} (h : d.literalHeader bits base = .ok (t, e)) :
    d.ReadsOnly e ∧ base ≤ t.count := by
  unfold Decomp.literalHeader at h
  split at h
  · cases h
  · rename_i v f hb
    cases h
    exact ⟨Decomp.getBits_readsOnly hb, by simp [Token.count]⟩

theorem Decomp.backRefHeader_ok {d e : Decomp} {count bits : Nat} {t : Token}
    (h : d.backRefHeader count bits = .ok (t, e)) : d.ReadsOnly e ∧ t.count = count := by
  unfold Decomp.backRefHeader at h
  split at h
  · cases h
  · rename_i v f hb
    cases h
    exact ⟨Decomp.getBits_readsOnly hb, rfl⟩

/-- Reading a token changes only the bit reader, and the token writes at least one byte. -/
theorem Decomp.readToken_ok {d e : Decomp} {t : Token} (h : d.readToken = .ok (t, e)) : d.ReadsOnly e ∧ 1 ≤ t.count := by
  unfold Decomp.readToken at h
  split at h
  · cases h
  · rename_i d1 h1
    split at h
    · cases h
    · rename_i d2 h2
      have k := Decomp.literalHeader_ok h
      exact ⟨((Decomp.getBit_readsOnly h1).trans (Decomp.getBit_readsOnly h2)).trans k.1, k.2⟩
    · rename_i d2 h2
      have k := Decomp.backRefHeader_ok h
      exact ⟨((Decomp.getBit_readsOnly h1).trans (Decomp.getBit_readsOnly h2)).trans k.1, by omega⟩
  · rename_i d1 h1
    split at h
    · cases h
    · rename_i d2 h2
      have k := Decomp.backRefHeader_ok h
      exact ⟨((Decomp.getBit_readsOnly h1).trans (Decomp.getBits_readsOnly h2)).trans k.1, by omega⟩
    · rename_i d2 h2
      have k := Decomp.backRefHeader_ok h
      exact ⟨((Decomp.getBit_readsOnly h1).trans (Decomp.getBits_readsOnly h2)).trans k.1, by omega⟩
    · rename_i d2 h2
      split at h
      · cases h
      · rename_i c d3 h3
        have k := Decomp.backRefHeader_ok h
        exact ⟨(((Decomp.getBit_readsOnly h1).trans (Decomp.getBits_readsOnly h2)).trans
          (Decomp.getBits_readsOnly h3)).trans k.1, by omega⟩
    · rename_i d2 _ _ _ h2
      have k := Decomp.literalHeader_ok h
      exact ⟨((Decomp.getBit_readsOnly h1).trans (Decomp.getBits_readsOnly h2)).trans k.1, by omega⟩

/-- What writing `n` bytes downward from `dst` does: `dst` falls by `n` and stays at least −1, the other cursors' bounds
and the buffer's length stand, and no byte outside the `n` written ones differs. -/
structure Decomp.Wrote (n : Nat) (d e : Decomp) : Prop where
  rem : e.rem = d.rem
  unpacked : e.unpacked = d.unpacked
  dst : e.dst = d.dst - n
  low : 0 < n → -1 ≤ e.dst
  len : e.buf.len = d.buf.len
  wf : d.buf.wf = true → e.buf.wf = true
  frame : ∀ o : Nat, ((o : Int) ≤ e.dst ∨ d.dst < o) → e.buf.read o = d.buf.read o

theorem Decomp.Wrote.refl (d : Decomp) : Decomp.Wrote 0 d d :=
  ⟨rfl, rfl, by simp, by simp, rfl, id, fun _ _ => rfl⟩

theorem Decomp.Wrote.of_readsOnly {n : Nat} {d e f : Decomp} (h : d.ReadsOnly e) (k : Decomp.Wrote n e f) :
    Decomp.Wrote n d f := by
  unfold Decomp.ReadsOnly at h
  rw [h] at k
  exact ⟨k.rem, k.unpacked, k.dst, k.low, k.len, k.wf, k.frame⟩

theorem Decomp.put_ok {d e : Decomp} {v : Byte} (h : d.put v = .ok e) : Decomp.Wrote 1 d e := by
  unfold Decomp.put at h
  split at h
  · cases h
  · rename_i h0
    split at h
    · cases h
      refine ⟨rfl, rfl, by simp, fun _ => by simp; omega, by simp, fun w => Memory.write_wf w _ _, ?_⟩
      intro o ho
      simp only at ho ⊢
      exact Memory.read_write_ne _ (by omega) _
    · cases h

theorem Decomp.Wrote.cons {n : Nat} {d e f : Decomp} (h : Decomp.Wrote 1 d e) (k : Decomp.Wrote n e f) :
    Decomp.Wrote (n + 1) d f := by
  have h3 := h.dst
  have k3 := k.dst
  refine ⟨k.rem.trans h.rem, k.unpacked.trans h.unpacked, by push_cast at *; omega, ?_, k.len.trans h.len,
    fun w => k.wf (h.wf w), ?_⟩
  · intro _
    have h4 := h.low (by omega)
    by_cases hn : 0 < n
    · exact k.low hn
    · have : n = 0 := by omega
      subst this
      omega
  · intro o ho
    rw [k.frame o (by push_cast at *; omega), h.frame o (by push_cast at *; omega)]

theorem Decomp.literalBytes_ok {n : Nat} {d e : Decomp} (h : Decomp.literalBytes n d = .ok e) : Decomp.Wrote n d e := by
  induction n generalizing d with
  | zero => cases h; exact Decomp.Wrote.refl _
  | succ n ih =>
    simp only [Decomp.literalBytes] at h
    split at h
    · cases h
    · rename_i v f hb
      split at h
      · cases h
      · rename_i g hp
        exact Decomp.Wrote.of_readsOnly (Decomp.getBits_readsOnly hb) ((Decomp.put_ok hp).cons (ih h))

theorem Decomp.backRefBytes_ok {offset n : Nat} {d e : Decomp} (h : Decomp.backRefBytes offset n d = .ok e) :
    Decomp.Wrote n d e := by
  induction n generalizing d with
  | zero => cases h; exact Decomp.Wrote.refl _
  | succ n ih =>
    simp only [Decomp.backRefBytes] at h
    split at h
    · cases h
    · split at h
      · cases h
      · split at h
        · cases h
        · split at h
          · cases h
          · rename_i g hp
            exact (Decomp.put_ok hp).cons (ih h)

/-- One iteration of the decode loop: a run of at least one byte is written, and `rem` falls by its length. -/
theorem Decomp.iterate_ok {d e : Decomp} (h : d.iterate = .ok e) :
    ∃ n : Nat, 1 ≤ n ∧ e.rem = d.rem - n ∧ e.dst = d.dst - n ∧ -1 ≤ e.dst ∧ e.unpacked = d.unpacked ∧
      e.buf.len = d.buf.len ∧ (d.buf.wf = true → e.buf.wf = true) ∧
      ∀ o : Nat, ((o : Int) ≤ e.dst ∨ d.dst < o) → e.buf.read o = d.buf.read o := by
  unfold Decomp.iterate at h
  split at h
  · cases h
  · rename_i t f ht
    obtain ⟨hr, hc⟩ := Decomp.readToken_ok ht
    unfold Decomp.ReadsOnly at hr
    have key : Decomp.Wrote t.count { f with rem := f.rem - t.count } e := by
      cases t with
      | literal n => exact Decomp.literalBytes_ok h
      | backRef n o => exact Decomp.backRefBytes_ok h
    rw [hr] at key
    exact ⟨t.count, hc, key.rem, key.dst, key.low (by omega), key.unpacked, key.len, key.wf, key.frame⟩

/-! ## Reading several bits -/

theorem Decomp.getBitsFrom_add (m n v : Nat) (d : Decomp) :
    Decomp.getBitsFrom (m + n) v d =
      match Decomp.getBitsFrom m v d with
      | .ok (w, e) => Decomp.getBitsFrom n w e
      | .error e => .error e := by
  induction m generalizing v d with
  | zero => simp [Decomp.getBitsFrom]
  | succ m ih =>
    rw [show m + 1 + n = (m + n) + 1 by omega]
    simp only [Decomp.getBitsFrom]
    cases d.getBit with
    | error e => rfl
    | ok p =>
      obtain ⟨b, e⟩ := p
      simp only
      rw [ih]

theorem Decomp.getBitsFrom_eq (n v : Nat) (d : Decomp) :
    Decomp.getBitsFrom n v d =
      match Decomp.getBitsFrom n 0 d with
      | .ok (w, e) => .ok (v * 2 ^ n + w, e)
      | .error e => .error e := by
  induction n generalizing v d with
  | zero => simp [Decomp.getBitsFrom]
  | succ n ih =>
    simp only [Decomp.getBitsFrom]
    cases d.getBit with
    | error e => rfl
    | ok p =>
      obtain ⟨b, e⟩ := p
      simp only
      rw [ih (2 * v + b.toNat) e, ih (2 * 0 + b.toNat) e]
      cases Decomp.getBitsFrom n 0 e with
      | error e => rfl
      | ok p =>
        obtain ⟨w, f⟩ := p
        simp
        ring

theorem Decomp.getBitsFrom_lt {n v w : Nat} {d e : Decomp} (h : Decomp.getBitsFrom n v d = .ok (w, e)) :
    w < (v + 1) * 2 ^ n := by
  induction n generalizing v d with
  | zero => cases h; simp
  | succ n ih =>
    simp only [Decomp.getBitsFrom] at h
    cases hb : d.getBit with
    | error e => simp [hb] at h
    | ok p =>
      obtain ⟨b, f⟩ := p
      simp only [hb] at h
      have hbit : b.toNat ≤ 1 := by cases b <;> simp
      calc
        w < _ := ih h
        _ ≤ (2 * (v + 1)) * 2 ^ n := Nat.mul_le_mul_right _ (by omega)
        _ = _ := by ring

theorem Decomp.getBit_error {d : Decomp} {x : DecompressFailure} (h : d.getBit = .error x) : x = .readBounds := by
  unfold Decomp.getBit at h
  split at h
  · split at h <;> cases h
    rfl
  · cases h

/-- The only failure of reading bits. -/
theorem Decomp.getBitsFrom_error {n v : Nat} {d : Decomp} {x : DecompressFailure}
    (h : Decomp.getBitsFrom n v d = .error x) : x = .readBounds := by
  induction n generalizing v d with
  | zero => cases h
  | succ n ih =>
    simp only [Decomp.getBitsFrom] at h
    split at h
    · cases h
      exact Decomp.getBit_error ‹_›
    · exact ih h

theorem Decomp.getBit_setRem (d : Decomp) (r : Int) :
    ({ d with rem := r } : Decomp).getBit =
      match d.getBit with
      | .ok (b, e) => .ok (b, { e with rem := r })
      | .error x => .error x := by
  unfold Decomp.getBit
  simp only
  split
  · split <;> simp_all
  · rfl

/-- Reading bits does not look at `rem`. -/
theorem Decomp.getBitsFrom_setRem (n v : Nat) (d : Decomp) (r : Int) :
    Decomp.getBitsFrom n v { d with rem := r } =
      match Decomp.getBitsFrom n v d with
      | .ok (b, e) => .ok (b, { e with rem := r })
      | .error x => .error x := by
  induction n generalizing v d with
  | zero => rfl
  | succ n ih =>
    simp only [Decomp.getBitsFrom, Decomp.getBit_setRem]
    cases d.getBit with
    | error x => rfl
    | ok p =>
      obtain ⟨b, e⟩ := p
      simp only [ih]

/-! ## Words -/

theorem Memory.read32_of_bigEndianAt {m : Memory} {o : Nat} {w : DWord} (h : BigEndianAt m.read o w) :
    m.read32 (o : Int) = some w := by
  obtain ⟨b0, b1, b2, b3, h0, h1, h2, h3, hw⟩ := h
  unfold Memory.read32
  rw [if_neg (by omega)]
  simp only [Int.toNat_natCast, h0, h1, h2, h3]
  congr 1
  apply BitVec.eq_of_toNat_eq
  have e1 : (b0 ++ b1).toNat = b0.toNat * 2 ^ 8 + b1.toNat := by
    rw [BitVec.toNat_append, ← Nat.shiftLeft_add_eq_or_of_lt b1.isLt, Nat.shiftLeft_eq]
  have e2 : (b0 ++ b1 ++ b2).toNat = (b0 ++ b1).toNat * 2 ^ 8 + b2.toNat := by
    rw [BitVec.toNat_append, ← Nat.shiftLeft_add_eq_or_of_lt b2.isLt, Nat.shiftLeft_eq]
  rw [hw, BitVec.toNat_append, ← Nat.shiftLeft_add_eq_or_of_lt b3.isLt, Nat.shiftLeft_eq, e2, e1]
  ring

theorem Memory.bigEndianAt_exists {m : Memory} {o : Nat} (h : o + 4 ≤ m.len) : ∃ w, BigEndianAt m.read o w := by
  have g : ∀ k, k < m.len → ∃ b, m.read k = some b := fun k hk => ⟨_, by unfold Memory.read; rw [if_pos hk]⟩
  obtain ⟨b0, h0⟩ := g o (by omega)
  obtain ⟨b1, h1⟩ := g (o + 1) (by omega)
  obtain ⟨b2, h2⟩ := g (o + 2) (by omega)
  obtain ⟨b3, h3⟩ := g (o + 3) (by omega)
  have := b0.isLt
  have := b1.isLt
  have := b2.isLt
  have := b3.isLt
  exact ⟨BitVec.ofNat 32 (b0.toNat * 2 ^ 24 + b1.toNat * 2 ^ 16 + b2.toNat * 2 ^ 8 + b3.toNat), b0, b1, b2, b3, h0, h1,
    h2, h3, by rw [BitVec.toNat_ofNat]; omega⟩

theorem Memory.read32_eq_none {m : Memory} {o : Int} (h : o < 0 ∨ (m.len : Int) < o + 4) : m.read32 o = none := by
  unfold Memory.read32
  split
  · rfl
  · have h3 : m.read (o.toNat + 3) = none := (m.read_eq_none_iff _).2 (by omega)
    simp only [h3]
    split <;> simp_all

end Sys2Proof.Machine
end

