-- ==== Sys2Proof/Laws/State.lean ====
section
/-! SUPPORT. State: what each update leaves and sets, one lemma per field per update, true by rfl. -/

namespace Sys2Proof.Machine

variable (s : State)

@[simp] theorem State.setReg_params (i : Byte) (v : Word) : (s.setReg i v).params = s.params := rfl
@[simp] theorem State.setReg_regs (i : Byte) (v : Word) : (s.setReg i v).regs = s.regs.set i.toNat v i.isLt := rfl
@[simp] theorem State.setReg_tcbs (i : Byte) (v : Word) : (s.setReg i v).tcbs = s.tcbs := rfl
@[simp] theorem State.setReg_stack (i : Byte) (v : Word) : (s.setReg i v).stack = s.stack := rfl
@[simp] theorem State.setReg_sp (i : Byte) (v : Word) : (s.setReg i v).sp = s.sp := rfl
@[simp] theorem State.setReg_pc (i : Byte) (v : Word) : (s.setReg i v).pc = s.pc := rfl
@[simp] theorem State.setReg_segment (i : Byte) (v : Word) : (s.setReg i v).segment = s.segment := rfl
@[simp] theorem State.setReg_cur (i : Byte) (v : Word) : (s.setReg i v).cur = s.cur := rfl
@[simp] theorem State.setReg_fault (i : Byte) (v : Word) : (s.setReg i v).fault = s.fault := rfl
@[simp] theorem State.setReg_events (i : Byte) (v : Word) : (s.setReg i v).events = s.events := rfl
@[simp] theorem State.setReg_phase (i : Byte) (v : Word) : (s.setReg i v).phase = s.phase := rfl
@[simp] theorem State.setReg_passNow (i : Byte) (v : Word) : (s.setReg i v).passNow = s.passNow := rfl
@[simp] theorem State.setReg_passMark (i : Byte) (v : Word) : (s.setReg i v).passMark = s.passMark := rfl
@[simp] theorem State.setReg_opStart (i : Byte) (v : Word) : (s.setReg i v).opStart = s.opStart := rfl
@[simp] theorem State.setReg_hostQueue (i : Byte) (v : Word) : (s.setReg i v).hostQueue = s.hostQueue := rfl
@[simp] theorem State.setReg_results (i : Byte) (v : Word) : (s.setReg i v).results = s.results := rfl
@[simp] theorem State.setReg_freeCount (i : Byte) (v : Word) : (s.setReg i v).freeCount = s.freeCount := rfl

@[simp] theorem State.seek_params (o : Word) : (s.seek o).params = s.params := rfl
@[simp] theorem State.seek_regs (o : Word) : (s.seek o).regs = s.regs := rfl
@[simp] theorem State.seek_tcbs (o : Word) : (s.seek o).tcbs = s.tcbs := rfl
@[simp] theorem State.seek_stack (o : Word) : (s.seek o).stack = s.stack := rfl
@[simp] theorem State.seek_sp (o : Word) : (s.seek o).sp = s.sp := rfl
@[simp] theorem State.seek_pc (o : Word) : (s.seek o).pc = o := rfl
@[simp] theorem State.seek_segment (o : Word) : (s.seek o).segment = s.segment := rfl
@[simp] theorem State.seek_cur (o : Word) : (s.seek o).cur = s.cur := rfl
@[simp] theorem State.seek_fault (o : Word) : (s.seek o).fault = s.fault := rfl
@[simp] theorem State.seek_events (o : Word) : (s.seek o).events = s.events := rfl
@[simp] theorem State.seek_phase (o : Word) : (s.seek o).phase = s.phase := rfl
@[simp] theorem State.seek_passNow (o : Word) : (s.seek o).passNow = s.passNow := rfl
@[simp] theorem State.seek_passMark (o : Word) : (s.seek o).passMark = s.passMark := rfl
@[simp] theorem State.seek_opStart (o : Word) : (s.seek o).opStart = s.opStart := rfl
@[simp] theorem State.seek_hostQueue (o : Word) : (s.seek o).hostQueue = s.hostQueue := rfl
@[simp] theorem State.seek_results (o : Word) : (s.seek o).results = s.results := rfl
@[simp] theorem State.seek_freeCount (o : Word) : (s.seek o).freeCount = s.freeCount := rfl

@[simp] theorem State.emit_params (e : Event) : (s.emit e).params = s.params := rfl
@[simp] theorem State.emit_regs (e : Event) : (s.emit e).regs = s.regs := rfl
@[simp] theorem State.emit_tcbs (e : Event) : (s.emit e).tcbs = s.tcbs := rfl
@[simp] theorem State.emit_stack (e : Event) : (s.emit e).stack = s.stack := rfl
@[simp] theorem State.emit_sp (e : Event) : (s.emit e).sp = s.sp := rfl
@[simp] theorem State.emit_pc (e : Event) : (s.emit e).pc = s.pc := rfl
@[simp] theorem State.emit_segment (e : Event) : (s.emit e).segment = s.segment := rfl
@[simp] theorem State.emit_cur (e : Event) : (s.emit e).cur = s.cur := rfl
@[simp] theorem State.emit_fault (e : Event) : (s.emit e).fault = s.fault := rfl
@[simp] theorem State.emit_events (e : Event) : (s.emit e).events = s.events ++ [e] := rfl
@[simp] theorem State.emit_phase (e : Event) : (s.emit e).phase = s.phase := rfl
@[simp] theorem State.emit_passNow (e : Event) : (s.emit e).passNow = s.passNow := rfl
@[simp] theorem State.emit_passMark (e : Event) : (s.emit e).passMark = s.passMark := rfl
@[simp] theorem State.emit_opStart (e : Event) : (s.emit e).opStart = s.opStart := rfl
@[simp] theorem State.emit_hostQueue (e : Event) : (s.emit e).hostQueue = s.hostQueue := rfl
@[simp] theorem State.emit_results (e : Event) : (s.emit e).results = s.results := rfl
@[simp] theorem State.emit_freeCount (e : Event) : (s.emit e).freeCount = s.freeCount := rfl

@[simp] theorem State.modifyTcb_params (t : Fin 64) (f : Tcb → Tcb) : (s.modifyTcb t f).params = s.params := rfl
@[simp] theorem State.modifyTcb_regs (t : Fin 64) (f : Tcb → Tcb) : (s.modifyTcb t f).regs = s.regs := rfl
@[simp] theorem State.modifyTcb_tcbs (t : Fin 64) (f : Tcb → Tcb) : (s.modifyTcb t f).tcbs = s.tcbs.set t (f s.tcbs[t]) := rfl
@[simp] theorem State.modifyTcb_stack (t : Fin 64) (f : Tcb → Tcb) : (s.modifyTcb t f).stack = s.stack := rfl
@[simp] theorem State.modifyTcb_sp (t : Fin 64) (f : Tcb → Tcb) : (s.modifyTcb t f).sp = s.sp := rfl
@[simp] theorem State.modifyTcb_pc (t : Fin 64) (f : Tcb → Tcb) : (s.modifyTcb t f).pc = s.pc := rfl
@[simp] theorem State.modifyTcb_segment (t : Fin 64) (f : Tcb → Tcb) : (s.modifyTcb t f).segment = s.segment := rfl
@[simp] theorem State.modifyTcb_cur (t : Fin 64) (f : Tcb → Tcb) : (s.modifyTcb t f).cur = s.cur := rfl
@[simp] theorem State.modifyTcb_fault (t : Fin 64) (f : Tcb → Tcb) : (s.modifyTcb t f).fault = s.fault := rfl
@[simp] theorem State.modifyTcb_events (t : Fin 64) (f : Tcb → Tcb) : (s.modifyTcb t f).events = s.events := rfl
@[simp] theorem State.modifyTcb_phase (t : Fin 64) (f : Tcb → Tcb) : (s.modifyTcb t f).phase = s.phase := rfl
@[simp] theorem State.modifyTcb_passNow (t : Fin 64) (f : Tcb → Tcb) : (s.modifyTcb t f).passNow = s.passNow := rfl
@[simp] theorem State.modifyTcb_passMark (t : Fin 64) (f : Tcb → Tcb) : (s.modifyTcb t f).passMark = s.passMark := rfl
@[simp] theorem State.modifyTcb_opStart (t : Fin 64) (f : Tcb → Tcb) : (s.modifyTcb t f).opStart = s.opStart := rfl
@[simp] theorem State.modifyTcb_hostQueue (t : Fin 64) (f : Tcb → Tcb) : (s.modifyTcb t f).hostQueue = s.hostQueue := rfl
@[simp] theorem State.modifyTcb_results (t : Fin 64) (f : Tcb → Tcb) : (s.modifyTcb t f).results = s.results := rfl
@[simp] theorem State.modifyTcb_freeCount (t : Fin 64) (f : Tcb → Tcb) : (s.modifyTcb t f).freeCount = s.freeCount := rfl

@[simp] theorem State.modifyRange_params (a b : Nat) (f : Tcb → Tcb) : (s.modifyRange a b f).params = s.params := rfl
@[simp] theorem State.modifyRange_regs (a b : Nat) (f : Tcb → Tcb) : (s.modifyRange a b f).regs = s.regs := rfl
@[simp] theorem State.modifyRange_stack (a b : Nat) (f : Tcb → Tcb) : (s.modifyRange a b f).stack = s.stack := rfl
@[simp] theorem State.modifyRange_sp (a b : Nat) (f : Tcb → Tcb) : (s.modifyRange a b f).sp = s.sp := rfl
@[simp] theorem State.modifyRange_pc (a b : Nat) (f : Tcb → Tcb) : (s.modifyRange a b f).pc = s.pc := rfl
@[simp] theorem State.modifyRange_segment (a b : Nat) (f : Tcb → Tcb) : (s.modifyRange a b f).segment = s.segment := rfl
@[simp] theorem State.modifyRange_cur (a b : Nat) (f : Tcb → Tcb) : (s.modifyRange a b f).cur = s.cur := rfl
@[simp] theorem State.modifyRange_fault (a b : Nat) (f : Tcb → Tcb) : (s.modifyRange a b f).fault = s.fault := rfl
@[simp] theorem State.modifyRange_events (a b : Nat) (f : Tcb → Tcb) : (s.modifyRange a b f).events = s.events := rfl
@[simp] theorem State.modifyRange_phase (a b : Nat) (f : Tcb → Tcb) : (s.modifyRange a b f).phase = s.phase := rfl
@[simp] theorem State.modifyRange_passNow (a b : Nat) (f : Tcb → Tcb) : (s.modifyRange a b f).passNow = s.passNow := rfl
@[simp] theorem State.modifyRange_passMark (a b : Nat) (f : Tcb → Tcb) : (s.modifyRange a b f).passMark = s.passMark := rfl
@[simp] theorem State.modifyRange_opStart (a b : Nat) (f : Tcb → Tcb) : (s.modifyRange a b f).opStart = s.opStart := rfl
@[simp] theorem State.modifyRange_hostQueue (a b : Nat) (f : Tcb → Tcb) : (s.modifyRange a b f).hostQueue = s.hostQueue := rfl
@[simp] theorem State.modifyRange_results (a b : Nat) (f : Tcb → Tcb) : (s.modifyRange a b f).results = s.results := rfl
@[simp] theorem State.modifyRange_freeCount (a b : Nat) (f : Tcb → Tcb) : (s.modifyRange a b f).freeCount = s.freeCount := rfl

@[simp] theorem State.takeFault_params (r : FaultRecord) : (s.takeFault r).params = s.params := rfl
@[simp] theorem State.takeFault_segment (r : FaultRecord) : (s.takeFault r).segment = s.segment := rfl
@[simp] theorem State.takeFault_fault (r : FaultRecord) : (s.takeFault r).fault = some r := rfl
@[simp] theorem State.takeFault_phase (r : FaultRecord) : (s.takeFault r).phase = .idle := rfl
@[simp] theorem State.takeFault_passNow (r : FaultRecord) : (s.takeFault r).passNow = s.passNow := rfl
@[simp] theorem State.takeFault_passMark (r : FaultRecord) : (s.takeFault r).passMark = s.passMark := rfl
@[simp] theorem State.takeFault_opStart (r : FaultRecord) : (s.takeFault r).opStart = s.opStart := rfl
@[simp] theorem State.takeFault_hostQueue (r : FaultRecord) : (s.takeFault r).hostQueue = s.hostQueue := rfl
@[simp] theorem State.takeFault_results (r : FaultRecord) : (s.takeFault r).results = s.results := rfl
@[simp] theorem State.takeFault_freeCount (r : FaultRecord) : (s.takeFault r).freeCount = s.freeCount + 1 := rfl

@[simp] theorem State.raise_params (c : FaultCause) : (s.raise c).params = s.params := rfl
@[simp] theorem State.raise_segment (c : FaultCause) : (s.raise c).segment = s.segment := rfl
@[simp] theorem State.raise_fault (c : FaultCause) : (s.raise c).fault = some (s.faultRecord c) := rfl
@[simp] theorem State.raise_phase (c : FaultCause) : (s.raise c).phase = .idle := rfl
@[simp] theorem State.raise_passNow (c : FaultCause) : (s.raise c).passNow = s.passNow := rfl
@[simp] theorem State.raise_passMark (c : FaultCause) : (s.raise c).passMark = s.passMark := rfl
@[simp] theorem State.raise_opStart (c : FaultCause) : (s.raise c).opStart = s.opStart := rfl
@[simp] theorem State.raise_hostQueue (c : FaultCause) : (s.raise c).hostQueue = s.hostQueue := rfl
@[simp] theorem State.raise_results (c : FaultCause) : (s.raise c).results = s.results := rfl
@[simp] theorem State.raise_freeCount (c : FaultCause) : (s.raise c).freeCount = s.freeCount + 1 := rfl

@[simp] theorem State.fetched_params (op : Byte) (n : Nat) : (s.fetched op n).params = s.params := rfl
@[simp] theorem State.fetched_regs (op : Byte) (n : Nat) : (s.fetched op n).regs = s.regs := rfl
@[simp] theorem State.fetched_stack (op : Byte) (n : Nat) : (s.fetched op n).stack = s.stack := rfl
@[simp] theorem State.fetched_sp (op : Byte) (n : Nat) : (s.fetched op n).sp = s.sp := rfl
@[simp] theorem State.fetched_pc (op : Byte) (n : Nat) : (s.fetched op n).pc = s.pc + BitVec.ofNat 16 n := rfl
@[simp] theorem State.fetched_segment (op : Byte) (n : Nat) : (s.fetched op n).segment = s.segment := rfl
@[simp] theorem State.fetched_cur (op : Byte) (n : Nat) : (s.fetched op n).cur = s.cur := rfl
@[simp] theorem State.fetched_fault (op : Byte) (n : Nat) : (s.fetched op n).fault = s.fault := rfl
@[simp] theorem State.fetched_events (op : Byte) (n : Nat) : (s.fetched op n).events = s.events := rfl
@[simp] theorem State.fetched_phase (op : Byte) (n : Nat) : (s.fetched op n).phase = s.phase := rfl
@[simp] theorem State.fetched_passNow (op : Byte) (n : Nat) : (s.fetched op n).passNow = s.passNow := rfl
@[simp] theorem State.fetched_passMark (op : Byte) (n : Nat) : (s.fetched op n).passMark = s.passMark := rfl
@[simp] theorem State.fetched_opStart (op : Byte) (n : Nat) : (s.fetched op n).opStart = s.pc := rfl
@[simp] theorem State.fetched_hostQueue (op : Byte) (n : Nat) : (s.fetched op n).hostQueue = s.hostQueue := rfl
@[simp] theorem State.fetched_results (op : Byte) (n : Nat) : (s.fetched op n).results = s.results := rfl
@[simp] theorem State.fetched_freeCount (op : Byte) (n : Nat) : (s.fetched op n).freeCount = s.freeCount := rfl

@[simp] theorem State.beginSlice_params (t : Fin 64) : (s.beginSlice t).params = s.params := rfl
@[simp] theorem State.beginSlice_regs (t : Fin 64) : (s.beginSlice t).regs = s.regs := rfl
@[simp] theorem State.beginSlice_stack (t : Fin 64) : (s.beginSlice t).stack = s.stack := rfl
@[simp] theorem State.beginSlice_pc (t : Fin 64) : (s.beginSlice t).pc = (s.tcb t).currentPc := rfl
@[simp] theorem State.beginSlice_segment (t : Fin 64) : (s.beginSlice t).segment = s.segment := rfl
@[simp] theorem State.beginSlice_cur (t : Fin 64) : (s.beginSlice t).cur = t := rfl
@[simp] theorem State.beginSlice_fault (t : Fin 64) : (s.beginSlice t).fault = s.fault := rfl
@[simp] theorem State.beginSlice_events (t : Fin 64) : (s.beginSlice t).events = s.events := rfl
@[simp] theorem State.beginSlice_phase (t : Fin 64) : (s.beginSlice t).phase = .slice := rfl
@[simp] theorem State.beginSlice_passNow (t : Fin 64) : (s.beginSlice t).passNow = s.passNow := rfl
@[simp] theorem State.beginSlice_passMark (t : Fin 64) : (s.beginSlice t).passMark = s.passMark := rfl
@[simp] theorem State.beginSlice_opStart (t : Fin 64) : (s.beginSlice t).opStart = s.opStart := rfl
@[simp] theorem State.beginSlice_hostQueue (t : Fin 64) : (s.beginSlice t).hostQueue = s.hostQueue := rfl
@[simp] theorem State.beginSlice_results (t : Fin 64) : (s.beginSlice t).results = s.results := rfl
@[simp] theorem State.beginSlice_freeCount (t : Fin 64) : (s.beginSlice t).freeCount = s.freeCount := rfl

@[simp] theorem State.endPass_params : (s.endPass).params = s.params := rfl
@[simp] theorem State.endPass_regs : (s.endPass).regs = s.regs := rfl
@[simp] theorem State.endPass_tcbs : (s.endPass).tcbs = s.tcbs := rfl
@[simp] theorem State.endPass_stack : (s.endPass).stack = s.stack := rfl
@[simp] theorem State.endPass_sp : (s.endPass).sp = s.sp := rfl
@[simp] theorem State.endPass_pc : (s.endPass).pc = s.pc := rfl
@[simp] theorem State.endPass_segment : (s.endPass).segment = s.segment := rfl
@[simp] theorem State.endPass_cur : (s.endPass).cur = s.cur := rfl
@[simp] theorem State.endPass_fault : (s.endPass).fault = s.fault := rfl
@[simp] theorem State.endPass_events : (s.endPass).events = s.events := rfl
@[simp] theorem State.endPass_phase : (s.endPass).phase = .idle := rfl
@[simp] theorem State.endPass_passNow : (s.endPass).passNow = s.passNow := rfl
@[simp] theorem State.endPass_passMark : (s.endPass).passMark = s.passMark := rfl
@[simp] theorem State.endPass_opStart : (s.endPass).opStart = s.opStart := rfl
@[simp] theorem State.endPass_hostQueue : (s.endPass).hostQueue = s.hostQueue := rfl
@[simp] theorem State.endPass_freeCount : (s.endPass).freeCount = s.freeCount := rfl

@[simp] theorem State.endUnpack_params (r : HostResult) : (s.endUnpack r).params = s.params := rfl
@[simp] theorem State.endUnpack_regs (r : HostResult) : (s.endUnpack r).regs = s.regs := rfl
@[simp] theorem State.endUnpack_tcbs (r : HostResult) : (s.endUnpack r).tcbs = s.tcbs := rfl
@[simp] theorem State.endUnpack_stack (r : HostResult) : (s.endUnpack r).stack = s.stack := rfl
@[simp] theorem State.endUnpack_sp (r : HostResult) : (s.endUnpack r).sp = s.sp := rfl
@[simp] theorem State.endUnpack_pc (r : HostResult) : (s.endUnpack r).pc = s.pc := rfl
@[simp] theorem State.endUnpack_segment (r : HostResult) : (s.endUnpack r).segment = s.segment := rfl
@[simp] theorem State.endUnpack_cur (r : HostResult) : (s.endUnpack r).cur = s.cur := rfl
@[simp] theorem State.endUnpack_fault (r : HostResult) : (s.endUnpack r).fault = s.fault := rfl
@[simp] theorem State.endUnpack_events (r : HostResult) : (s.endUnpack r).events = s.events := rfl
@[simp] theorem State.endUnpack_phase (r : HostResult) : (s.endUnpack r).phase = .idle := rfl
@[simp] theorem State.endUnpack_passNow (r : HostResult) : (s.endUnpack r).passNow = s.passNow := rfl
@[simp] theorem State.endUnpack_passMark (r : HostResult) : (s.endUnpack r).passMark = s.passMark := rfl
@[simp] theorem State.endUnpack_opStart (r : HostResult) : (s.endUnpack r).opStart = s.opStart := rfl
@[simp] theorem State.endUnpack_hostQueue (r : HostResult) : (s.endUnpack r).hostQueue = s.hostQueue := rfl
@[simp] theorem State.endUnpack_results (r : HostResult) : (s.endUnpack r).results = s.results ++ [r] := rfl
@[simp] theorem State.endUnpack_freeCount (r : HostResult) : (s.endUnpack r).freeCount = s.freeCount := rfl

@[simp] theorem State.setByteCode_params (bs : List Byte) : (s.setByteCode bs).params = s.params := rfl
@[simp] theorem State.setByteCode_regs (bs : List Byte) : (s.setByteCode bs).regs = s.params.regReset := rfl
@[simp] theorem State.setByteCode_tcbs (bs : List Byte) : (s.setByteCode bs).tcbs = TcbBank.reset := rfl
@[simp] theorem State.setByteCode_stack (bs : List Byte) : (s.setByteCode bs).stack = Vector.replicate 256 0 := rfl
@[simp] theorem State.setByteCode_sp (bs : List Byte) : (s.setByteCode bs).sp = 0 := rfl
@[simp] theorem State.setByteCode_pc (bs : List Byte) : (s.setByteCode bs).pc = 0 := rfl
@[simp] theorem State.setByteCode_segment (bs : List Byte) : (s.setByteCode bs).segment = some (Memory.ofBytes bs) := rfl
@[simp] theorem State.setByteCode_cur (bs : List Byte) : (s.setByteCode bs).cur = 0 := rfl
@[simp] theorem State.setByteCode_fault (bs : List Byte) : (s.setByteCode bs).fault = s.fault := rfl
@[simp] theorem State.setByteCode_events (bs : List Byte) : (s.setByteCode bs).events = s.events := rfl
@[simp] theorem State.setByteCode_phase (bs : List Byte) : (s.setByteCode bs).phase = s.phase := rfl
@[simp] theorem State.setByteCode_passNow (bs : List Byte) : (s.setByteCode bs).passNow = s.passNow := rfl
@[simp] theorem State.setByteCode_passMark (bs : List Byte) : (s.setByteCode bs).passMark = s.passMark := rfl
@[simp] theorem State.setByteCode_opStart (bs : List Byte) : (s.setByteCode bs).opStart = s.opStart := rfl
@[simp] theorem State.setByteCode_hostQueue (bs : List Byte) : (s.setByteCode bs).hostQueue = s.hostQueue := rfl
@[simp] theorem State.setByteCode_results (bs : List Byte) : (s.setByteCode bs).results = s.results := rfl
@[simp] theorem State.setByteCode_freeCount (bs : List Byte) : (s.setByteCode bs).freeCount = s.freeCount := rfl

/-! Reading through an update that does not touch what is read. -/

@[simp] theorem State.setReg_segByte (i : Byte) (v : Word) (o : Word) : (s.setReg i v).segByte o = s.segByte o := rfl
@[simp] theorem State.setReg_tcb (i : Byte) (v : Word) (k : Fin 64) : (s.setReg i v).tcb k = s.tcb k := rfl
@[simp] theorem State.seek_segByte (p o : Word) : (s.seek p).segByte o = s.segByte o := rfl
@[simp] theorem State.seek_reg (o : Word) (j : Byte) : (s.seek o).reg j = s.reg j := rfl
@[simp] theorem State.seek_tcb (o : Word) (k : Fin 64) : (s.seek o).tcb k = s.tcb k := rfl
@[simp] theorem State.emit_segByte (e : Event) (o : Word) : (s.emit e).segByte o = s.segByte o := rfl
@[simp] theorem State.emit_reg (e : Event) (j : Byte) : (s.emit e).reg j = s.reg j := rfl
@[simp] theorem State.emit_tcb (e : Event) (k : Fin 64) : (s.emit e).tcb k = s.tcb k := rfl
@[simp] theorem State.modifyTcb_segByte (t : Fin 64) (f : Tcb → Tcb) (o : Word) : (s.modifyTcb t f).segByte o = s.segByte o := rfl
@[simp] theorem State.modifyTcb_reg (t : Fin 64) (f : Tcb → Tcb) (j : Byte) : (s.modifyTcb t f).reg j = s.reg j := rfl
@[simp] theorem State.modifyRange_segByte (a b : Nat) (f : Tcb → Tcb) (o : Word) : (s.modifyRange a b f).segByte o = s.segByte o := rfl
@[simp] theorem State.modifyRange_reg (a b : Nat) (f : Tcb → Tcb) (j : Byte) : (s.modifyRange a b f).reg j = s.reg j := rfl
@[simp] theorem State.takeFault_segByte (r : FaultRecord) (o : Word) : (s.takeFault r).segByte o = s.segByte o := rfl
@[simp] theorem State.raise_segByte (c : FaultCause) (o : Word) : (s.raise c).segByte o = s.segByte o := rfl
@[simp] theorem State.fetched_segByte (op : Byte) (n : Nat) (o : Word) : (s.fetched op n).segByte o = s.segByte o := rfl
@[simp] theorem State.fetched_reg (op : Byte) (n : Nat) (j : Byte) : (s.fetched op n).reg j = s.reg j := rfl
@[simp] theorem State.beginSlice_segByte (t : Fin 64) (o : Word) : (s.beginSlice t).segByte o = s.segByte o := rfl
@[simp] theorem State.beginSlice_reg (t : Fin 64) (j : Byte) : (s.beginSlice t).reg j = s.reg j := rfl
@[simp] theorem State.endPass_segByte (o : Word) : (s.endPass).segByte o = s.segByte o := rfl
@[simp] theorem State.endPass_reg (j : Byte) : (s.endPass).reg j = s.reg j := rfl
@[simp] theorem State.endPass_tcb (k : Fin 64) : (s.endPass).tcb k = s.tcb k := rfl
@[simp] theorem State.endUnpack_segByte (r : HostResult) (o : Word) : (s.endUnpack r).segByte o = s.segByte o := rfl
@[simp] theorem State.endUnpack_reg (r : HostResult) (j : Byte) : (s.endUnpack r).reg j = s.reg j := rfl
@[simp] theorem State.endUnpack_tcb (r : HostResult) (k : Fin 64) : (s.endUnpack r).tcb k = s.tcb k := rfl

end Sys2Proof.Machine
end

