-- ==== Sys2Proof/Laws/Ops.lean ====
section
/-! SUPPORT. One lemma per shared operation that says what it can do. -/

namespace Sys2Proof.Machine

/-! ## Registers -/

@[simp] theorem State.reg_setReg_self (s : State) (i : Byte) (v : Word) : (s.setReg i v).reg i = v := by
  simp [State.reg, State.setReg]

theorem State.reg_setReg_ne (s : State) {i j : Byte} (h : j ≠ i) (v : Word) : (s.setReg i v).reg j = s.reg j := by
  have hne : i.toNat ≠ j.toNat := fun e => h (BitVec.eq_of_toNat_eq e.symm)
  simp [State.reg, State.setReg, hne]

theorem State.setReg_onlyRegister (s : State) (i : Byte) (v : Word) : OnlyRegister i s (s.setReg i v) :=
  ⟨fun _ h => s.reg_setReg_ne h v, rfl, fun _ => rfl⟩

/-! ## Thread control blocks -/

@[simp] theorem State.tcb_modifyTcb_self (s : State) (t : Fin 64) (f : Tcb → Tcb) :
    (s.modifyTcb t f).tcb t = f (s.tcb t) := by
  simp [State.tcb, State.modifyTcb]

theorem State.tcb_modifyTcb_ne (s : State) {t k : Fin 64} (h : k ≠ t) (f : Tcb → Tcb) :
    (s.modifyTcb t f).tcb k = s.tcb k := by
  have hne : t.val ≠ k.val := fun e => h (Fin.ext e.symm)
  simp [State.tcb, State.modifyTcb, hne]

theorem State.tcb_modifyTcb (s : State) (t k : Fin 64) (f : Tcb → Tcb) :
    (s.modifyTcb t f).tcb k = if k = t then f (s.tcb t) else s.tcb k := by
  split
  · rename_i h; subst h; simp
  · rename_i h; exact s.tcb_modifyTcb_ne h f

theorem getElem_mapRange (f : Tcb → Tcb) (n first : Nat) (x : TcbBank) (k : Nat) (hk : k < 64) :
    (mapRange f n first x)[k] = if first ≤ k ∧ k < first + n then f x[k] else x[k] := by
  induction n generalizing first x with
  | zero => simp only [mapRange]; rw [if_neg (by omega)]
  | succ n ih =>
    simp only [mapRange]
    rw [ih]
    by_cases h : first < 64
    · simp only [h, dif_pos, Vector.getElem_set]
      by_cases hkf : first = k
      · subst hkf; simp
      · have : (first + 1 ≤ k ∧ k < first + 1 + n) ↔ (first ≤ k ∧ k < first + (n + 1)) := by omega
        simp only [hkf, if_false, this]
    · simp only [h, dif_neg, not_false_eq_true]
      rw [if_neg (by omega), if_neg (by omega)]

theorem State.tcb_modifyRange (s : State) (a b : Nat) (f : Tcb → Tcb) (k : Fin 64) :
    (s.modifyRange a b f).tcb k = if a ≤ k.val ∧ k.val ≤ b then f (s.tcb k) else s.tcb k := by
  have h := getElem_mapRange f (b + 1 - a) a s.tcbs k.val k.isLt
  have e : (a ≤ k.val ∧ k.val < a + (b + 1 - a)) ↔ (a ≤ k.val ∧ k.val ≤ b) := by omega
  simp only [e] at h
  exact h

theorem State.tcb_fetched (s : State) (op : Byte) (n : Nat) (k : Fin 64) :
    (s.fetched op n).tcb k = if k = s.cur then { s.tcb k with opcode := op } else s.tcb k := by
  have h := s.tcb_modifyTcb s.cur k (fun c => { c with opcode := op })
  have e : (s.fetched op n).tcb k = (s.modifyTcb s.cur (fun c => { c with opcode := op })).tcb k := rfl
  rw [e, h]
  split
  · rename_i hk; subst hk; rfl
  · rfl

theorem State.tcb_beginSlice (s : State) (t k : Fin 64) :
    (s.beginSlice t).tcb k = if k = t then { s.tcb k with yield := false } else s.tcb k := by
  have h := s.tcb_modifyTcb t k (fun c => { c with yield := false })
  have e : (s.beginSlice t).tcb k = (s.modifyTcb t (fun c => { c with yield := false })).tcb k := rfl
  rw [e, h]
  split
  · rename_i hk; subst hk; rfl
  · rfl

/-! ## The call stack -/

/-- A push that does not overflow: the entry at the old index, the index one up, nothing else. -/
theorem State.push_some {s t : State} {v : Word} (h : s.push v = some t) :
    s.sp.val < 256 ∧ t.sp.val = s.sp.val + 1 ∧ t.stack[s.sp.val]? = some v ∧
      (∀ k, k ≠ s.sp.val → t.stack[k]? = s.stack[k]?) ∧ t = { s with stack := t.stack, sp := t.sp } := by
  unfold State.push at h
  split at h
  · rename_i hsp
    cases h
    refine ⟨hsp, rfl, ?_, ?_, rfl⟩
    · simp
    · intro k hk
      simp [Ne.symm hk]
  · cases h

theorem State.push_none_iff (s : State) (v : Word) : s.push v = none ↔ s.sp.val = 256 := by
  have := s.sp.isLt
  unfold State.push
  split <;> simp <;> omega

theorem State.push_isSome (s : State) (v : Word) (h : s.sp.val < 256) : ∃ t, s.push v = some t := by
  simp [State.push, h]

/-- A pop that does not underflow: the entry below the index, the index one down, nothing else. -/
theorem State.pop_some {s t : State} {v : Word} (h : s.pop = some (v, t)) :
    0 < s.sp.val ∧ t.sp.val = s.sp.val - 1 ∧ s.stack[s.sp.val - 1]? = some v ∧ t = { s with sp := t.sp } := by
  have := s.sp.isLt
  unfold State.pop at h
  split at h
  · cases h
  · rename_i hsp
    cases h
    refine ⟨by omega, rfl, ?_, rfl⟩
    rw [Vector.getElem?_eq_getElem (by omega)]

theorem State.pop_none_iff (s : State) : s.pop = none ↔ s.sp.val = 0 := by
  unfold State.pop
  split <;> simp_all

theorem State.pop_isSome (s : State) (h : 0 < s.sp.val) : ∃ v t, s.pop = some (v, t) := by
  have : ¬ s.sp.val = 0 := by omega
  simp [State.pop, this]

/-! ## Conditions -/

theorem conditionCode_toNat (v : Byte) : (conditionCode v).toNat = v.toNat % 8 := by
  simp [conditionCode, BitVec.extractLsb'_toNat]

theorem condition_eq_none_iff (cc : BitVec 3) (b a : Int) : condition cc b a = none ↔ 6 ≤ cc.toNat := by
  have := cc.isLt
  unfold condition
  split <;> simp_all
  omega

/-! ## What an instruction can do -/

/-- Every outcome of `exec` is a next state of one of these shapes. -/
inductive ExecShape (s : State) : State → Prop
  | same : ExecShape s s
  | reg (i : Byte) (v : Word) : ExecShape s (s.setReg i v)
  | regSeek (i : Byte) (v o : Word) : ExecShape s ((s.setReg i v).seek o)
  | seek (o : Word) : ExecShape s (s.seek o)
  | pushed (v o : Word) (t : State) : s.push v = some t → ExecShape s (t.seek o)
  | popped (v : Word) (t : State) : s.pop = some (v, t) → ExecShape s (t.seek v)
  | emitted (e : Event) : ExecShape s (s.emit e)
  | request (t : Fin 64) (n : Word) : ExecShape s (s.modifyTcb t fun c => { c with requestedPc := n })
  | range (a b : Nat) (st : Byte) : st.toNat < 3 → ExecShape s (s.modifyRange a b (Tcb.request st))
  | ended (o : Word) : ExecShape s ((s.seek o).modifyTcb s.cur fun c => { c with yield := true })
  | raised (c : FaultCause) : ExecShape s (s.raise c)

theorem exec_shape (i : Instr) (s : State) : ∃ t, exec i s = .next t ∧ ExecShape s t := by
  cases i with
  | movi d n => exact ⟨_, rfl, .reg _ _⟩
  | movr d src => exact ⟨_, rfl, .reg _ _⟩
  | addr d src => exact ⟨_, rfl, .reg _ _⟩
  | addi d n => exact ⟨_, rfl, .reg _ _⟩
  | subr d src => exact ⟨_, rfl, .reg _ _⟩
  | andi d n => exact ⟨_, rfl, .reg _ _⟩
  | iori d n => exact ⟨_, rfl, .reg _ _⟩
  | shli d n => exact ⟨_, rfl, .reg _ _⟩
  | shri d n => exact ⟨_, rfl, .reg _ _⟩
  | call tgt =>
    simp only [exec, execCall]
    split
    · rename_i t h; exact ⟨_, rfl, .pushed _ _ t h⟩
    · exact ⟨_, rfl, .raised _⟩
  | ret =>
    simp only [exec, execRet]
    split
    · rename_i v t h; exact ⟨_, rfl, .popped v t h⟩
    · exact ⟨_, rfl, .raised _⟩
  | yield => exact ⟨_, rfl, .ended s.pc⟩
  | kill => exact ⟨_, rfl, .ended _⟩
  | jump tgt => exact ⟨_, rfl, .seek _⟩
  | init t tgt =>
    simp only [exec, execInit]
    split
    · exact ⟨_, rfl, .request _ _⟩
    · exact ⟨_, rfl, .raised _⟩
  | djnz r tgt =>
    simp only [exec, execDjnz]
    split
    · exact ⟨_, rfl, .regSeek _ _ _⟩
    · exact ⟨_, rfl, .reg _ _⟩
  | cjmp v r rhs tgt =>
    simp only [exec, execCjmp]
    split
    · exact ⟨_, rfl, .raised _⟩
    · exact ⟨_, rfl, .seek _⟩
    · exact ⟨_, rfl, .same⟩
  | reset first last state =>
    simp only [exec, execReset]
    split
    · exact ⟨_, rfl, .raised _⟩
    · split
      · exact ⟨_, rfl, .raised _⟩
      · exact ⟨_, rfl, .range _ _ _ (by omega)⟩
  | palette w => exact ⟨_, rfl, .emitted _⟩
  | page p => exact ⟨_, rfl, .emitted _⟩
  | fill p c => exact ⟨_, rfl, .emitted _⟩
  | copy src dst => exact ⟨_, rfl, .emitted _⟩
  | blit p => exact ⟨_, rfl, .emitted _⟩
  | print id x y c => exact ⟨_, rfl, .emitted _⟩
  | sound id f v c => exact ⟨_, rfl, .emitted _⟩
  | loadres id => exact ⟨_, rfl, .emitted _⟩
  | music id d p => exact ⟨_, rfl, .emitted _⟩
  | invalid1B => exact ⟨_, rfl, .raised _⟩
  | invalid1C low => exact ⟨_, rfl, .raised _⟩
  | invalid20 low => exact ⟨_, rfl, .raised _⟩
  | poly40 m hi lo x y z => exact ⟨_, rfl, .emitted _⟩
  | poly80 h lo x y => exact ⟨_, rfl, .emitted _⟩

/-- What `exec` answers has one of the shapes. -/
theorem exec_next_shape {i : Instr} {s t : State} (h : exec i s = .next t) : ExecShape s t := by
  obtain ⟨u, hu, hs⟩ := exec_shape i s
  rw [hu] at h
  cases h
  exact hs

/-! ## What a step can do -/

/-- If a step answers a next state, the block has not faulted and one of these cases holds. -/
inductive StepCase (s t : State) : Prop
  | waiting : s.phase = .idle → s.hostQueue = [] → t = s → StepCase s t
  | call (c : HostCall) (cs : List HostCall) : s.phase = .idle → s.hostQueue = c :: cs →
      hostCall c { s with hostQueue := cs } = .next t → StepCase s t
  | scanned (k : Nat) : s.phase = .scan k → t = s.scanThread k → StepCase s t
  | opcode (i : Instr) (rest : List Byte) (u : State) : s.phase = .slice → decode s.window = .ok (i, rest) →
      exec i (s.fetched i.opcodeByte (s.window.length - rest.length)) = .next u → t = u.endOpcode → StepCase s t
  | missing (e : DecodeError) : s.phase = .slice → decode s.window = .error e →
      t = s.takeFault s.fetchFaultRecord → StepCase s t
  | unpacked (d : Decomp) : s.phase = .unpack d → t = s.unpackStep d → StepCase s t

theorem step_next_cases {s t : State} (h : step s = .next t) : s.fault = none ∧ StepCase s t := by
  unfold step at h
  split at h
  · cases h
  · rename_i hf
    refine ⟨hf, ?_⟩
    split at h
    · rename_i hp
      unfold hostStep at h
      split at h
      · rename_i hq; cases h; exact .waiting hp hq rfl
      · rename_i c cs hq; exact .call c cs hp hq h
    · rename_i k hp; cases h; exact .scanned k hp rfl
    · rename_i hp
      simp only [fetchInstr] at h
      cases hd : decode s.window with
      | ok p =>
        obtain ⟨i, rest⟩ := p
        obtain ⟨v, hv, _⟩ := exec_shape i (s.fetched i.opcodeByte (s.window.length - rest.length))
        simp only [hd, hv] at h
        cases h
        exact .opcode i rest v hp hd hv rfl
      | error e =>
        simp only [hd] at h
        cases h
        exact .missing e hp hd rfl
    · rename_i d hp; cases h; exact .unpacked d hp rfl

/-! ## The segment -/

/-- The bytes that `segBytes` gives all exist, and where it gives fewer than asked the next one does not. -/
theorem State.segBytes_spec (s : State) (n : Nat) (a : Word) :
    (s.segBytes n a).length ≤ n ∧
      (∀ j, j < (s.segBytes n a).length → (s.segByte (a + BitVec.ofNat 16 j)).isSome = true) ∧
      ((s.segBytes n a).length < n → s.segByte (a + BitVec.ofNat 16 (s.segBytes n a).length) = none) := by
  induction n generalizing a with
  | zero => simp [State.segBytes]
  | succ n ih =>
    simp only [State.segBytes]
    split
    · rename_i h
      simp [h]
    · rename_i b h
      obtain ⟨h1, h2, h3⟩ := ih (a + 1)
      have e : ∀ j, a + BitVec.ofNat 16 (j + 1) = a + 1 + BitVec.ofNat 16 j := by
        intro j
        apply BitVec.eq_of_toNat_eq
        simp
        omega
      refine ⟨by simpa using h1, ?_, ?_⟩
      · intro j hj
        cases j with
        | zero => simp [h]
        | succ j => rw [e]; exact h2 j (by simpa using hj)
      · intro hl
        simp only [List.length_cons] at hl ⊢
        rw [e]
        exact h3 (by omega)

theorem State.segBytes_getElem? (s : State) {n j : Nat} {a : Word} (h : j < (s.segBytes n a).length) :
    (s.segBytes n a)[j]? = s.segByte (a + BitVec.ofNat 16 j) := by
  induction n generalizing a j with
  | zero => simp [State.segBytes] at h
  | succ n ih =>
    simp only [State.segBytes] at h ⊢
    split
    · rename_i hn
      simp [hn] at h
    · rename_i b hb
      simp only [hb] at h
      cases j with
      | zero => simp [hb]
      | succ j =>
        have e : a + BitVec.ofNat 16 (j + 1) = a + 1 + BitVec.ofNat 16 j := by
          apply BitVec.eq_of_toNat_eq
          simp
          omega
        rw [e, ← ih (by simpa using h)]
        simp

theorem State.segBytes_head (s : State) (n : Nat) (a : Word) : (s.segBytes (n + 1) a).head? = s.segByte a := by
  simp only [State.segBytes]
  split <;> simp_all

/-! ## Raising a fault, and the end of an opcode -/

theorem State.raise_faultedBy (s : State) (c : FaultCause) : FaultedBy c s (s.raise c) :=
  ⟨rfl, rfl, rfl, rfl, fun _ => rfl⟩

theorem State.endOpcode_fault (t : State) : t.endOpcode.fault = t.fault := by
  unfold State.endOpcode
  split
  · rfl
  · simp only
    split <;> rfl

/-- What the pass does after an opcode that did not fault. -/
theorem State.endOpcode_spec {t : State} (h : t.fault = none) :
    (∀ k, t.endOpcode.tcb k = if k = t.cur then { t.tcb k with currentPc := t.pc } else t.tcb k) ∧
      t.endOpcode.phase = (if (t.tcb t.cur).yield = true then .scan (t.cur.val + 1) else t.phase) ∧
      t.endOpcode = { t with tcbs := t.endOpcode.tcbs, phase := t.endOpcode.phase } := by
  have hs : ¬ t.fault.isSome = true := by simp [h]
  unfold State.endOpcode
  rw [if_neg hs]
  simp only
  refine ⟨fun k => ?_, ?_, ?_⟩
  · have hm := t.tcb_modifyTcb t.cur k (fun c => { c with currentPc := t.pc })
    by_cases hk : k = t.cur
    · subst hk
      simp only [if_true] at hm ⊢
      split <;> exact hm
    · simp only [hk, if_false] at hm ⊢
      split <;> exact hm
  · split <;> simp
  · split <;> rfl

/-! ## The input copy (R131) -/

theorem getElem_copyReserved (mapped : RegBank) (is : List Byte) (x : RegBank) (j : Byte) :
    (copyReserved mapped is x)[j.toNat]'(j.isLt) = if j ∈ is then mapped[j.toNat]'(j.isLt) else x[j.toNat]'(j.isLt) := by
  induction is generalizing x with
  | nil => simp [copyReserved]
  | cons i is ih =>
    simp only [copyReserved, ih]
    by_cases h : j ∈ is
    · simp [h]
    · by_cases hij : i = j
      · subst hij
        simp [h]
      · have hne : i.toNat ≠ j.toNat := fun e => hij (BitVec.eq_of_toNat_eq e)
        simp [h, hne, Ne.symm hij]

/-- After the input copy a reserved register holds what `INPUT_MAP` gives it, any other what it held. -/
theorem getElem_inputCopy (p : Config.Params) (input : Snapshot) (x : RegBank) (j : Byte) :
    (inputCopy p input x)[j.toNat]'(j.isLt) =
      if j ∈ p.reserved then (applyInputMap p.inputMap input x)[j.toNat]'(j.isLt) else x[j.toNat]'(j.isLt) :=
  getElem_copyReserved _ _ _ _

end Sys2Proof.Machine
end

