-- ==== Sys2Proof/Laws/PerInstr.lean ====
section
/-! SUPPORT. Statements about every instruction, one lemma per constructor of Instr. -/

namespace Sys2Proof.Laws.EncodedLength

/-- A well-formed instruction is encoded in as many bytes as the opcode map says (R93, R95, R99), 1 to 8 (R90). -/
def Statement (i : Instr) : Prop :=
  i.wellFormed = true → (encode i).length = i.byteLength ∧ 1 ≤ i.byteLength ∧ i.byteLength ≤ 8

theorem modeX (m : BitVec 6) : m.extractLsb' 4 2 = 0 ↔ (m.getLsbD 5 = false ∧ m.getLsbD 4 = false) := by
  revert m; decide

theorem modeY (m : BitVec 6) : m.extractLsb' 2 2 = 0 ↔ (m.getLsbD 3 = false ∧ m.getLsbD 2 = false) := by
  revert m; decide

theorem modeZ (m : BitVec 6) :
    (m.extractLsb' 0 2 = 1 ∨ m.extractLsb' 0 2 = 2) ↔ (m.getLsbD 1 ≠ m.getLsbD 0) := by
  revert m; decide

theorem movi (d : Byte) (n : Word) : Statement (.movi d n) := fun _ => by simp [encode, Instr.operandBytes, Instr.byteLength, wordBytes]
theorem movr (d s : Byte) : Statement (.movr d s) := fun _ => by simp [encode, Instr.operandBytes, Instr.byteLength]
theorem addr (d s : Byte) : Statement (.addr d s) := fun _ => by simp [encode, Instr.operandBytes, Instr.byteLength]
theorem addi (d : Byte) (n : Word) : Statement (.addi d n) := fun _ => by simp [encode, Instr.operandBytes, Instr.byteLength, wordBytes]
theorem call (tgt : Word) : Statement (.call tgt) := fun _ => by simp [encode, Instr.operandBytes, Instr.byteLength, wordBytes]
theorem ret : Statement (.ret) := fun _ => by simp [encode, Instr.operandBytes, Instr.byteLength]
theorem yield : Statement (.yield) := fun _ => by simp [encode, Instr.operandBytes, Instr.byteLength]
theorem jump (tgt : Word) : Statement (.jump tgt) := fun _ => by simp [encode, Instr.operandBytes, Instr.byteLength, wordBytes]
theorem init (t : Byte) (tgt : Word) : Statement (.init t tgt) := fun _ => by simp [encode, Instr.operandBytes, Instr.byteLength, wordBytes]
theorem djnz (r : Byte) (tgt : Word) : Statement (.djnz r tgt) := fun _ => by simp [encode, Instr.operandBytes, Instr.byteLength, wordBytes]
theorem cjmp (v r : Byte) (rhs : CmpOperand) (tgt : Word) : Statement (.cjmp v r rhs tgt) := by
  intro h
  simp only [Instr.wellFormed, CmpOperand.agrees] at h
  cases rhs <;> simp_all [encode, Instr.operandBytes, Instr.byteLength, CmpOperand.bytes, wordBytes]
theorem palette (w : Word) : Statement (.palette w) := fun _ => by simp [encode, Instr.operandBytes, Instr.byteLength, wordBytes]
theorem reset (first last state : Byte) : Statement (.reset first last state) := fun _ => by simp [encode, Instr.operandBytes, Instr.byteLength]
theorem page (p : Byte) : Statement (.page p) := fun _ => by simp [encode, Instr.operandBytes, Instr.byteLength]
theorem fill (p c : Byte) : Statement (.fill p c) := fun _ => by simp [encode, Instr.operandBytes, Instr.byteLength]
theorem copy (src dst : Byte) : Statement (.copy src dst) := fun _ => by simp [encode, Instr.operandBytes, Instr.byteLength]
theorem blit (p : Byte) : Statement (.blit p) := fun _ => by simp [encode, Instr.operandBytes, Instr.byteLength]
theorem kill : Statement (.kill) := fun _ => by simp [encode, Instr.operandBytes, Instr.byteLength]
theorem print (id : Word) (x y c : Byte) : Statement (.print id x y c) := fun _ => by simp [encode, Instr.operandBytes, Instr.byteLength, wordBytes]
theorem subr (d s : Byte) : Statement (.subr d s) := fun _ => by simp [encode, Instr.operandBytes, Instr.byteLength]
theorem andi (d : Byte) (n : Word) : Statement (.andi d n) := fun _ => by simp [encode, Instr.operandBytes, Instr.byteLength, wordBytes]
theorem iori (d : Byte) (n : Word) : Statement (.iori d n) := fun _ => by simp [encode, Instr.operandBytes, Instr.byteLength, wordBytes]
theorem shli (d : Byte) (n : Word) : Statement (.shli d n) := fun _ => by simp [encode, Instr.operandBytes, Instr.byteLength, wordBytes]
theorem shri (d : Byte) (n : Word) : Statement (.shri d n) := fun _ => by simp [encode, Instr.operandBytes, Instr.byteLength, wordBytes]
theorem sound (id : Word) (freq vol chan : Byte) : Statement (.sound id freq vol chan) := fun _ => by simp [encode, Instr.operandBytes, Instr.byteLength, wordBytes]
theorem loadres (id : Word) : Statement (.loadres id) := fun _ => by simp [encode, Instr.operandBytes, Instr.byteLength, wordBytes]
theorem music (id delay : Word) (pos : Byte) : Statement (.music id delay pos) := fun _ => by simp [encode, Instr.operandBytes, Instr.byteLength, wordBytes]
theorem invalid1B : Statement (.invalid1B) := fun _ => by simp [encode, Instr.operandBytes, Instr.byteLength]
theorem invalid1C (low : BitVec 2) : Statement (.invalid1C low) := fun _ => by simp [encode, Instr.operandBytes, Instr.byteLength]
theorem invalid20 (low : BitVec 5) : Statement (.invalid20 low) := fun _ => by simp [encode, Instr.operandBytes, Instr.byteLength]
theorem poly40 (mode : BitVec 6) (hi lo : Byte) (x : XField) (y : YField) (zoom : ZoomField) : Statement (.poly40 mode hi lo x y zoom) := by
  intro h
  simp only [Instr.wellFormed, Bool.and_eq_true] at h
  obtain ⟨⟨hx, hy⟩, hz⟩ := h
  have lx : x.bytes.length = if mode.extractLsb' 4 2 = 0 then 2 else 1 := by
    simp only [modeX]; cases x <;> simp_all [XField.agrees, XField.bytes, wordBytes]
  have ly : y.bytes.length = if mode.extractLsb' 2 2 = 0 then 2 else 1 := by
    simp only [modeY]; cases y <;> simp_all [YField.agrees, YField.bytes, wordBytes]
  have lz : zoom.bytes.length = if mode.extractLsb' 0 2 = 1 ∨ mode.extractLsb' 0 2 = 2 then 1 else 0 := by
    simp only [modeZ]; cases zoom <;> simp_all [ZoomField.agrees, ZoomField.bytes]
  simp only [encode, Instr.operandBytes, Instr.byteLength, List.length_cons, List.length_append, lx, ly, lz]
  split <;> split <;> split <;> simp
theorem poly80 (high : BitVec 7) (lo x y : Byte) : Statement (.poly80 high lo x y) := fun _ => by simp [encode, Instr.operandBytes, Instr.byteLength]

end Sys2Proof.Laws.EncodedLength
end

