-- ==== Sys2Proof/Tests/Slice0.lean ====
section
/-! SUPPORT. Tests: one word per instruction written out from the encoding, the vectors of 95_test_vectors.md that one step shows, and for each statement with hypotheses a state and operands that meet them. -/

namespace Sys2Proof.Tests

open Sys2Proof.Machine

/-! ## Helpers -/

/-- The block during a slice of thread 0, with a segment and nothing else changed since reset. -/
def slice (bytes : List Byte) : State := { State.reset with segment := some (Memory.ofBytes bytes), phase := .slice }

/-- The block between passes, with a segment and calls to come. -/
def idle (bytes : List Byte) (calls : List HostCall) : State :=
  { State.reset with segment := some (Memory.ofBytes bytes), hostQueue := calls }

/-- The block with no segment and calls to come. -/
def bare (calls : List HostCall) : State := { State.reset with hostQueue := calls }

/-- The next state, if there is one. -/
def next (r : Result) : Option State :=
  match r with
  | .next t => some t
  | .fault _ => none
  | .refused _ => none

/-- A thread control block with a given place and states. -/
def tcb (currentPc requestedPc : Word) (currentState requestedState : Byte) : Tcb :=
  { currentPc := currentPc, requestedPc := requestedPc, currentState := currentState, requestedState := requestedState,
    opcode := 0, yield := false }

/-- The block with one thread control block replaced. -/
def withTcb (s : State) (t : Fin 64) (c : Tcb) : State := s.modifyTcb t fun _ => c

/-- The cause that the fault state holds. -/
def cause (s : State) : Option FaultCause := s.fault.map FaultRecord.cause

/-! ## Well-formedness: each check refuses an ill-formed term -/

theorem test_wf_cmp_reg : Instr.wellFormed (.cjmp 0x80 1 (.reg 2) 0) = true ∧ Instr.wellFormed (.cjmp 0x40 1 (.reg 2) 0) = false := by decide
theorem test_wf_cmp_imm16 : Instr.wellFormed (.cjmp 0x40 1 (.imm16 2) 0) = true ∧ Instr.wellFormed (.cjmp 0xC0 1 (.imm16 2) 0) = false := by decide
theorem test_wf_cmp_imm8 : Instr.wellFormed (.cjmp 0x00 1 (.imm8 2) 0) = true ∧ Instr.wellFormed (.cjmp 0x40 1 (.imm8 2) 0) = false := by decide
theorem test_wf_poly40_x : Instr.wellFormed (.poly40 0x08 0 0 (.byte 1) (.byte 1) .unscaled) = false := by decide
theorem test_wf_poly40_y : Instr.wellFormed (.poly40 0x28 0 0 (.byte 1) (.imm16 1) .unscaled) = false := by decide
theorem test_wf_poly40_zoom : Instr.wellFormed (.poly40 0x28 0 0 (.byte 1) (.byte 1) (.reg 1)) = false := by decide
theorem test_wf_poly40 : Instr.wellFormed (.poly40 0x28 0 0 (.byte 1) (.byte 1) .unscaled) = true := by decide
theorem test_legal_cjmp : Instr.legalOperands (.cjmp 0x85 1 (.reg 2) 0) = true ∧ Instr.legalOperands (.cjmp 0x86 1 (.reg 2) 0) = false := by decide
theorem test_legal_init : Instr.legalOperands (.init 63 0) = true ∧ Instr.legalOperands (.init 64 0) = false := by decide
theorem test_legal_reset_range : Instr.legalOperands (.reset 63 63 2) = true ∧ Instr.legalOperands (.reset 0 64 2) = false ∧
    Instr.legalOperands (.reset 64 63 2) = false ∧ Instr.legalOperands (.reset 2 1 0) = false := by decide
theorem test_legal_reset_state : Instr.legalOperands (.reset 1 1 3) = false := by decide

/-! ## Decoding: the bytes of each instruction, written out from 30_encoding.md R93 to R98 -/

theorem test_decode_movi : decode [0x00, 0x02, 0x80, 0x00] = .ok (.movi 0x02 0x8000, []) := rfl
theorem test_decode_movr : decode [0x01, 0x0B, 0x0A] = .ok (.movr 0x0B 0x0A, []) := rfl
theorem test_decode_addr : decode [0x02, 0x04, 0x01] = .ok (.addr 0x04 0x01, []) := rfl
theorem test_decode_addi : decode [0x03, 0x04, 0x00, 0x01] = .ok (.addi 0x04 0x0001, []) := rfl
theorem test_decode_call : decode [0x04, 0x00, 0x1B] = .ok (.call 0x001B, []) := rfl
theorem test_decode_ret : decode [0x05] = .ok (.ret, []) := rfl
theorem test_decode_yield : decode [0x06] = .ok (.yield, []) := rfl
theorem test_decode_jump : decode [0x07, 0x00, 0x04] = .ok (.jump 0x0004, []) := rfl
theorem test_decode_init : decode [0x08, 0x05, 0x01, 0x00] = .ok (.init 0x05 0x0100, []) := rfl
theorem test_decode_djnz : decode [0x09, 0x00, 0x00, 0x04] = .ok (.djnz 0x00 0x0004, []) := rfl
theorem test_decode_cjmp_reg : decode [0x0A, 0xC3, 0x03, 0x04, 0x00, 0x09] = .ok (.cjmp 0xC3 0x03 (.reg 0x04) 0x0009, []) := rfl
theorem test_decode_cjmp_imm : decode [0x0A, 0x40, 0x03, 0xFF, 0xFE, 0x00, 0x09] = .ok (.cjmp 0x40 0x03 (.imm16 0xFFFE) 0x0009, []) ∧
    decode [0x0A, 0x04, 0x03, 0x05, 0x00, 0x09] = .ok (.cjmp 0x04 0x03 (.imm8 0x05) 0x0009, []) := ⟨rfl, rfl⟩
theorem test_decode_palette : decode [0x0B, 0x05, 0xFF] = .ok (.palette 0x05FF, []) := rfl
theorem test_decode_reset : decode [0x0C, 0x02, 0x04, 0x01] = .ok (.reset 0x02 0x04 0x01, []) := rfl
theorem test_decode_page : decode [0x0D, 0x01] = .ok (.page 0x01, []) := rfl
theorem test_decode_fill : decode [0x0E, 0x01, 0x0C] = .ok (.fill 0x01 0x0C, []) := rfl
theorem test_decode_copy : decode [0x0F, 0x02, 0x01] = .ok (.copy 0x02 0x01, []) := rfl
theorem test_decode_blit : decode [0x10, 0x01] = .ok (.blit 0x01, []) := rfl
theorem test_decode_kill : decode [0x11] = .ok (.kill, []) := rfl
theorem test_decode_print : decode [0x12, 0x00, 0x10, 0x05, 0x09, 0x0F] = .ok (.print 0x0010 0x05 0x09 0x0F, []) := rfl
theorem test_decode_subr : decode [0x13, 0x05, 0x02] = .ok (.subr 0x05 0x02, []) := rfl
theorem test_decode_andi : decode [0x14, 0x0A, 0x0F, 0xF0] = .ok (.andi 0x0A 0x0FF0, []) := rfl
theorem test_decode_iori : decode [0x15, 0x0A, 0x80, 0x01] = .ok (.iori 0x0A 0x8001, []) := rfl
theorem test_decode_shli : decode [0x16, 0x0B, 0x00, 0x04] = .ok (.shli 0x0B 0x0004, []) := rfl
theorem test_decode_shri : decode [0x17, 0x0A, 0x00, 0x0F] = .ok (.shri 0x0A 0x000F, []) := rfl
theorem test_decode_sound : decode [0x18, 0x00, 0x5B, 0x10, 0x3F, 0x02] = .ok (.sound 0x005B 0x10 0x3F 0x02, []) := rfl
theorem test_decode_loadres : decode [0x19, 0x3E, 0x81] = .ok (.loadres 0x3E81, []) := rfl
theorem test_decode_music : decode [0x1A, 0x00, 0x07, 0x01, 0x2C, 0x09] = .ok (.music 0x0007 0x012C 0x09, []) := rfl
theorem test_decode_invalid1B : decode [0x1B] = .ok (.invalid1B, []) := rfl
theorem test_decode_invalid1C : decode [0x1D] = .ok (.invalid1C 0x1, []) := rfl
theorem test_decode_invalid20 : decode [0x20] = .ok (.invalid20 0x00, []) ∧ decode [0x3E] = .ok (.invalid20 0x1E, []) := ⟨rfl, rfl⟩
theorem test_decode_poly80 : decode [0x81, 0x23, 0x10, 0xCB] = .ok (.poly80 0x01 0x23 0x10 0xCB, []) := rfl
theorem test_decode_poly40_long : decode [0x41, 0x00, 0x08, 0xFF, 0x38, 0x00, 0x64, 0x20] =
    .ok (.poly40 0x01 0x00 0x08 (.imm16 0xFF38) (.imm16 0x0064) (.reg 0x20), []) := rfl
theorem test_decode_poly40_short : decode [0x7F, 0x00, 0x02, 0x05, 0x06] =
    .ok (.poly40 0x3F 0x00 0x02 (.bytePlus256 0x05) (.byte 0x06) .secondBuffer, []) := rfl
theorem test_decode_poly40_regs : decode [0x55, 0x00, 0x03, 0x01, 0x02, 0x03] =
    .ok (.poly40 0x15 0x00 0x03 (.reg 0x01) (.reg 0x02) (.reg 0x03), []) := rfl
theorem test_decode_poly40_bytes : decode [0x6E, 0x00, 0x03, 0x01, 0x02, 0x03] =
    .ok (.poly40 0x2E 0x00 0x03 (.byte 0x01) (.byte 0x02) (.byte 0x03), []) := rfl
theorem test_decode_missing : decode [] = .error .noOpcode ∧ decode [0x00, 0x00] = .error .missingOperand := ⟨rfl, rfl⟩
theorem test_table_word : decodeTableWord 8 0x13 = some (.subr 0 0) ∧ decodeTableWord 32 0x34120A00 = some (.movi 0x0A 0x1234) := by decide
theorem test_fetch_word : (next (step (State.reset.withFetchWord 32 0x34120A00))).map (fun t => (t.reg 0x0A, t.pc)) = some (0x1234, 4) := by decide

/-! ## One step, from the vectors of 95_test_vectors.md (its name in each theorem's name) -/

/-- One step from a slice of thread 0 whose segment is `bytes`, after `f` has set the start values. -/
def run (bytes : List Byte) (f : State → State) : Option State := next (step (f (slice bytes)))

theorem test_VDA2_movi : (run [0x00, 0x02, 0x80, 0x00] id).map (·.reg 2) = some 0x8000 := by decide
theorem test_VDA3_movr : (run [0x01, 0x0B, 0x0A] (·.setReg 10 0x8231)).map (·.reg 11) = some 0x8231 := by decide
theorem test_VDA5_addi : (run [0x03, 0x04, 0x00, 0x01] (·.setReg 4 0x7FFF)).map (·.reg 4) = some 0x8000 := by decide
theorem test_VDA6_addi_wraps : (run [0x03, 0x04, 0x00, 0x01] (·.setReg 4 0xFFFF)).map (·.reg 4) = some 0 := by decide
theorem test_VDA8_addr : (run [0x02, 0x04, 0x01] (·.setReg 1 0x7FFF)).map (·.reg 4) = some 0x7FFF := by decide
theorem test_VDA10_addr_same : (run [0x02, 0x03, 0x03] (·.setReg 3 0x4001)).map (·.reg 3) = some 0x8002 := by decide
theorem test_VDA11_subr : (run [0x13, 0x05, 0x02] (·.setReg 2 0x8000)).map (·.reg 5) = some 0x8000 := by decide
theorem test_VDA12_subr_borrows : (run [0x13, 0x05, 0x06] (·.setReg 6 1)).map (·.reg 5) = some 0xFFFF := by decide
theorem test_VBW1_andi : (run [0x14, 0x0A, 0x0F, 0xF0] (·.setReg 10 0x1234)).map (·.reg 10) = some 0x0230 := by decide
theorem test_VBW3_iori : (run [0x15, 0x0A, 0x80, 0x01] (·.setReg 10 0x0230)).map (·.reg 10) = some 0x8231 := by decide
theorem test_VBW7_shli_15 : (run [0x16, 0x0B, 0x00, 0x0F] (·.setReg 11 1)).map (·.reg 11) = some 0x8000 := by decide
theorem test_VBW8_shli_16 : (run [0x16, 0x0C, 0x00, 0x10] (·.setReg 12 0x2310)).map (·.reg 12) = some 0 := by decide
theorem test_VBW10_shri_15 : (run [0x17, 0x0A, 0x00, 0x0F] (·.setReg 10 0x8231)).map (·.reg 10) = some 1 := by decide
theorem test_VBW12_shri_16 : (run [0x17, 0x0A, 0x00, 0x10] (·.setReg 10 0xFFFF)).map (·.reg 10) = some 0 := by decide

/-- Whether `cjmp` with a variant byte jumps, for the registers of V-CT1. -/
def taken (v a b : Byte) : Option Bool :=
  (run [0x0A, v, a, b, 0x00, 0x09] fun s => (s.setReg 1 0x7FFF).setReg 2 0x8000).map fun t => t.pc == 9

theorem test_VCT1_cjmp : [0x80, 0x81, 0x82, 0x83, 0x84, 0x85].map (fun v => (taken v 1 2, taken v 2 1)) =
    [(some false, some false), (some true, some true), (some true, some false), (some true, some false),
      (some false, some true), (some false, some true)] := by decide
theorem test_VCT3_cjmp_imm8_zero_extended : (run [0x0A, 0x00, 0x03, 0xFF, 0x00, 0x09] (·.setReg 3 0xFFFF)).map (·.pc) = some 6 ∧
    (run [0x0A, 0x40, 0x03, 0xFF, 0xFF, 0x00, 0x09] (·.setReg 3 0xFFFF)).map (·.pc) = some 9 ∧
    (run [0x0A, 0x06, 0x01, 0x00, 0x00, 0x00] id).bind cause = some (.badCondition 6) := by decide
theorem test_VCT7_djnz_wraps : (run [0x09, 0x00, 0x00, 0x04] id).map (fun t => (t.reg 0, t.pc)) = some (0xFFFF, 4) := by decide
theorem test_VCT13_djnz_falls_through : (run [0x09, 0x00, 0x00, 0x09] (·.setReg 0 1)).map (fun t => (t.reg 0, t.pc)) = some (0, 4) := by decide
theorem test_VCT10_call : (run [0x04, 0x00, 0x1B] id).map (fun t => (t.stack[0], t.sp.val, t.pc)) = some (3, 1, 0x1B) := by decide
theorem test_VCT8_call_overflow : (run [0x04, 0x00, 0x00] fun s => { s with sp := 256 }).bind (·.fault) =
    some { cause := .stackOverflow, thread := some 0, offset := some 0, opcode := some 0x04 } := by decide
theorem test_VCT11_ret : (run [0x05] fun s => { s with sp := 1, stack := s.stack.set 0 0x000B }).map (fun t => (t.sp.val, t.pc)) =
    some (0, 0x0B) := by decide
theorem test_VCT9_ret_underflow : (run [0x05] id).bind cause = some .stackUnderflow := by decide
theorem test_VCT12_jump : (run [0x07, 0x00, 0x04] id).map (fun t => (t.pc, (t.tcb 0).currentPc)) = some (4, 4) := by decide
theorem test_VTC1_init : (run [0x08, 0x05, 0x01, 0x00] id).map (fun t => ((t.tcb 5).requestedPc, (t.tcb 5).currentPc)) =
    some (0x0100, 0xFFFF) := by decide
theorem test_VTC10_init_bad_thread : (run [0x08, 0x40, 0x00, 0x00] id).bind cause = some (.badThreadId 64) := by decide
theorem test_VTC4_reset_pause : (run [0x0C, 0x02, 0x04, 0x01] id).map
    (fun t => [1, 2, 4, 5].map fun k => (t.tcb k).requestedState) = some [0, 1, 1, 0] := by decide
theorem test_VTC6_reset_halt : (run [0x0C, 0x03, 0x03, 0x02] id).map (fun t => (t.tcb 3).requestedPc) = some 0xFFFE ∧
    (run [0x0C, 0x02, 0x01, 0x00] id).bind cause = some (.badThreadRange 2 1) ∧
    (run [0x0C, 0x00, 0x40, 0x00] id).bind cause = some (.badThreadRange 0 64) ∧
    (run [0x0C, 0x01, 0x01, 0x03] id).bind cause = some (.badThreadState 3) := by decide
theorem test_VTC8_yield : (run [0x06] id).map (fun t => ((t.tcb 0).currentPc, t.phase)) = some (1, .scan 1) := by decide
theorem test_VTC7_kill : (run [0x11] id).map (fun t => ((t.tcb 0).currentPc, t.phase)) = some (0xFFFF, .scan 1) := by decide
theorem test_VEC2_palette : (run [0x0B, 0x05, 0xFF] id).map (·.events) = some [.selectPalette 5] := by decide
theorem test_VEC3_page : (run [0x0D, 0x01] id).map (·.events) = some [.selectPage 1] := by decide
theorem test_VEC4_fill : (run [0x0E, 0x01, 0x0C] id).map (·.events) = some [.fillPage 1 0x0C] := by decide
theorem test_VEC6_copy : (run [0x0F, 0x02, 0x01] (·.setReg 0xF9 0xFFF0)).map (·.events) = some [.copyPage 2 1 (-16)] := by decide
theorem test_VEC7_blit : (run [0x10, 0x01] id).map (·.events) = some [.blitPage 1] := by decide
theorem test_VEC8_print : (run [0x12, 0x00, 0x10, 0x05, 0x09, 0x0F] id).map (·.events) = some [.drawString 0x0010 5 9 0x0F] := by decide
theorem test_VEC9_sound : (run [0x18, 0x00, 0x5B, 0x10, 0x3F, 0x02] id).map (·.events) = some [.playSound 0x005B 0x10 0x3F 2] := by decide
theorem test_VEC10_music : (run [0x1A, 0x00, 0x07, 0x01, 0x2C, 0x00] id).map (·.events) = some [.playMusic 7 300 0] := by decide
theorem test_VEC11_loadres : (run [0x19, 0x3E, 0x81] id).map (·.events) = some [.load 0x3E81] := by decide
theorem test_VPL1_poly80 : (run [0x81, 0x23, 0x10, 0xCB] id).map (·.events) = some [.drawPolygon 0 0x0246 20 199 64] := by decide
theorem test_VPL3_poly80_largest : (run [0xFF, 0xFF, 0xFF, 0xFF] id).map (·.events) = some [.drawPolygon 0 0xFFFE 311 199 64] := by decide
theorem test_VPL7_poly40 : (run [0x7F, 0x00, 0x02, 0x05, 0x06] id).map (·.events) = some [.drawPolygon 1 0x0004 261 6 64] := by decide
theorem test_VPL8_poly40_zoom_register : (run [0x41, 0x00, 0x08, 0xFF, 0x38, 0x00, 0x64, 0x20] (·.setReg 0x20 0xFFF6)).map (·.events) =
    some [.drawPolygon 0 0x0010 (-200) 100 0xFFF6] := by decide
theorem test_VFT1_invalid : (run [0x1B] id).bind (·.fault) =
    some { cause := .invalidOpcode 0x1B, thread := some 0, offset := some 0, opcode := some 0x1B } := by decide
theorem test_VFT2_invalid : (run [0x3F] id).bind cause = some (.invalidOpcode 0x3F) ∧
    (run [0x1D] id).bind cause = some (.invalidOpcode 0x1D) := by decide
theorem test_VFT3_fetch : (run [0x00, 0x00] id).bind (·.fault) =
    some { cause := .fetchOutOfSegment 2, thread := some 0, offset := some 0, opcode := some 0x00 } := by decide
theorem test_VFT4_no_segment : ((next (step (bare [.run [] 0]))).bind cause) = some .noSegment := by decide
theorem test_VFT6_jump_to_sentinel : (run [0x07, 0xFF, 0xFF] id).map (fun t => (t.pc, (t.tcb 0).currentPc, t.phase)) =
    some (0xFFFF, 0xFFFF, .slice) := by decide

/-! ## The scheduling pass and the host calls -/

theorem test_dispatch : [tcb 0x40 0xFFFF 0 0, tcb 0x40 0xFFFF 0 1, tcb 0x40 0xFFFE 0 0, tcb 0x40 0x0123 0 1, tcb 0x40 0 0 0].map
      (fun c => (c.dispatch.currentPc, c.dispatch.currentState, c.dispatch.requestedPc)) =
    [(0x40, 0, 0xFFFF), (0x40, 1, 0xFFFF), (0xFFFF, 0, 0xFFFF), (0x0123, 1, 0xFFFF), (0, 0, 0xFFFF)] := by decide
theorem test_deadline : [deadline 1000 5 20, deadline 1000 0 20, deadline 0 0xFFFF 20] = [1100, 1001, 1310700] := by decide
/-- Register 5 alone is reserved, and `INPUT_MAP` answers the snapshot 1 with a write to it and one to register 6. -/
def mapped (s : State) : State :=
  { s with params := { s.params with reserved := [5], inputMap := .table [([1], [(5, 7), (6, 8)])] } }

theorem test_input_copy : ((next (step (mapped (idle [0x11] [.run [1] 0])))).map
    fun t => (t.reg 5, t.reg 6, t.phase)) = some (7, 0, .scan 0) := by decide
theorem test_set_byte_code : ((next (step (bare [.setByteCode [0x06, 0x11]]))).map
    fun t => ((t.tcb 0).currentPc, (t.tcb 63).currentPc, t.segByte 1, t.segByte 2)) = some (0, 0xFFFF, some 0x11, none) := by decide

/-! ## The decompressor -/

/-- The packed buffer of V-DC1, in a buffer of 40 bytes. -/
def dc1 : List Byte :=
  [0x40, 0x0A, 0x47, 0x04, 0x00, 0x00, 0x18, 0x50, 0x40, 0x0A, 0x5F, 0x54, 0x00, 0x00, 0x00, 0x28] ++ List.replicate 24 0

/-- A decompression state with a given chunk, over the buffer of V-DC1. -/
def dc (chunk : DWord) (src dst rem : Int) : Decomp :=
  { buf := Memory.ofBytes dc1, unpacked := 40, src := src, dst := dst, rem := rem, crc := 0, chunk := chunk }

/-- The start of V-DC1. -/
def dcStart : Decomp := { dc 0x1850 0 39 40 with crc := 0x400A4704 }

theorem test_VDC0_bits : ((dc 5 0 39 40).getBits 2).toOption.map (fun p => (p.1, p.2.chunk)) = some (2, 1) ∧
    (dc 1 0 39 40).getBit.toOption.map (fun p => (p.1, p.2.chunk, p.2.src)) = some (false, 0xA0052382, -4) := by decide
theorem test_VDC1_start : (Decomp.start dc1 16 40).toOption = some dcStart := by decide
theorem test_VDC1_first_token : dcStart.iterate.toOption.map (fun e => (e.rem, e.dst, e.buf.read 39, e.buf.read 38)) =
    some (38, 37, some 0x42, some 0x41) := by decide
theorem test_VDC1_ok : ((dcStart.iterate.toOption.bind fun e => e.iterate.toOption).map
    fun e => (e.rem, e.dst, e.crc, e.buf.toBytes)) = some (0, -1, 0, (List.replicate 20 [0x41, 0x42]).flatten) := by decide
theorem test_VDC4_size : (Decomp.start dc1 16 39).toOption = none ∧ (Decomp.start dc1 16 40).toOption.isSome = true := by decide

/-! ## Witnesses: for each statement with hypotheses, states and operands that meet them, at the edges of its clauses -/

theorem witness_DecodeInvertsEncode :
    Instr.wellFormed (.cjmp 0x80 1 (.reg 2) 0) = true ∧ Instr.wellFormed (.cjmp 0x40 1 (.imm16 2) 0) = true ∧
      Instr.wellFormed (.poly40 0x3F 0 0 (.bytePlus256 1) (.byte 1) .secondBuffer) = true ∧ Instr.wellFormed .ret = true := by decide

theorem witness_EncodeInvertsDecode :
    decode [0x0A, 0xC3, 0x03, 0x04, 0x00, 0x09, 0xAA] = .ok (.cjmp 0xC3 0x03 (.reg 0x04) 0x0009, [0xAA]) := rfl

theorem witness_OpcodeByteSelectsInstruction : 7 ≤ [0, 0, 0, 0, 0, 0, (0 : Byte)].length ∧
    (0x80 : Byte).getLsbD 7 = true ∧ ((0x40 : Byte).getLsbD 7 = false ∧ (0x40 : Byte).getLsbD 6 = true) ∧
      (0x1B ≤ (0x1B : Byte).toNat ∧ (0x1B : Byte).toNat ≤ 0x3F) ∧ (0x1B ≤ (0x3F : Byte).toNat ∧ (0x3F : Byte).toNat ≤ 0x3F) := by
  decide

theorem witness_DecodeTakesByteLength :
    decode [0x0A, 0x40, 0, 0, 0, 0, 0] = .ok (.cjmp 0x40 0 (.imm16 0) 0, []) ∧ decode [0x05] = .ok (.ret, []) := ⟨rfl, rfl⟩

theorem witness_PolyFortyLength :
    decode [0x41, 0, 0, 0, 0, 0, 0, 0] = .ok (.poly40 0x01 0 0 (.imm16 0) (.imm16 0) (.reg 0), []) ∧
      decode [0x7F, 0, 0, 0, 0] = .ok (.poly40 0x3F 0 0 (.bytePlus256 0) (.byte 0) .secondBuffer, []) := ⟨rfl, rfl⟩

theorem witness_CursorFetchesBigEndian :
    (slice [1, 2, 3, 4]).segByte 0 = some 1 ∧ (slice [1, 2, 3, 4]).segByte (0 + 1) = some 2 ∧
      (slice [1, 2, 3, 4]).segByte (0 + 2) = some 3 ∧ (slice [1, 2, 3, 4]).segByte (0 + 3) = some 4 ∧
      (slice [1, 2, 3, 4]).memRead 0 4 = .ok 0x01020304 ∧ (slice [1, 2, 3, 4]).memRead (slice [1, 2, 3, 4]).pc 2 = .ok 0x0102 ∧
      (slice [1, 2, 3, 4]).memRead (slice [1, 2, 3, 4]).pc 1 = .ok 1 := by
  refine ⟨?_, ?_, ?_, ?_, rfl, rfl, rfl⟩ <;> decide

theorem witness_ReadPastSegmentNamesFirstOffset :
    ((∀ j, j < 2 → ((slice [1, 2]).segByte (0 + BitVec.ofNat 16 j)).isSome = true) ∧
      (slice [1, 2]).segLen ≤ ((0 : Word) + BitVec.ofNat 16 2).toNat) ∧
    (slice [1, 2]).segLen ≤ ((2 : Word) + BitVec.ofNat 16 0).toNat := by decide

theorem witness_StepRunsDecodedInstruction :
    ((slice [0x06]).fault = none ∧ (slice [0x06]).phase = .slice ∧ decode (slice [0x06]).window = .ok (.yield, [])) ∧
      ((slice [0x1B]).fault = none ∧ (slice [0x1B]).phase = .slice ∧ decode (slice [0x1B]).window = .ok (.invalid1B, [])) ∧
      (Instr.wellFormed (.page 7) = true ∧
        ∀ j, j < 2 → (slice [0x0D, 7]).segByte ((slice [0x0D, 7]).pc + BitVec.ofNat 16 j) = (encode (.page 7))[j]?) :=
  ⟨⟨rfl, rfl, rfl⟩, ⟨rfl, rfl, rfl⟩, rfl, by decide⟩

theorem witness_StepFaultsOnMissingByte :
    ((slice []).fault = none ∧ (slice []).phase = .slice ∧ decode (slice []).window = .error .noOpcode) ∧
      decode (slice [0x0A, 0x40, 0, 0, 0, 0]).window = .error .missingOperand := ⟨⟨rfl, rfl, rfl⟩, rfl⟩

theorem witness_ShiftsAreLogicalAndUnmasked : 15 < 16 ∧ (15 : Word).toNat ≤ 15 ∧ 16 ≤ (16 : Word).toNat ∧ ¬ 16 ≤ (15 : Word).toNat := by decide

theorem witness_OnlyDataInstructionsAndDjnzWriteRegisters :
    ∃ t, exec (.jump 4) (slice []) = .next t ∧ t.fault = none := ⟨_, rfl, rfl⟩

theorem witness_CjmpComparesSigned : (0x7FFF : Int) = ((slice []).setReg 1 0x7FFF |>.reg 1).toInt ∧
    (-1 : Int) = (0xFFFF : Word).toInt ∧ (0x85 : Byte).toNat % 8 < 6 ∧ 6 ≤ (0x86 : Byte).toNat % 8 ∧
      [0x80, 0x81, 0x82, 0x83, 0x84, (0x85 : Byte)].map (fun v => v.toNat % 8) = [0, 1, 2, 3, 4, 5] := by decide

theorem witness_CallPushesReturnOffset :
    ({ slice [] with sp := 255 } : State).sp.val < 256 ∧ ({ slice [] with sp := 256 } : State).sp.val = 256 := by decide

theorem witness_RetPopsCursor : 0 < ({ slice [] with sp := 1 } : State).sp.val ∧ (slice []).sp.val = 0 := by decide

theorem witness_NestedCallsReturnInReverseOrder :
    (slice []).fault = none ∧ (slice []).sp.val + (List.replicate 256 (7 : Word)).length ≤ 256 ∧
      256 ≤ (List.replicate 256 (7 : Word)).length := by
  rw [List.length_replicate]
  exact ⟨rfl, by decide, by decide⟩

theorem witness_OnlyCallAndRetUseStack :
    ∃ t, exec .yield (slice []) = .next t ∧ t.fault = none ∧ Instr.yield ≠ .ret ∧ ∀ tgt, Instr.yield ≠ .call tgt :=
  ⟨_, rfl, rfl, by decide, fun _ h => by cases h⟩

theorem witness_InitRequestsPcChange : (63 : Byte).toNat < 64 ∧ 64 ≤ (64 : Byte).toNat := by decide

theorem witness_ResetActsOnThreadRange :
    ((0 : Byte).toNat < 64 ∧ (63 : Byte).toNat < 64 ∧ (0 : Byte).toNat ≤ (63 : Byte).toNat ∧ (2 : Byte).toNat < 3) ∧
      64 ≤ (64 : Byte).toNat ∧ (1 : Byte).toNat < (2 : Byte).toNat ∧ 3 ≤ (3 : Byte).toNat := by decide

theorem witness_OnlyInitAndResetWriteRequests :
    ∃ t, exec .kill (slice []) = .next t ∧ t.fault = none ∧ (∀ a b, Instr.kill ≠ .init a b) ∧ ∀ a b c, Instr.kill ≠ .reset a b c :=
  ⟨_, rfl, rfl, (fun _ _ h => by cases h), fun _ _ _ h => by cases h⟩

theorem witness_OpcodeMovesOnlyOwnCurrentPc :
    (slice [0x06]).phase = .slice ∧ ∃ t, step (slice [0x06]) = .next t ∧ t.fault = none := ⟨rfl, _, rfl, rfl⟩

theorem witness_PolyEightyDrawsClamped : (199 : Byte).toNat ≤ 199 ∧ 199 < (200 : Byte).toNat := by decide

theorem witness_OpcodeFaultsExactlyAsTabled : (slice []).fault = none := rfl

/-- A state whose fault state holds the record of `run` with no segment. -/
def faulted : State := (bare []).takeFault noSegmentRecord

theorem witness_FaultedBlockStaysFaulted : faulted.fault = some noSegmentRecord := rfl

theorem witness_RunWithoutSegmentFaults :
    (bare [.run [] 0]).fault = none ∧ (bare [.run [] 0]).phase = .idle ∧
      (bare [.run [] 0]).hostQueue = [.run [] 0] ∧ (bare [.run [] 0]).segment = none :=
  ⟨rfl, rfl, rfl, rfl⟩

theorem witness_DispatchAppliesRequests :
    (idle [0x11] [.run [] 9]).fault = none ∧ (idle [0x11] [.run [] 9]).phase = .idle ∧
      (idle [0x11] [.run [] 9]).hostQueue = [.run [] 9] ∧
      (idle [0x11] [.run [] 9]).segment = some (Memory.ofBytes [0x11]) := ⟨rfl, rfl, rfl, rfl⟩

theorem witness_InputCopyWritesOnlyReserved :
    ((mapped (idle [0x11] [.run [1] 0])).fault = none ∧ (mapped (idle [0x11] [.run [1] 0])).phase = .idle ∧
      (mapped (idle [0x11] [.run [1] 0])).hostQueue = [.run [1] 0] ∧
      (mapped (idle [0x11] [.run [1] 0])).segment = some (Memory.ofBytes [0x11])) ∧
    (0x10 : Byte) ∉ (idle [] []).params.reserved ∧ (0xF9 : Byte) ∈ (idle [] []).params.reserved ∧
      ∀ j : Byte, (applyInputMap (idle [] []).params.inputMap [1] (idle [] []).regs)[j.toNat]'(j.isLt) = (idle [] []).reg j :=
  ⟨⟨rfl, rfl, rfl, rfl⟩, by decide, by decide, fun _ => rfl⟩

/-- The execution pass about to look at a thread, with that thread's control block replaced. -/
def scanAt (k : Fin 64) (c : Tcb) : State := withTcb { idle [0x11] [] with phase := .scan k.val } k c

theorem witness_HaltedAndPausedThreadsAreSkipped :
    ((scanAt 63 (tcb 0xFFFF 0xFFFF 0 0)).fault = none ∧ (scanAt 63 (tcb 0xFFFF 0xFFFF 0 0)).phase = .scan 63 ∧
      ((scanAt 63 (tcb 0xFFFF 0xFFFF 0 0)).tcb 63).currentPc = 0xFFFF) ∧
    ((scanAt 0 (tcb 0x40 0xFFFF 1 1)).tcb 0).currentState ≠ 0 := by decide

theorem witness_SliceStartSeeksThread :
    (scanAt 63 (tcb 0x40 0xFFFF 0 0)).fault = none ∧ (scanAt 63 (tcb 0x40 0xFFFF 0 0)).phase = .scan 63 ∧
      ((scanAt 63 (tcb 0x40 0xFFFF 0 0)).tcb 63).currentPc ≠ 0xFFFF ∧
      ((scanAt 63 (tcb 0x40 0xFFFF 0 0)).tcb 63).currentState = 0 ∧
      (scanAt 63 (tcb 0x40 0xFFFF 0 0)).params.stackSliceReset = false ∧
      ({ scanAt 63 (tcb 0x40 0xFFFF 0 0) with params := { Config.Params.default with stackSliceReset := true } } : State).params.stackSliceReset = true := by
  decide

theorem witness_SliceEndsOnlyAtYieldOrKill :
    (slice [0x06]).phase = .slice ∧ ((slice [0x06]).tcb (slice [0x06]).cur).yield = false ∧
      ∃ t, step (slice [0x06]) = .next t ∧ t.fault = none := ⟨rfl, rfl, _, rfl, rfl⟩

theorem witness_HaltedThreadNeverStartsWithinPass :
    (slice [0x06]).phase.inPass = true ∧ ((slice [0x06]).tcb 1).currentPc = 0xFFFF ∧
      ((slice [0x06]).phase = .slice → (slice [0x06]).cur ≠ 1) ∧ ∃ t, step (slice [0x06]) = .next t ∧ t.fault = none :=
  ⟨rfl, rfl, fun _ => by decide, _, rfl, rfl⟩

theorem witness_PassReturnsDeadline :
    ({ idle [] [] with phase := .scan 64 } : State).fault = none ∧ ({ idle [] [] with phase := .scan 64 } : State).phase = .scan 64 :=
  ⟨rfl, rfl⟩

theorem witness_SetByteCodeInstallsAndResets :
    (bare [.setByteCode [0x11]]).fault = none ∧ (bare [.setByteCode [0x11]]).phase = .idle ∧
      (bare [.setByteCode [0x11]]).hostQueue = [.setByteCode [0x11]] ∧ (List.replicate 65536 (0 : Byte)).length ≤ 65536 :=
  ⟨rfl, rfl, rfl, by rw [List.length_replicate]⟩

theorem witness_HostReadsAndWritesRegisters :
    (∀ c, (idle [] [c]).fault = none ∧ (idle [] [c]).phase = .idle ∧ (idle [] [c]).segment = some (Memory.ofBytes [])) ∧
      (idle [] [.getRegister 255]).hostQueue = [.getRegister 255] ∧ (idle [] [.setRegister 0 1]).hostQueue = [.setRegister 0 1] ∧
      (idle [] [.setMusicMark 1]).hostQueue = [.setMusicMark 1] := ⟨fun _ => ⟨rfl, rfl, rfl⟩, rfl, rfl, rfl⟩

theorem witness_RegisterCallsBeforeInstallAreRefused :
    (∀ c, (bare [c]).fault = none ∧ (bare [c]).phase = .idle ∧ (bare [c]).segment = none ∧ (bare [c]).hostQueue = [c]) :=
  fun _ => ⟨rfl, rfl, rfl, rfl⟩

theorem witness_HostCallsWaitForIdle :
    (∃ t, step (slice [0x06]) = .next t) ∧ (slice [0x06]).phase ≠ .idle := ⟨⟨_, rfl⟩, by simp [slice]⟩

theorem witness_OnlySetByteCodeReplacesSegment : ∃ t, step (bare [.setByteCode [0x11]]) = .next t := ⟨_, rfl⟩

theorem witness_DecompressEntryChecks :
    (bare [.decompress [] 11 0]).fault = none ∧ (bare [.decompress [] 11 0]).phase = .idle ∧
      (bare [.decompress [] 11 0]).hostQueue = [.decompress [] 11 0] ∧ 11 < 12 ∧ 12 ≤ 12 ∧ ([] : List Byte).length < 12 ∧
      (List.replicate 12 (0 : Byte)).length < 13 := by
  refine ⟨rfl, rfl, rfl, by decide, by decide, by decide, by decide⟩

theorem witness_DecompressStartsFromTrailer :
    (bare [.decompress dc1 16 40]).fault = none ∧ (bare [.decompress dc1 16 40]).phase = .idle ∧
      (bare [.decompress dc1 16 40]).hostQueue = [.decompress dc1 16 40] ∧ 12 ≤ 16 ∧ 16 ≤ dc1.length ∧ 40 ≤ dc1.length ∧
      BigEndianAt (fun o => dc1[o]?) (16 - 4) 40 ∧ 39 ≤ dc1.length :=
  ⟨rfl, rfl, rfl, by decide, by decide, by decide, ⟨_, _, _, _, rfl, rfl, rfl, rfl, rfl⟩, by decide⟩

theorem witness_GetBitTakesLowBitAndRefills :
    (dc 2 0 39 40).chunk.toNat / 2 ≠ 0 ∧ (dc 1 0 39 40).chunk.toNat / 2 = 0 ∧
      ((dc 1 36 39 40).src = (36 : Nat) ∧ BigEndianAt (dc 1 36 39 40).buf.read 36 0) ∧
      BigEndianAt (dc 1 0 39 40).buf.read 0 0x400A4704 ∧
      (dc 1 (-1) 39 40).src < 0 ∧ ((dc 1 37 39 40).buf.len : Int) < (dc 1 37 39 40).src + 4 :=
  ⟨by decide, by decide, ⟨rfl, _, _, _, _, rfl, rfl, rfl, rfl, rfl⟩, ⟨_, _, _, _, rfl, rfl, rfl, rfl, rfl⟩, by decide,
    by decide⟩

theorem witness_GetBitsFirstBitMostSignificant :
    (∃ b e, (dc 0x1850 0 39 40).getBit = .ok (b, e)) ∧
      ∃ v w e f, (dc 0x1850 0 39 40).getBits 2 = .ok (v, e) ∧ e.getBits 3 = .ok (w, f) :=
  ⟨⟨_, _, rfl⟩, _, _, _, _, rfl, rfl⟩

/-- The code bits at the head of a chunk, first bit lowest, above them ones, over enough words to refill from. -/
theorem witness_CodesSelectRuns :
    (∃ e p, (dc 0x80000000 0 39 40).getBits 2 = .ok (0, e) ∧ e.getBits 3 = .ok p) ∧
    (∃ e p, (dc 0x80000002 0 39 40).getBits 2 = .ok (1, e) ∧ e.getBits 8 = .ok p) ∧
    (∃ e p, (dc 0x80000001 0 39 40).getBits 3 = .ok (4, e) ∧ e.getBits 9 = .ok p) ∧
    (∃ e p, (dc 0x80000005 0 39 40).getBits 3 = .ok (5, e) ∧ e.getBits 10 = .ok p) ∧
    (∃ e c f p, (dc 0x80000003 0 39 40).getBits 3 = .ok (6, e) ∧ e.getBits 8 = .ok (c, f) ∧ f.getBits 12 = .ok p) ∧
    (∃ e p, (dc 0x80000007 0 39 40).getBits 3 = .ok (7, e) ∧ e.getBits 8 = .ok p) :=
  ⟨⟨_, _, rfl, rfl⟩, ⟨_, _, rfl, rfl⟩, ⟨_, _, rfl, rfl⟩, ⟨_, _, rfl, rfl⟩, ⟨_, _, _, _, rfl, rfl, rfl⟩, ⟨_, _, rfl, rfl⟩⟩

/-- The loop clauses of the statement about codes: an iteration that succeeds, one whose code cannot be read, and one
whose run fails. -/
theorem witness_CodesSelectRuns_iteration :
    (∃ token f e, dcStart.readToken = .ok (token, f) ∧ f.runToken token = .ok e) ∧ 0 < dcStart.rem ∧
      (∃ x, (dc 1 (-4) 39 40).readToken = .error x) ∧
      ∃ token f x, (dc 0x80000006 0 39 40).readToken = .ok (token, f) ∧ f.runToken token = .error x :=
  ⟨⟨_, _, _, rfl, rfl⟩, by decide, ⟨_, rfl⟩, ⟨_, _, _, rfl, rfl⟩⟩

theorem witness_LiteralRunWritesNextBytesDownward :
    (∃ x, (dc 1 (-4) 39 40).getBits 8 = .error x) ∧
      (∃ v f, (dc 0x1850 0 (-1) 0).getBits 8 = .ok (v, f) ∧ f.dst < 0) ∧
      (∃ v f, (dc 0x1850 0 39 40).getBits 8 = .ok (v, f) ∧ f.dst = (39 : Nat) ∧ 39 < f.buf.len) ∧
      ((dc 0x1850 0 39 40).buf.wf = true ∧ ∃ e, (dc 0x1850 0 39 40).runToken (.literal 1) = .ok e) :=
  ⟨⟨_, rfl⟩, ⟨_, _, rfl, by decide⟩, ⟨_, _, rfl, rfl, by decide⟩, by decide, _, rfl⟩

theorem witness_BackReferenceRepeatsAtOffset :
    (dc 1 0 37 38).buf.wf = true ∧ ((dc 1 0 37 38).runToken (.backRef 38 2)).toOption.isSome = true ∧
      ((dc 1 0 37 38).runToken (.backRef 1 0)).toOption.isSome = true ∧ (dc 1 0 37 38).unpacked ≤ (dc 1 0 37 38).buf.len ∧
      (dc 1 0 (-1) 0).dst < 0 ∧ (0 ≤ (dc 1 0 37 38).dst ∧ ((dc 1 0 37 38).unpacked : Int) ≤ (dc 1 0 37 38).dst + (3 : Nat)) ∧
      ((dc 1 0 37 38).dst + (2 : Nat) < (dc 1 0 37 38).unpacked ∧ (dc 1 0 37 38).dst + 1 < (39 : Nat)) ∧
      ((38 : Nat) : Int) ≤ (dc 1 0 37 38).dst + 1 := by decide

theorem dcStart_good : dcStart.Good :=
  ⟨Memory.ofBytes_wf _, by decide, by decide, by decide, by decide⟩

/-- The block during V-DC1. -/
def unpacking (d : Decomp) : State := { bare [] with phase := .unpack d }

theorem witness_DecompressNeverWritesAboveUnpackedSize :
    (unpacking dcStart).phase = .unpack dcStart ∧ dcStart.Good ∧
      ((next (step (unpacking dcStart))).map fun t => match t.phase with | .unpack _ => true | _ => false) = some true :=
  ⟨rfl, dcStart_good, by decide⟩

theorem witness_BadCodeIsNeverProduced : ∃ t, step (unpacking dcStart) = .next t := ⟨_, rfl⟩

/-- The state after the decode loop, over the buffer of V-DC1, with a given checksum. -/
def dcDone (crc : DWord) : Decomp := { dc 1 0 (-1) 0 with crc := crc }

theorem witness_DecompressSuccessIsCompleteAndChecked :
    ((unpacking (dcDone 0)).fault = none ∧ (unpacking (dcDone 0)).phase = .unpack (dcDone 0) ∧ (dcDone 0).Good ∧
      ∃ t, step (unpacking (dcDone 0)) = .next t ∧ ∃ bytes, t.results = [] ++ [.unpacked bytes]) ∧
    ((dcDone 1).Good ∧ (dcDone 1).rem = 0 ∧ (dcDone 1).crc ≠ 0) :=
  ⟨⟨rfl, rfl, ⟨Memory.ofBytes_wf _, by decide, by decide, by decide, by decide⟩, _, rfl, _, rfl⟩,
    ⟨Memory.ofBytes_wf _, by decide, by decide, by decide, by decide⟩, by decide, by decide⟩

theorem witness_DecompressReturnsWithinBound :
    (unpacking dcStart).fault = none ∧ (unpacking dcStart).phase = .unpack dcStart := ⟨rfl, rfl⟩

/-- The invariant holds in a running slice, and a step from there answers a next state. -/
theorem witness_StepKeepsInvariant : (slice [0x06]).Inv ∧ ∃ t, step (slice [0x06]) = .next t := by
  refine ⟨fun _ => ⟨?_, ?_, ?_, ?_, ?_⟩, _, rfl⟩
  · intro m h
    cases h
    exact ⟨Memory.ofBytes_wf _, by decide⟩
  · intro t
    simp [slice, State.reset, State.tcb, TcbBank.reset, Tcb.reset, Tcb.legalStates]
  · exact fun _ => ⟨rfl, by decide⟩
  · exact fun _ => ⟨rfl, rfl, rfl⟩
  · intro d h
    cases h

end Sys2Proof.Tests
end

/-! # Proofs of the family 10_state.md -/

namespace Sys2Proof.Machine

/-! ## What an opcode may do to a thread control block -/

/-- `c'` is what one opcode may make of a thread control block `c` before `current_pc` follows the cursor: the current
fields stand (R24), and `requested_state` stands or is a legal state (R25, R226). -/
structure Tcb.KeptByOpcode (c c' : Tcb) : Prop where
  currentPc : c'.currentPc = c.currentPc
  currentState : c'.currentState = c.currentState
  requestedState : c'.requestedState = c.requestedState ∨ c'.requestedState = 0 ∨ c'.requestedState = 1

theorem Tcb.KeptByOpcode.refl (c : Tcb) : c.KeptByOpcode c := ⟨rfl, rfl, .inl rfl⟩

theorem Tcb.KeptByOpcode.trans {a b c : Tcb} (h : a.KeptByOpcode b) (k : b.KeptByOpcode c) : a.KeptByOpcode c where
  currentPc := k.currentPc.trans h.currentPc
  currentState := k.currentState.trans h.currentState
  requestedState := by
    rcases k.requestedState with hk | hk
    · rw [hk]; exact h.requestedState
    · exact .inr hk

theorem Tcb.KeptByOpcode.legalStates {c c' : Tcb} (h : c.KeptByOpcode c') (hc : c.legalStates) : c'.legalStates := by
  obtain ⟨hcur, hreq⟩ := hc
  refine ⟨by rw [h.currentState]; exact hcur, ?_⟩
  rcases h.requestedState with he | hl
  · rw [he]; exact hreq
  · exact hl

/-- A state operand that `reset` accepts is 2, a halt request, or one of the two legal states (R226). -/
theorem Tcb.keptByOpcode_request {state : Byte} (h : state.toNat < 3) (c : Tcb) : c.KeptByOpcode (c.request state) := by
  unfold Tcb.request
  split
  · exact ⟨rfl, rfl, .inl rfl⟩
  · refine ⟨rfl, rfl, .inr ?_⟩
    show state = 0 ∨ state = 1
    bv_omega

theorem State.keptByOpcode_modifyTcb (s : State) (t : Fin 64) {f : Tcb → Tcb} (hf : ∀ c : Tcb, c.KeptByOpcode (f c))
    (k : Fin 64) : (s.tcb k).KeptByOpcode ((s.modifyTcb t f).tcb k) := by
  rw [State.tcb_modifyTcb]
  split
  · rename_i hk; subst hk; exact hf _
  · exact .refl _

theorem State.keptByOpcode_modifyRange (s : State) (a b : Nat) {f : Tcb → Tcb} (hf : ∀ c : Tcb, c.KeptByOpcode (f c))
    (k : Fin 64) : (s.tcb k).KeptByOpcode ((s.modifyRange a b f).tcb k) := by
  rw [State.tcb_modifyRange]
  split
  · exact hf _
  · exact .refl _

theorem State.keptByOpcode_fetched (s : State) (op : Byte) (n : Nat) (k : Fin 64) :
    (s.tcb k).KeptByOpcode ((s.fetched op n).tcb k) := by
  rw [State.tcb_fetched]
  split <;> exact ⟨rfl, rfl, .inl rfl⟩

/-! ## What an instruction that does not fault leaves unchanged -/

/-- What every instruction that does not fault leaves of the state it executes in: it writes only registers, thread control
blocks, the call stack, the cursor and the event output, and the last only grows. -/
structure ExecFrame (s t : State) : Prop where
  rest : t = { s with regs := t.regs, tcbs := t.tcbs, stack := t.stack, sp := t.sp, pc := t.pc, events := t.events }
  events : s.events <+: t.events
  tcb : ∀ k, (s.tcb k).KeptByOpcode (t.tcb k)

theorem ExecFrame.segment {s t : State} (h : ExecFrame s t) : t.segment = s.segment := by rw [h.rest]

theorem ExecFrame.cur {s t : State} (h : ExecFrame s t) : t.cur = s.cur := by rw [h.rest]

theorem ExecFrame.phase {s t : State} (h : ExecFrame s t) : t.phase = s.phase := by rw [h.rest]

theorem ExecFrame.passMark {s t : State} (h : ExecFrame s t) : t.passMark = s.passMark := by rw [h.rest]

theorem ExecFrame.of_sameEvents {s t : State}
    (hrest : t = { s with regs := t.regs, tcbs := t.tcbs, stack := t.stack, sp := t.sp, pc := t.pc, events := t.events })
    (hevents : t.events = s.events) (htcb : ∀ k, (s.tcb k).KeptByOpcode (t.tcb k)) : ExecFrame s t :=
  ⟨hrest, ⟨[], by simp [hevents]⟩, htcb⟩

theorem ExecShape.frame {s t : State} (h : ExecShape s t) (hf : t.fault = none) : ExecFrame s t := by
  cases h with
  | same => exact .of_sameEvents rfl rfl fun _ => .refl _
  | reg i v => exact .of_sameEvents rfl rfl fun _ => .refl _
  | regSeek i v o => exact .of_sameEvents rfl rfl fun _ => .refl _
  | seek o => exact .of_sameEvents rfl rfl fun _ => .refl _
  | pushed v o u hu =>
    obtain ⟨-, -, -, -, hu⟩ := State.push_some hu
    rw [hu]
    exact .of_sameEvents rfl rfl fun _ => .refl _
  | popped v u hu =>
    obtain ⟨-, -, -, hu⟩ := State.pop_some hu
    rw [hu]
    exact .of_sameEvents rfl rfl fun _ => .refl _
  | emitted e => exact ⟨rfl, ⟨[e], rfl⟩, fun _ => .refl _⟩
  | request u n => exact .of_sameEvents rfl rfl (s.keptByOpcode_modifyTcb u fun _ => ⟨rfl, rfl, .inl rfl⟩)
  | range a b st hst => exact .of_sameEvents rfl rfl (s.keptByOpcode_modifyRange a b (Tcb.keptByOpcode_request hst))
  | ended o =>
    exact .of_sameEvents rfl rfl ((s.seek o).keptByOpcode_modifyTcb s.cur fun _ => ⟨rfl, rfl, .inl rfl⟩)
  | raised c => simp at hf

theorem exec_frame {i : Instr} {s t : State} (h : exec i s = .next t) (hf : t.fault = none) : ExecFrame s t :=
  (exec_next_shape h).frame hf

/-! ## What the step of one opcode does -/

/-- What a slice's step from `s` to `t` does if its opcode does not fault: `current_pc` of the current thread follows the
cursor (R137), and the slice goes on only where the thread has not yielded (R138). -/
structure OpcodeStep (s t : State) : Prop where
  segment : t.segment = s.segment
  cur : t.cur = s.cur
  passMark : t.passMark = s.passMark
  events : s.events <+: t.events
  currentState : ∀ k, (t.tcb k).currentState = (s.tcb k).currentState
  legalStates : ∀ k, (s.tcb k).legalStates → (t.tcb k).legalStates
  otherPc : ∀ k, k ≠ s.cur → (t.tcb k).currentPc = (s.tcb k).currentPc
  ownPc : (t.tcb s.cur).currentPc = t.pc
  phase : t.phase = .scan (s.cur.val + 1) ∨ t.phase = .slice ∧ (t.tcb s.cur).yield = false

theorem ExecFrame.opcodeStep {s u : State} {op : Byte} {n : Nat} (h : ExecFrame (s.fetched op n) u)
    (hf : u.fault = none) (hp : s.phase = .slice) : OpcodeStep s u.endOpcode := by
  obtain ⟨htcb, hphase, hrest⟩ := State.endOpcode_spec hf
  have hcur : u.cur = s.cur := h.cur
  have hslice : u.phase = .slice := h.phase.trans hp
  have hkept : ∀ k, (s.tcb k).KeptByOpcode (u.tcb k) := fun k => (s.keptByOpcode_fetched op n k).trans (h.tcb k)
  rw [hcur] at htcb hphase
  exact {
    segment := by rw [hrest]; exact h.segment
    cur := by rw [hrest]; exact hcur
    passMark := by rw [hrest]; exact h.passMark
    events := by rw [hrest]; exact h.events
    currentState := fun k => by rw [htcb]; split <;> exact (hkept k).currentState
    legalStates := fun k hk => by rw [htcb]; split <;> exact (hkept k).legalStates hk
    otherPc := fun k hk => by rw [htcb, if_neg hk]; exact (hkept k).currentPc
    ownPc := by rw [htcb, if_pos rfl, hrest]
    phase := by
      cases hy : (u.tcb s.cur).yield with
      | true => left; simp [hphase, hy]
      | false => right; simp [hphase, hy, hslice, htcb] }

/-- A step of a slice either faults or is the step of one opcode. -/
theorem step_slice_opcodeStep {s t : State} (hp : s.phase = .slice) (h : step s = .next t) (hf : t.fault = none) :
    OpcodeStep s t := by
  obtain ⟨-, hc⟩ := step_next_cases h
  cases hc with
  | opcode i rest u _ _ hu ht =>
    subst ht
    rw [State.endOpcode_fault] at hf
    exact (exec_frame hu hf).opcodeStep hf hp
  | missing e _ _ ht => subst ht; simp at hf
  | waiting hq => simp [hp] at hq
  | call c cs hq => simp [hp] at hq
  | scanned k hq => simp [hp] at hq
  | unpacked d hq => simp [hp] at hq

/-! ## The invariant, kind of step by kind of step -/

/-- The phases of a pass and of a decompression have conditions of their own; an idle block has none. -/
theorem State.Good.of_idle {s : State} (hseg : ∀ m, s.segment = some m → m.wf = true ∧ m.len ≤ 65536)
    (hstates : ∀ t, (s.tcb t).legalStates) (hp : s.phase = .idle) : s.Good where
  segment := hseg
  states := hstates
  pass := by simp [hp, Phase.inPass]
  slice := by simp [hp]
  unpack := by simp [hp]

theorem TcbBank.reset_getElem (k : Fin 64) : TcbBank.reset[k] = Tcb.reset k := by
  simp [TcbBank.reset]

theorem Tcb.reset_legalStates (t : Fin 64) : (Tcb.reset t).legalStates := ⟨.inl rfl, .inl rfl⟩

/-- Dispatch makes the requested state the current one (R132). -/
theorem Tcb.dispatch_legalStates {c : Tcb} (h : c.legalStates) : c.dispatch.legalStates := by
  obtain ⟨-, hreq⟩ := h
  unfold Tcb.dispatch
  simp only
  split <;> exact ⟨hreq, hreq⟩

theorem State.setByteCode_good (s : State) {bytes : List Byte} (hlen : bytes.length ≤ 65536) (hp : s.phase = .idle) :
    (s.setByteCode bytes).Good := by
  refine .of_idle ?_ (fun t => ?_) hp
  · rintro m ⟨⟩
    exact ⟨Memory.ofBytes_wf bytes, hlen⟩
  · show (TcbBank.reset[t]).legalStates
    rw [TcbBank.reset_getElem]
    exact Tcb.reset_legalStates t

/-- `run` starts the execution pass only with a segment installed (R130). -/
theorem State.beginPass_inv {s : State} (h : s.Good) (input : Snapshot) (now : Nat) : (s.beginPass input now).Inv := by
  intro hf
  unfold State.beginPass at hf ⊢
  split at hf
  · simp at hf
  · rename_i m hm
    exact {
      segment := h.segment
      states := fun t => by
        simpa [State.tcb] using Tcb.dispatch_legalStates (h.states t)
      pass := fun _ => ⟨by simp [hm], le_rfl⟩
      slice := nofun
      unpack := nofun }

/-- The trailer's length is the caller's `unpackedSize`, so `dst` starts one below `rem` (R302). -/
theorem Decomp.start_good {bytes : List Byte} {packedSize unpackedSize : Nat} {d : Decomp}
    (h : Decomp.start bytes packedSize unpackedSize = .ok d) : d.Good := by
  unfold Decomp.start at h
  simp only at h
  split at h
  · cases h
  split at h
  · cases h
  rename_i hfit
  split at h
  · cases h
  rename_i length hlength
  split at h
  · cases h
  rename_i hsize
  split at h
  · cases h
    exact {
      bufWf := Memory.ofBytes_wf bytes
      fits := by simp only; omega
      cursor := by simp only; omega
      remPos := by simp only; omega
      remLe := by simp only; omega }
  · cases h

theorem Decomp.iterate_good {d e : Decomp} (hd : d.Good) (h : d.iterate = .ok e) : e.Good := by
  obtain ⟨n, -, hrem, hdst, hlow, hunpacked, hlen, hwf, -⟩ := Decomp.iterate_ok h
  have hcursor := hd.cursor
  have hle := hd.remLe
  exact {
    bufWf := hwf hd.bufWf
    fits := by rw [hunpacked, hlen]; exact hd.fits
    cursor := by omega
    remPos := by omega
    remLe := by omega }

/-- A decompression touches nothing of the interpreter (R316, R360): the invariant needs only its own state. -/
theorem State.Good.unpacking {s : State} (h : s.Good) {d : Decomp} (hd : d.Good) :
    State.Good { s with phase := .unpack d } where
  segment := h.segment
  states := h.states
  pass := nofun
  slice := nofun
  unpack := by rintro _ ⟨⟩; exact hd

theorem State.Good.endUnpack {s : State} (h : s.Good) (r : HostResult) : (s.endUnpack r).Good :=
  .of_idle h.segment h.states rfl

theorem State.beginUnpack_good {s : State} (h : s.Good) (bytes : List Byte) (packedSize unpackedSize : Nat) :
    (s.beginUnpack bytes packedSize unpackedSize).Good := by
  unfold State.beginUnpack
  split
  · rename_i d hd; exact h.unpacking (Decomp.start_good hd)
  · exact h.endUnpack _

theorem State.unpackStep_good {s : State} (h : s.Good) {d : Decomp} (hd : d.Good) : (s.unpackStep d).Good := by
  unfold State.unpackStep
  split
  · split
    · rename_i e he; exact h.unpacking (Decomp.iterate_good hd he)
    · exact h.endUnpack _
  · exact h.endUnpack _

/-- A host call that is refused unless `p` holds answers a next state only where `p` holds. -/
theorem of_ite_next {p : Prop} [Decidable p] {u t : State} {r : Refusal}
    (h : (if p then .next u else .refused r : Result) = .next t) : p ∧ u = t := by
  split at h
  · cases h; exact ⟨‹p›, rfl⟩
  · cases h

theorem hostCall_inv {c : HostCall} {s t : State} (h : s.Good) (hp : s.phase = .idle) (hc : hostCall c s = .next t) :
    t.Inv := by
  cases c with
  | setByteCode bytes =>
    obtain ⟨hlen, rfl⟩ := of_ite_next hc
    exact fun _ => s.setByteCode_good hlen hp
  | run input now => cases hc; exact State.beginPass_inv h input now
  | getRegister i =>
    obtain ⟨-, rfl⟩ := of_ite_next hc
    exact fun _ => .of_idle h.segment h.states hp
  | setRegister i v =>
    obtain ⟨-, rfl⟩ := of_ite_next hc
    exact fun _ => .of_idle h.segment h.states hp
  | setMusicMark v =>
    obtain ⟨-, rfl⟩ := of_ite_next hc
    exact fun _ => .of_idle h.segment h.states hp
  | decompress bytes packedSize unpackedSize =>
    cases hc
    exact fun _ => State.beginUnpack_good h bytes packedSize unpackedSize

theorem Tcb.lifecycle_eq_runnable_iff (c : Tcb) :
    c.lifecycle = .runnable ↔ c.currentPc ≠ 0xFFFF ∧ c.currentState = 0 := by
  unfold Tcb.lifecycle
  split
  · simp_all
  · split <;> simp_all

theorem State.legalStates_beginSlice {s : State} (t : Fin 64) {k : Fin 64} (h : (s.tcb k).legalStates) :
    ((s.beginSlice t).tcb k).legalStates := by
  rw [State.tcb_beginSlice]
  split <;> exact h

/-- The execution pass starts the slice of a runnable thread only, at its `current_pc` (R134, R135). -/
theorem State.scanThread_good {s : State} (h : s.Good) {k : Nat} (hp : s.phase = .scan k) : (s.scanThread k).Good := by
  have hpass := h.pass (by simp [hp, Phase.inPass])
  unfold State.scanThread
  split
  · rename_i hk
    split
    · rename_i hrun
      obtain ⟨-, hrunning⟩ := (Tcb.lifecycle_eq_runnable_iff _).1 hrun
      exact {
        segment := h.segment
        states := fun t => State.legalStates_beginSlice _ (h.states t)
        pass := fun _ => hpass
        slice := fun _ => by simp [State.tcb_beginSlice, hrunning]
        unpack := nofun }
    · exact ⟨h.segment, h.states, fun _ => hpass, nofun, nofun⟩
  · exact .of_idle h.segment h.states rfl

/-- An opcode that does not fault leaves a pass in progress, and where the slice goes on `current_pc` is at the cursor. -/
theorem OpcodeStep.good {s t : State} (o : OpcodeStep s t) (h : s.Good) (hp : s.phase = .slice) : t.Good where
  segment := by rw [o.segment]; exact h.segment
  states := fun k => o.legalStates k (h.states k)
  pass := fun _ => by
    obtain ⟨hseg, hmark⟩ := h.pass (by simp [hp, Phase.inPass])
    rw [o.segment, o.passMark]
    exact ⟨hseg, hmark.trans o.events.length_le⟩
  slice := fun ht => by
    obtain ⟨-, hrunning, -⟩ := h.slice hp
    rw [o.cur]
    rcases o.phase with hscan | ⟨-, hyield⟩
    · simp [hscan] at ht
    · exact ⟨o.ownPc, (o.currentState _).trans hrunning, hyield⟩
  unpack := fun d ht => by
    rcases o.phase with hscan | ⟨hslice, -⟩
    · simp [hscan] at ht
    · simp [hslice] at ht

/-- Settles O59: the invariant is kept by each of the cases of a step. -/
theorem stepKeepsInvariant : Obligations.StepKeepsInvariant := by
  intro s t hs hstep hf
  obtain ⟨hfault, hc⟩ := step_next_cases hstep
  have h : s.Good := hs hfault
  cases hc with
  | waiting _ _ ht => subst ht; exact h
  | call c cs hp _ hcall =>
    have h' : State.Good { s with hostQueue := cs } := .of_idle h.segment h.states hp
    exact hostCall_inv h' hp hcall hf
  | scanned k hp ht => subst ht; exact State.scanThread_good h hp
  | opcode _ _ _ hp => exact (step_slice_opcodeStep hp hstep hf).good h hp
  | missing _ _ _ ht => subst ht; simp at hf
  | unpacked d hp ht => subst ht; exact State.unpackStep_good h (h.unpack d hp)

/-! ## Instructions that do not use the call stack -/

/-- The state with another call stack and another index. -/
def State.withStack (s : State) (sp : Fin 257) (stack : StackBank) : State := { s with sp := sp, stack := stack }

@[simp] theorem State.withStack_reg (s : State) (sp : Fin 257) (stack : StackBank) (i : Byte) :
    (s.withStack sp stack).reg i = s.reg i := rfl

@[simp] theorem cmpValue_withStack (s : State) (sp : Fin 257) (stack : StackBank) (rhs : CmpOperand) :
    cmpValue (s.withStack sp stack) rhs = cmpValue s rhs := by cases rhs <;> rfl

@[simp] theorem xValue_withStack (s : State) (sp : Fin 257) (stack : StackBank) (x : XField) :
    xValue (s.withStack sp stack) x = xValue s x := by cases x <;> rfl

@[simp] theorem yValue_withStack (s : State) (sp : Fin 257) (stack : StackBank) (y : YField) :
    yValue (s.withStack sp stack) y = yValue s y := by cases y <;> rfl

@[simp] theorem zoomValue_withStack (s : State) (sp : Fin 257) (stack : StackBank) (z : ZoomField) :
    zoomValue (s.withStack sp stack) z = zoomValue s z := by cases z <;> rfl

/-- A meaning that, where it does not fault, leaves the call stack alone and does the same to everything else over any
other call stack. -/
def IgnoresStack (m : State → Result) : Prop :=
  ∀ s t, m s = .next t → t.fault = none →
    t.sp = s.sp ∧ t.stack = s.stack ∧ ∀ sp stack, m (s.withStack sp stack) = .next (t.withStack sp stack)

/-- A meaning that depends on a value `r s` ignores the call stack if the value and every case do. -/
theorem IgnoresStack.read {α : Type} {m : α → State → Result} (r : State → α)
    (hr : ∀ s sp stack, r (s.withStack sp stack) = r s) (h : ∀ a, IgnoresStack (m a)) :
    IgnoresStack fun s => m (r s) s := by
  intro s t ht hf
  obtain ⟨hsp, hstack, hsame⟩ := h (r s) s t ht hf
  refine ⟨hsp, hstack, fun sp stack => ?_⟩
  simp only [hr]
  exact hsame sp stack

theorem IgnoresStack.unchanged : IgnoresStack fun s => .next s := by
  rintro s _ ⟨⟩ -
  exact ⟨rfl, rfl, fun _ _ => rfl⟩

theorem IgnoresStack.seek (o : Word) : IgnoresStack fun s => .next (s.seek o) := by
  rintro s _ ⟨⟩ -
  exact ⟨rfl, rfl, fun _ _ => rfl⟩

theorem IgnoresStack.modifyTcb (t : Fin 64) (f : Tcb → Tcb) : IgnoresStack fun s => .next (s.modifyTcb t f) := by
  rintro s _ ⟨⟩ -
  exact ⟨rfl, rfl, fun _ _ => rfl⟩

theorem IgnoresStack.modifyRange (a b : Nat) (f : Tcb → Tcb) : IgnoresStack fun s => .next (s.modifyRange a b f) := by
  rintro s _ ⟨⟩ -
  exact ⟨rfl, rfl, fun _ _ => rfl⟩

theorem IgnoresStack.raise (c : FaultCause) : IgnoresStack fun s => .next (s.raise c) := by
  rintro s _ ⟨⟩ hf
  simp at hf

/-- The new value of a register may depend on the state, but not on the call stack. -/
theorem IgnoresStack.setReg (d : Byte) (v : State → Word) (hv : ∀ s sp stack, v (s.withStack sp stack) = v s) :
    IgnoresStack fun s => .next (s.setReg d (v s)) :=
  .read (m := fun w s => .next (s.setReg d w)) v hv fun w => by
    rintro s _ ⟨⟩ -
    exact ⟨rfl, rfl, fun _ _ => rfl⟩

/-- The values of an event may depend on the state, but not on the call stack. -/
theorem IgnoresStack.emit (e : State → Event) (he : ∀ s sp stack, e (s.withStack sp stack) = e s) :
    IgnoresStack fun s => .next (s.emit (e s)) :=
  .read (m := fun w s => .next (s.emit w)) e he fun w => by
    rintro s _ ⟨⟩ -
    exact ⟨rfl, rfl, fun _ _ => rfl⟩

/-- What `cjmp` does once its condition is computed (R193, R194). -/
def cjmpOutcome (cc : BitVec 3) (tgt : Word) (c : Option Bool) (s : State) : Result :=
  match c with
  | none => .next (s.raise (.badCondition cc))
  | some true => .next (s.seek tgt)
  | some false => .next s

theorem execCjmp_eq_cjmpOutcome (v r : Byte) (rhs : CmpOperand) (tgt : Word) :
    execCjmp v r rhs tgt = fun s => cjmpOutcome (conditionCode v) tgt
      (condition (conditionCode v) (s16 (s.reg r)) (cmpValue s rhs)) s := rfl

theorem cjmpOutcome_ignoresStack (cc : BitVec 3) (tgt : Word) (c : Option Bool) :
    IgnoresStack (cjmpOutcome cc tgt c) := by
  match c with
  | none => exact .raise _
  | some true => exact .seek _
  | some false => exact .unchanged

theorem execCjmp_ignoresStack (v r : Byte) (rhs : CmpOperand) (tgt : Word) : IgnoresStack (execCjmp v r rhs tgt) := by
  rw [execCjmp_eq_cjmpOutcome]
  exact .read _ (by simp) (cjmpOutcome_ignoresStack _ tgt)

theorem execDjnz_ignoresStack (r : Byte) (tgt : Word) : IgnoresStack (execDjnz r tgt) :=
  .read (m := fun v s => .next (if v ≠ 0 then (s.setReg r v).seek tgt else s.setReg r v)) (fun s => s.reg r - 1)
    (by simp) fun v => by
      rintro s _ ⟨⟩ -
      split
      · exact ⟨rfl, rfl, fun _ _ => rfl⟩
      · exact ⟨rfl, rfl, fun _ _ => rfl⟩

theorem execInit_ignoresStack (t : Byte) (tgt : Word) : IgnoresStack (execInit t tgt) := by
  unfold execInit
  by_cases h : t.toNat < 64
  · simp only [h, dif_pos]; exact .modifyTcb _ _
  · simp only [h, dif_neg, not_false_eq_true]; exact .raise _

theorem execReset_ignoresStack (first last state : Byte) : IgnoresStack (execReset first last state) := by
  unfold execReset
  by_cases hrange : first.toNat ≥ 64 ∨ last.toNat ≥ 64 ∨ first.toNat > last.toNat
  · simp only [hrange, if_true]; exact .raise _
  · by_cases hstate : state.toNat ≥ 3
    · simp only [hrange, hstate, if_true, if_false]; exact .raise _
    · simp only [hrange, hstate, if_false]; exact .modifyRange _ _ _

/-- `kill` and `yield` write only the cursor and the current thread's `yield` (R222, R224). -/
theorem ignoresStack_seek_yield (o : State → Word) (ho : ∀ s sp stack, o (s.withStack sp stack) = o s) :
    IgnoresStack fun s => .next ((s.seek (o s)).modifyTcb s.cur fun c => { c with yield := true }) :=
  .read (m := fun w s => .next ((s.seek w).modifyTcb s.cur fun c => { c with yield := true })) o ho fun w => by
    rintro s _ ⟨⟩ -
    exact ⟨rfl, rfl, fun _ _ => rfl⟩

/-- Every instruction but `call` and `ret` ignores the call stack (R28). -/
theorem exec_ignoresStack (i : Instr) (hret : i ≠ .ret) (hcall : ∀ tgt, i ≠ .call tgt) : IgnoresStack (exec i) := by
  cases i with
  | call tgt => exact absurd rfl (hcall tgt)
  | ret => exact absurd rfl hret
  | movi d n => exact .setReg d (fun _ => n) fun _ _ _ => rfl
  | movr d src => exact .setReg d (fun s => s.reg src) fun _ _ _ => rfl
  | addr d src => exact .setReg d (fun s => s.reg d + s.reg src) fun _ _ _ => rfl
  | addi d n => exact .setReg d (fun s => s.reg d + n) fun _ _ _ => rfl
  | subr d src => exact .setReg d (fun s => s.reg d - s.reg src) fun _ _ _ => rfl
  | andi d n => exact .setReg d (fun s => s.reg d &&& n) fun _ _ _ => rfl
  | iori d n => exact .setReg d (fun s => s.reg d ||| n) fun _ _ _ => rfl
  | shli d n => exact .setReg d (fun s => shiftLeft16 (s.reg d) n) fun _ _ _ => rfl
  | shri d n => exact .setReg d (fun s => shiftRight16 (s.reg d) n) fun _ _ _ => rfl
  | jump tgt => exact .seek tgt
  | djnz r tgt => exact execDjnz_ignoresStack r tgt
  | cjmp v r rhs tgt => exact execCjmp_ignoresStack v r rhs tgt
  | yield => exact ignoresStack_seek_yield (fun s => s.pc) fun _ _ _ => rfl
  | kill => exact ignoresStack_seek_yield (fun _ => 0xFFFF) fun _ _ _ => rfl
  | init t tgt => exact execInit_ignoresStack t tgt
  | reset first last state => exact execReset_ignoresStack first last state
  | palette w => exact .emit (fun _ => .selectPalette (hiByte w)) fun _ _ _ => rfl
  | page p => exact .emit (fun _ => .selectPage p) fun _ _ _ => rfl
  | fill p c => exact .emit (fun _ => .fillPage p c) fun _ _ _ => rfl
  | copy src dst => exact .emit (fun s => .copyPage src dst (s16 (s.reg s.params.idxScrollY))) fun _ _ _ => rfl
  | blit p => exact .emit (fun _ => .blitPage p) fun _ _ _ => rfl
  | print id x y c => exact .emit (fun _ => .drawString id x y c) fun _ _ _ => rfl
  | sound id freq vol chan => exact .emit (fun _ => .playSound id freq vol chan) fun _ _ _ => rfl
  | loadres id => exact .emit (fun _ => .load id) fun _ _ _ => rfl
  | music id delay pos => exact .emit (fun _ => .playMusic id delay pos) fun _ _ _ => rfl
  | poly40 mode hi lo x y zoom =>
    exact .emit (fun s => .drawPolygon (zoomBuffer zoom) (polygonOffset hi lo) (xValue s x) (yValue s y)
      (zoomValue s zoom)) (by simp)
  | poly80 high lo x y =>
    exact .emit (fun _ => .drawPolygon 0 (polygonOffset (1#1 ++ high) lo) (poly80Position x y).1 (poly80Position x y).2 64)
      fun _ _ _ => rfl
  | invalid1B => exact .raise _
  | invalid1C low => exact .raise _
  | invalid20 low => exact .raise _

/-- Settles O22, from the same statement about the meaning of each instruction. -/
theorem onlyCallAndRetUseStack : Obligations.OnlyCallAndRetUseStack := by
  intro i s t sp stack h hf hret hcall
  obtain ⟨hsp, hstack, hsame⟩ := exec_ignoresStack i hret hcall s t h hf
  exact ⟨hsp, hstack, hsame sp stack⟩

/-! ## The threads after an opcode, and after reset -/

/-- Settles O27, from what the step of one opcode does. -/
theorem opcodeMovesOnlyOwnCurrentPc : Obligations.OpcodeMovesOnlyOwnCurrentPc := by
  intro s t hp hstep hf
  have o := step_slice_opcodeStep hp hstep hf
  exact ⟨o.currentState, o.cur, o.otherPc, o.ownPc⟩

theorem State.reset_tcb (k : Fin 64) : State.reset.tcb k = Tcb.reset k := TcbBank.reset_getElem k

/-- Settles O42: every thread control block of reset is `Tcb.reset`. -/
theorem resetStateValues : Obligations.ResetStateValues := by
  refine ⟨fun k => ?_, rfl, rfl, rfl⟩
  rw [State.reset_tcb]
  exact ⟨rfl, rfl, rfl, rfl⟩

end Sys2Proof.Machine

/-! # Proofs of the family 20_memory.md -/

namespace Sys2Proof

/-! ## How many operand bytes make the decoder succeed

The longest instruction has 8 bytes (R90); each format fails exactly for want of one of its own bytes. -/

section
variable {bs : List Byte} {e : DecodeError}

theorem fmtN_ne_error {i : Instr} : fmtN i bs ≠ .error e := nofun

@[simp] theorem fmtB_eq_error_iff {mk : Byte → Instr} :
    fmtB mk bs = .error e ↔ .missingOperand = e ∧ bs.length < 1 := by
  match bs with
  | [] => simp [fmtB]
  | _ :: _ => simp [fmtB]

@[simp] theorem fmtBB_eq_error_iff {mk : Byte → Byte → Instr} :
    fmtBB mk bs = .error e ↔ .missingOperand = e ∧ bs.length < 2 := by
  match bs with
  | [] | [_] => simp [fmtBB]
  | _ :: _ :: _ => simp [fmtBB]

@[simp] theorem fmtW_eq_error_iff {mk : Word → Instr} :
    fmtW mk bs = .error e ↔ .missingOperand = e ∧ bs.length < 2 := by
  match bs with
  | [] | [_] => simp [fmtW]
  | _ :: _ :: _ => simp [fmtW]

@[simp] theorem fmtBW_eq_error_iff {mk : Byte → Word → Instr} :
    fmtBW mk bs = .error e ↔ .missingOperand = e ∧ bs.length < 3 := by
  match bs with
  | [] | [_] | [_, _] => simp [fmtBW]
  | _ :: _ :: _ :: _ => simp [fmtBW]

@[simp] theorem fmtBBB_eq_error_iff {mk : Byte → Byte → Byte → Instr} :
    fmtBBB mk bs = .error e ↔ .missingOperand = e ∧ bs.length < 3 := by
  match bs with
  | [] | [_] | [_, _] => simp [fmtBBB]
  | _ :: _ :: _ :: _ => simp [fmtBBB]

@[simp] theorem fmtWBBB_eq_error_iff {mk : Word → Byte → Byte → Byte → Instr} :
    fmtWBBB mk bs = .error e ↔ .missingOperand = e ∧ bs.length < 5 := by
  match bs with
  | [] | [_] | [_, _] | [_, _, _] | [_, _, _, _] => simp [fmtWBBB]
  | _ :: _ :: _ :: _ :: _ :: _ => simp [fmtWBBB]

@[simp] theorem fmtWWB_eq_error_iff {mk : Word → Word → Byte → Instr} :
    fmtWWB mk bs = .error e ↔ .missingOperand = e ∧ bs.length < 5 := by
  match bs with
  | [] | [_] | [_, _] | [_, _, _] | [_, _, _, _] => simp [fmtWWB]
  | _ :: _ :: _ :: _ :: _ :: _ => simp [fmtWWB]

/-! The fields whose shape mode bits select take at most two bytes each, the zoom field at most one. -/

theorem decodeCmpOperand_error_length {v : Byte} (h : decodeCmpOperand v bs = .error e) : bs.length < 2 := by
  match bs with
  | [] | [_] => simp
  | _ :: _ :: _ => simp only [decodeCmpOperand] at h; split_ifs at h

theorem decodeXField_error_length {m : BitVec 6} (h : decodeXField m bs = .error e) : bs.length < 2 := by
  match bs with
  | [] | [_] => simp
  | _ :: _ :: _ => simp only [decodeXField] at h; split_ifs at h

theorem decodeYField_error_length {m : BitVec 6} (h : decodeYField m bs = .error e) : bs.length < 2 := by
  match bs with
  | [] | [_] => simp
  | _ :: _ :: _ => simp only [decodeYField] at h; split_ifs at h

theorem decodeZoomField_error_length {m : BitVec 6} (h : decodeZoomField m bs = .error e) : bs.length < 1 := by
  match bs with
  | [] => simp
  | _ :: _ => simp only [decodeZoomField] at h; split_ifs at h

theorem CmpOperand.bytes_length_le (x : CmpOperand) : x.bytes.length ≤ 2 := by
  cases x <;> simp [CmpOperand.bytes, wordBytes]

theorem XField.bytes_length_le (x : XField) : x.bytes.length ≤ 2 := by
  cases x <;> simp [XField.bytes, wordBytes]

theorem YField.bytes_length_le (y : YField) : y.bytes.length ≤ 2 := by
  cases y <;> simp [YField.bytes, wordBytes]

theorem decodeCmpOperand_ok_length {v : Byte} {x : CmpOperand} {rest : List Byte}
    (h : decodeCmpOperand v bs = .ok (x, rest)) : bs.length ≤ rest.length + 2 := by
  obtain ⟨-, rfl⟩ := decodeCmpOperand_ok h
  have := x.bytes_length_le
  simp
  omega

theorem decodeXField_ok_length {m : BitVec 6} {x : XField} {rest : List Byte}
    (h : decodeXField m bs = .ok (x, rest)) : bs.length ≤ rest.length + 2 := by
  obtain ⟨-, rfl⟩ := decodeXField_ok h
  have := x.bytes_length_le
  simp
  omega

theorem decodeYField_ok_length {m : BitVec 6} {y : YField} {rest : List Byte}
    (h : decodeYField m bs = .ok (y, rest)) : bs.length ≤ rest.length + 2 := by
  obtain ⟨-, rfl⟩ := decodeYField_ok h
  have := y.bytes_length_le
  simp
  omega

theorem fmtCJ_error_length (h : fmtCJ bs = .error e) : bs.length < 6 := by
  match bs with
  | [] | [_] => simp
  | v :: r :: bs =>
    simp only [fmtCJ] at h
    cases hrhs : decodeCmpOperand v bs with
    | error x => have := decodeCmpOperand_error_length hrhs; simp; omega
    | ok p =>
      obtain ⟨rhs, rest⟩ := p
      have hlen := decodeCmpOperand_ok_length hrhs
      match rest with
      | [] | [_] => simp at hlen ⊢; omega
      | _ :: _ :: _ => simp [hrhs] at h

theorem fmtP40_error_length {m : BitVec 6} (h : fmtP40 m bs = .error e) : bs.length < 7 := by
  match bs with
  | [] | [_] => simp
  | hi :: lo :: bs =>
    simp only [fmtP40] at h
    simp only [List.length_cons]
    split at h
    · have := decodeXField_error_length ‹_›; omega
    · have := decodeXField_ok_length ‹_›
      split at h
      · have := decodeYField_error_length ‹_›; omega
      · have := decodeYField_ok_length ‹_›
        split at h
        · have := decodeZoomField_error_length ‹_›; omega
        · cases h

/-- Of the opcodes below 0x40 `cjmp` takes the most operand bytes (R93, R95). -/
theorem decodeNamed_error_length {op : Byte} (h : decodeNamed op bs = .error e) : bs.length < 6 := by
  unfold decodeNamed at h
  split at h <;> grind [fmtN_ne_error, fmtB_eq_error_iff, fmtBB_eq_error_iff, fmtW_eq_error_iff, fmtBW_eq_error_iff,
    fmtBBB_eq_error_iff, fmtWBBB_eq_error_iff, fmtWWB_eq_error_iff, fmtCJ_error_length]

/-- No instruction has more than 8 bytes (R90), so eight bytes always decode. -/
theorem decode_error_length (h : decode bs = .error e) : bs.length < 8 := by
  match bs with
  | [] => simp
  | op :: bs =>
    simp only [decode] at h
    simp only [List.length_cons]
    split at h
    · simp at h; omega
    · split at h
      · have := fmtP40_error_length h; omega
      · have := decodeNamed_error_length h; omega

end

end Sys2Proof

namespace Sys2Proof.Machine

/-! ## The bytes of the segment (R60 to R63) -/

theorem State.segByte_eq_none_iff (s : State) (o : Word) : s.segByte o = none ↔ s.segLen ≤ o.toNat := by
  unfold State.segByte State.segLen
  cases s.segment with
  | none => simp
  | some m => simpa using m.read_eq_none_iff o.toNat

theorem State.segBytes_cons {s : State} {a : Word} {b : Byte} (h : s.segByte a = some b) (n : Nat) :
    s.segBytes (n + 1) a = b :: s.segBytes n (a + 1) := by
  simp [State.segBytes, h]

/-- A read that meets a missing offset ends exactly before the first one (R76). -/
theorem State.length_segBytes_of_first_missing {s : State} {a : Word} {n k : Nat} (hk : k < n)
    (hthere : ∀ j, j < k → (s.segByte (a + BitVec.ofNat 16 j)).isSome = true)
    (hmissing : s.segByte (a + BitVec.ofNat 16 k) = none) : (s.segBytes n a).length = k := by
  obtain ⟨-, hread, hnext⟩ := s.segBytes_spec n a
  rcases Nat.lt_trichotomy (s.segBytes n a).length k with hlt | heq | hgt
  · have hsome := hthere _ hlt
    simp [hnext (hlt.trans hk)] at hsome
  · exact heq
  · have hsome := hread k hgt
    simp [hmissing] at hsome

/-! ## `MemRead` and the three fetches (R62 to R64) -/

theorem State.memRead_of_segBytes {s : State} {a : Word} {n : Nat} {bs : List Byte} (h : s.segBytes n a = bs)
    (hlen : bs.length = n) : s.memRead a n = .ok (bs.foldl (fun v b => v * 256 + b.toNat) 0) := by
  simp [State.memRead, h, hlen]

theorem State.memRead_error_of_length_lt {s : State} {a : Word} {n : Nat} (h : (s.segBytes n a).length < n) :
    s.memRead a n = .error (a + BitVec.ofNat 16 (s.segBytes n a).length) := by
  simp [State.memRead, h.ne]

theorem State.fetch_of_memRead {s : State} {n v : Nat} (h : s.memRead s.pc n = .ok v) :
    s.fetch n = .ok (v, s.seek (s.pc + BitVec.ofNat 16 n)) := by
  simp [State.fetch, h]

theorem State.fetch8_of_memRead {s : State} {v : Nat} (h : s.memRead s.pc 1 = .ok v) :
    s.fetch8 = .ok (BitVec.ofNat 8 v, s.seek (s.pc + 1)) := by
  rw [State.fetch8, State.fetch_of_memRead h]; rfl

theorem State.fetch16_of_memRead {s : State} {v : Nat} (h : s.memRead s.pc 2 = .ok v) :
    s.fetch16 = .ok (BitVec.ofNat 16 v, s.seek (s.pc + 2)) := by
  rw [State.fetch16, State.fetch_of_memRead h]; rfl

theorem State.fetch32_of_memRead {s : State} {v : Nat} (h : s.memRead s.pc 4 = .ok v) :
    s.fetch32 = .ok (BitVec.ofNat 32 v, s.seek (s.pc + 4)) := by
  rw [State.fetch32, State.fetch_of_memRead h]; rfl

theorem State.memRead_one {s : State} {a : Word} {b0 : Byte} (h0 : s.segByte a = some b0) :
    s.memRead a 1 = .ok b0.toNat := by
  have hbytes : s.segBytes 1 a = [b0] := State.segBytes_cons h0 0
  simpa using State.memRead_of_segBytes hbytes rfl

theorem State.memRead_two {s : State} {a : Word} {b0 b1 : Byte} (h0 : s.segByte a = some b0)
    (h1 : s.segByte (a + 1) = some b1) : s.memRead a 2 = .ok (b0.toNat * 2 ^ 8 + b1.toNat) := by
  have hbytes : s.segBytes 2 a = [b0, b1] := by
    rw [State.segBytes_cons h0, State.segBytes_cons h1]; rfl
  simpa using State.memRead_of_segBytes hbytes rfl

theorem State.memRead_four {s : State} {a : Word} {b0 b1 b2 b3 : Byte} (h0 : s.segByte a = some b0)
    (h1 : s.segByte (a + 1) = some b1) (h2 : s.segByte (a + 2) = some b2) (h3 : s.segByte (a + 3) = some b3) :
    s.memRead a 4 = .ok (b0.toNat * 2 ^ 24 + b1.toNat * 2 ^ 16 + b2.toNat * 2 ^ 8 + b3.toNat) := by
  have hbytes : s.segBytes 4 a = [b0, b1, b2, b3] := by
    have e2 : a + 1 + 1 = a + 2 := by bv_omega
    have e3 : a + 2 + 1 = a + 3 := by bv_omega
    rw [State.segBytes_cons h0, State.segBytes_cons h1, e2, State.segBytes_cons h2, e3, State.segBytes_cons h3]
    rfl
  have hvalue : [b0, b1, b2, b3].foldl (fun v b => v * 256 + b.toNat) 0 =
      b0.toNat * 2 ^ 24 + b1.toNat * 2 ^ 16 + b2.toNat * 2 ^ 8 + b3.toNat := by
    simp only [List.foldl_cons, List.foldl_nil]
    ring
  rw [State.memRead_of_segBytes hbytes rfl, hvalue]

/-- Settles O7, from the reads of 1, 2 and 4 bytes and the three fetches. -/
theorem cursorFetchesBigEndian : Obligations.CursorFetchesBigEndian := fun _ =>
  ⟨fun _ _ => State.memRead_one, fun _ _ _ => State.memRead_two, fun _ _ _ _ _ => State.memRead_four,
    fun _ => State.fetch8_of_memRead, fun _ => State.fetch16_of_memRead, fun _ => State.fetch32_of_memRead⟩

/-- Settles O8: the read ends before the first missing offset, so it is the offset answered. -/
theorem readPastSegmentNamesFirstOffset : Obligations.ReadPastSegmentNamesFirstOffset := by
  intro s a n k hk hthere hpast
  have hlen := State.length_segBytes_of_first_missing hk hthere ((s.segByte_eq_none_iff _).2 hpast)
  have herr := State.memRead_error_of_length_lt (s := s) (a := a) (hlen.trans_lt hk)
  rwa [hlen] at herr

/-! ## The fetch fault -/

theorem step_of_decode_error {s : State} {e : DecodeError} (hf : s.fault = none) (hp : s.phase = .slice)
    (hd : decode s.window = .error e) : step s = .next (s.takeFault s.fetchFaultRecord) := by
  simp [step, hf, hp, fetchInstr, hd]

theorem State.window_head? (s : State) : s.window.head? = s.segByte s.pc := s.segBytes_head 7 s.pc

/-- Settles O10: a window that does not decode is shorter than the longest instruction, so it ends before a missing
offset, the one that the record names. -/
theorem stepFaultsOnMissingByte : Obligations.StepFaultsOnMissingByte := by
  intro s e hf hp hd
  have hshort : s.window.length < 8 := decode_error_length hd
  obtain ⟨-, hthere, hmissing⟩ := s.segBytes_spec 8 s.pc
  refine ⟨s.window.length, _, hshort, hthere, hmissing hshort, step_of_decode_error hf hp hd, rfl, rfl, ?_⟩
  rw [State.takeFault_fault, State.fetchFaultRecord, State.window_head?]

/-! ## The segment, the calls to come and the results over one step -/

/-- From `s` to `t` the segment and the calls to come stand, and `r` is added to what the host calls returned. -/
structure HostFrame (r : Option HostResult) (s t : State) : Prop where
  segment : t.segment = s.segment
  hostQueue : t.hostQueue = s.hostQueue
  results : t.results = s.results ++ r.toList

theorem HostFrame.of_eq {s t : State} (hsegment : t.segment = s.segment) (hqueue : t.hostQueue = s.hostQueue)
    (hresults : t.results = s.results) : HostFrame none s t :=
  ⟨hsegment, hqueue, by simp [hresults]⟩

theorem HostFrame.refl (s : State) : HostFrame none s s := .of_eq rfl rfl rfl

theorem HostFrame.trans {s t u : State} (h : HostFrame none s t) (k : HostFrame none t u) : HostFrame none s u where
  segment := k.segment.trans h.segment
  hostQueue := k.hostQueue.trans h.hostQueue
  results := by simp [k.results, h.results]

theorem HostFrame.sameSegment {r : Option HostResult} {s t : State} (h : HostFrame r s t) : SameSegment s t := fun o => by
  simp [State.segByte, h.segment]

/-- No instruction has access to the segment or to the host's calls and results, whether it faults or not (R61, R350). -/
theorem ExecShape.hostFrame {s t : State} (h : ExecShape s t) : HostFrame none s t := by
  cases h with
  | same => exact .refl s
  | reg i v => exact .of_eq rfl rfl rfl
  | regSeek i v o => exact .of_eq rfl rfl rfl
  | seek o => exact .of_eq rfl rfl rfl
  | pushed v o u hu =>
    obtain ⟨-, -, -, -, hu⟩ := State.push_some hu
    rw [hu]
    exact .of_eq rfl rfl rfl
  | popped v u hu =>
    obtain ⟨-, -, -, hu⟩ := State.pop_some hu
    rw [hu]
    exact .of_eq rfl rfl rfl
  | emitted e => exact .of_eq rfl rfl rfl
  | request u n => exact .of_eq rfl rfl rfl
  | range a b st _ => exact .of_eq rfl rfl rfl
  | ended o => exact .of_eq rfl rfl rfl
  | raised c => exact .of_eq rfl rfl rfl

theorem State.endOpcode_hostFrame (t : State) : HostFrame none t t.endOpcode := by
  cases hf : t.fault with
  | none =>
    obtain ⟨-, -, hrest⟩ := State.endOpcode_spec hf
    rw [hrest]
    exact .of_eq rfl rfl rfl
  | some record => simp [State.endOpcode, hf, HostFrame.refl]

theorem State.beginPass_hostFrame (s : State) (input : Snapshot) (now : Nat) :
    HostFrame none s (s.beginPass input now) := by
  unfold State.beginPass
  split <;> exact .of_eq rfl rfl rfl

/-- Looking at a thread adds a result only where the pass ends (R133, R143). -/
theorem State.scanThread_hostFrame (s : State) (k : Nat) : ∃ r, HostFrame r s (s.scanThread k) := by
  unfold State.scanThread
  split
  · split
    · exact ⟨none, .of_eq rfl rfl rfl⟩
    · exact ⟨none, .of_eq rfl rfl rfl⟩
  · exact ⟨some _, rfl, rfl, rfl⟩

theorem State.endUnpack_hostFrame (s : State) (r : HostResult) : HostFrame (some r) s (s.endUnpack r) := ⟨rfl, rfl, rfl⟩

theorem State.beginUnpack_hostFrame (s : State) (bytes : List Byte) (packedSize unpackedSize : Nat) :
    ∃ r, HostFrame r s (s.beginUnpack bytes packedSize unpackedSize) := by
  unfold State.beginUnpack
  split
  · exact ⟨none, .of_eq rfl rfl rfl⟩
  · exact ⟨_, s.endUnpack_hostFrame _⟩

/-- An iteration of the decode loop adds a result only where the call ends (R311, R312). -/
theorem State.unpackStep_hostFrame (s : State) (d : Decomp) : ∃ r, HostFrame r s (s.unpackStep d) := by
  unfold State.unpackStep
  split
  · split
    · exact ⟨none, .of_eq rfl rfl rfl⟩
    · exact ⟨_, s.endUnpack_hostFrame _⟩
  · exact ⟨_, s.endUnpack_hostFrame _⟩

/-- Of the host calls only `setByteCode` replaces the segment (R61, R384). -/
theorem hostCall_cases {c : HostCall} {s t : State} (h : hostCall c s = .next t) :
    (∃ r, HostFrame r s t) ∨ ∃ bytes, c = .setByteCode bytes ∧ t = s.setByteCode bytes := by
  cases c with
  | setByteCode bytes =>
    obtain ⟨-, rfl⟩ := of_ite_next h
    exact .inr ⟨bytes, rfl, rfl⟩
  | run input now => cases h; exact .inl ⟨_, s.beginPass_hostFrame input now⟩
  | getRegister i =>
    obtain ⟨-, rfl⟩ := of_ite_next h
    exact .inl ⟨some _, rfl, rfl, rfl⟩
  | setRegister i v =>
    obtain ⟨-, rfl⟩ := of_ite_next h
    exact .inl ⟨none, .of_eq rfl rfl rfl⟩
  | setMusicMark v =>
    obtain ⟨-, rfl⟩ := of_ite_next h
    exact .inl ⟨none, .of_eq rfl rfl rfl⟩
  | decompress bytes packedSize unpackedSize =>
    cases h
    exact .inl (s.beginUnpack_hostFrame bytes packedSize unpackedSize)

/-- A step keeps the segment and the calls to come and adds at most one result, unless it makes a host call; then the
block is idle, and the call is the oldest one to come. -/
theorem step_hostFrame_or_hostCall {s t : State} (h : step s = .next t) :
    (∃ r, HostFrame r s t) ∨
      s.phase = .idle ∧ ∃ c cs, s.hostQueue = c :: cs ∧ hostCall c { s with hostQueue := cs } = .next t := by
  obtain ⟨-, hc⟩ := step_next_cases h
  cases hc with
  | call c cs hp hq hcall => exact .inr ⟨hp, c, cs, hq, hcall⟩
  | waiting _ _ ht => subst ht; exact .inl ⟨_, .refl _⟩
  | scanned k _ ht => subst ht; exact .inl (s.scanThread_hostFrame k)
  | opcode i rest u _ _ hu ht =>
    subst ht
    have hfetched : HostFrame none s (s.fetched i.opcodeByte (s.window.length - rest.length)) := .of_eq rfl rfl rfl
    exact .inl ⟨_, (hfetched.trans (exec_next_shape hu).hostFrame).trans u.endOpcode_hostFrame⟩
  | missing _ _ _ ht => subst ht; exact .inl ⟨none, .of_eq rfl rfl rfl⟩
  | unpacked d _ ht => subst ht; exact .inl (s.unpackStep_hostFrame d)

/-- Settles O46: a step that makes a host call starts in an idle block, and any other leaves the queue alone. -/
theorem hostCallsWaitForIdle : Obligations.HostCallsWaitForIdle := by
  intro s t h
  rcases step_hostFrame_or_hostCall h with ⟨r, hr⟩ | ⟨hp, c, cs, hq, hcall⟩
  · exact ⟨fun _ => hr.hostQueue, r.toList, Option.length_toList_le, hr.results⟩
  · refine ⟨absurd hp, ?_⟩
    rcases hostCall_cases hcall with ⟨r, hr⟩ | ⟨bytes, -, rfl⟩
    · exact ⟨r.toList, Option.length_toList_le, hr.results⟩
    · exact ⟨[], by simp, by simp⟩

/-- Settles O47: the one step without the frame of the segment is a call of `setByteCode`. -/
theorem onlySetByteCodeReplacesSegment : Obligations.OnlySetByteCodeReplacesSegment := by
  intro s t h
  rcases step_hostFrame_or_hostCall h with ⟨r, hr⟩ | ⟨hp, c, cs, hq, hcall⟩
  · exact .inl ⟨hr.segment, hr.sameSegment⟩
  · rcases hostCall_cases hcall with ⟨r, hr⟩ | ⟨bytes, rfl, rfl⟩
    · exact .inl ⟨hr.segment, hr.sameSegment⟩
    · exact .inr ⟨bytes, cs, hp, hq, rfl, fun o => Memory.read_ofBytes bytes o.toNat⟩

end Sys2Proof.Machine

/-! # Proofs of the family 30_encoding.md -/

namespace Sys2Proof

/-! ## The operand formats in both directions (R94)

For each format, what it reads from encoded operands (`_bytes`) and what it took where it succeeds (`_ok`), as
`Laws/Codec.lean` has it for the fields whose shape mode bits select. -/

@[simp] theorem wordBytes_be16 (hi lo : Byte) : wordBytes (be16 hi lo) = [hi, lo] := by
  simp [wordBytes, hiByte_be16, loByte_be16]

theorem fmtB_bytes (mk : Byte → Instr) (b : Byte) (rest : List Byte) : fmtB mk ([b] ++ rest) = .ok (mk b, rest) := rfl

theorem fmtBB_bytes (mk : Byte → Byte → Instr) (b c : Byte) (rest : List Byte) :
    fmtBB mk ([b, c] ++ rest) = .ok (mk b c, rest) := rfl

theorem fmtBBB_bytes (mk : Byte → Byte → Byte → Instr) (b c d : Byte) (rest : List Byte) :
    fmtBBB mk ([b, c, d] ++ rest) = .ok (mk b c d, rest) := rfl

theorem fmtW_bytes (mk : Word → Instr) (w : Word) (rest : List Byte) :
    fmtW mk (wordBytes w ++ rest) = .ok (mk w, rest) := by
  simp [fmtW, wordBytes, be16_hiByte_loByte]

theorem fmtBW_bytes (mk : Byte → Word → Instr) (b : Byte) (w : Word) (rest : List Byte) :
    fmtBW mk (b :: wordBytes w ++ rest) = .ok (mk b w, rest) := by
  simp [fmtBW, wordBytes, be16_hiByte_loByte]

theorem fmtWBBB_bytes (mk : Word → Byte → Byte → Byte → Instr) (w : Word) (b c d : Byte) (rest : List Byte) :
    fmtWBBB mk (wordBytes w ++ [b, c, d] ++ rest) = .ok (mk w b c d, rest) := by
  simp [fmtWBBB, wordBytes, be16_hiByte_loByte]

theorem fmtWWB_bytes (mk : Word → Word → Byte → Instr) (w v : Word) (b : Byte) (rest : List Byte) :
    fmtWWB mk (wordBytes w ++ wordBytes v ++ [b] ++ rest) = .ok (mk w v b, rest) := by
  simp [fmtWWB, wordBytes, be16_hiByte_loByte]

theorem fmtCJ_bytes {v : Byte} {rhs : CmpOperand} (hrhs : rhs.agrees v = true) (r : Byte) (tgt : Word)
    (rest : List Byte) : fmtCJ (v :: r :: (rhs.bytes ++ wordBytes tgt) ++ rest) = .ok (.cjmp v r rhs tgt, rest) := by
  have hread := decodeCmpOperand_bytes hrhs (hiByte tgt :: loByte tgt :: rest)
  simp [fmtCJ, wordBytes, hread, be16_hiByte_loByte]

theorem fmtP40_bytes {m : BitVec 6} {x : XField} {y : YField} {z : ZoomField} (hx : x.agrees m = true)
    (hy : y.agrees m = true) (hz : z.agrees m = true) (hi lo : Byte) (rest : List Byte) :
    fmtP40 m (hi :: lo :: (x.bytes ++ y.bytes ++ z.bytes) ++ rest) = .ok (.poly40 m hi lo x y z, rest) := by
  simp [fmtP40, decodeXField_bytes hx, decodeYField_bytes hy, decodeZoomField_bytes hz]

section
variable {bs rest : List Byte} {i : Instr}

theorem fmtB_ok {mk : Byte → Instr} (h : fmtB mk bs = .ok (i, rest)) : ∃ b, i = mk b ∧ [b] ++ rest = bs := by
  unfold fmtB at h
  split at h <;> cases h
  exact ⟨_, rfl, rfl⟩

theorem fmtBB_ok {mk : Byte → Byte → Instr} (h : fmtBB mk bs = .ok (i, rest)) :
    ∃ b c, i = mk b c ∧ [b, c] ++ rest = bs := by
  unfold fmtBB at h
  split at h <;> cases h
  exact ⟨_, _, rfl, rfl⟩

theorem fmtBBB_ok {mk : Byte → Byte → Byte → Instr} (h : fmtBBB mk bs = .ok (i, rest)) :
    ∃ b c d, i = mk b c d ∧ [b, c, d] ++ rest = bs := by
  unfold fmtBBB at h
  split at h <;> cases h
  exact ⟨_, _, _, rfl, rfl⟩

theorem fmtW_ok {mk : Word → Instr} (h : fmtW mk bs = .ok (i, rest)) : ∃ w, i = mk w ∧ wordBytes w ++ rest = bs := by
  unfold fmtW at h
  split at h <;> cases h
  exact ⟨_, rfl, by simp⟩

theorem fmtBW_ok {mk : Byte → Word → Instr} (h : fmtBW mk bs = .ok (i, rest)) :
    ∃ b w, i = mk b w ∧ b :: wordBytes w ++ rest = bs := by
  unfold fmtBW at h
  split at h <;> cases h
  exact ⟨_, _, rfl, by simp⟩

theorem fmtWBBB_ok {mk : Word → Byte → Byte → Byte → Instr} (h : fmtWBBB mk bs = .ok (i, rest)) :
    ∃ w b c d, i = mk w b c d ∧ wordBytes w ++ [b, c, d] ++ rest = bs := by
  unfold fmtWBBB at h
  split at h <;> cases h
  exact ⟨_, _, _, _, rfl, by simp⟩

theorem fmtWWB_ok {mk : Word → Word → Byte → Instr} (h : fmtWWB mk bs = .ok (i, rest)) :
    ∃ w v b, i = mk w v b ∧ wordBytes w ++ wordBytes v ++ [b] ++ rest = bs := by
  unfold fmtWWB at h
  split at h <;> cases h
  exact ⟨_, _, _, rfl, by simp⟩

theorem fmtCJ_ok (h : fmtCJ bs = .ok (i, rest)) :
    ∃ v r rhs tgt, i = .cjmp v r rhs tgt ∧ rhs.agrees v = true ∧
      v :: r :: (rhs.bytes ++ wordBytes tgt) ++ rest = bs := by
  unfold fmtCJ at h
  split at h
  · split at h <;> cases h
    rename_i hread
    obtain ⟨hrhs, rfl⟩ := decodeCmpOperand_ok hread
    exact ⟨_, _, _, _, rfl, hrhs, by simp⟩
  · cases h

theorem fmtP40_ok {m : BitVec 6} (h : fmtP40 m bs = .ok (i, rest)) :
    ∃ hi lo x y z, i = .poly40 m hi lo x y z ∧ (x.agrees m = true ∧ y.agrees m = true ∧ z.agrees m = true) ∧
      hi :: lo :: (x.bytes ++ y.bytes ++ z.bytes) ++ rest = bs := by
  unfold fmtP40 at h
  split at h
  · split at h
    · cases h
    · split at h
      · cases h
      · split at h <;> cases h
        rename_i _ _ hreadX _ _ _ hreadY _ _ hreadZ
        obtain ⟨hx, rfl⟩ := decodeXField_ok hreadX
        obtain ⟨hy, rfl⟩ := decodeYField_ok hreadY
        obtain ⟨hz, rfl⟩ := decodeZoomField_ok hreadZ
        exact ⟨_, _, _, _, _, rfl, ⟨hx, hy, hz⟩, by simp⟩
  · cases h

end

/-! ## The opcode byte selects the format (R91, R93) -/

section
variable {op : Byte} {bs : List Byte}

theorem decode_of_bit7 (h7 : op.getLsbD 7 = true) : decode (op :: bs) = fmtBBB (.poly80 (op.extractLsb' 0 7)) bs := by
  simp only [decode, h7, if_true]

theorem decode_of_bit6 (h7 : op.getLsbD 7 = false) (h6 : op.getLsbD 6 = true) :
    decode (op :: bs) = fmtP40 (op.extractLsb' 0 6) bs := by
  simp only [decode, h7, h6, if_true, Bool.false_eq_true, if_false]

theorem decode_of_named (h7 : op.getLsbD 7 = false) (h6 : op.getLsbD 6 = false) :
    decode (op :: bs) = decodeNamed op bs := by
  simp only [decode, h7, h6, Bool.false_eq_true, if_false]

theorem decodeNamed_of_ge (h : 0x1C ≤ op.toNat) :
    decodeNamed op bs = fmtN (if op.toNat < 0x20 then .invalid1C (op.extractLsb' 0 2)
      else .invalid20 (op.extractLsb' 0 5)) bs := by
  unfold decodeNamed
  split <;> try omega
  split <;> rfl

end

theorem decode_poly80_opcodeByte (high : BitVec 7) (bs : List Byte) :
    decode ((1#1 ++ high : Byte) :: bs) = fmtBBB (.poly80 high) bs := by
  obtain ⟨h7, hhigh⟩ := poly80_opcodeByte_bits high
  rw [decode_of_bit7 h7, hhigh]

theorem decode_poly40_opcodeByte (m : BitVec 6) (bs : List Byte) :
    decode ((0b01#2 ++ m : Byte) :: bs) = fmtP40 m bs := by
  obtain ⟨h7, h6, hm⟩ := poly40_opcodeByte_bits m
  rw [decode_of_bit6 h7 h6, hm]

theorem invalid1C_opcodeByte_bits (low : BitVec 2) :
    (0b000111#6 ++ low : Byte).toNat = 0x1C + low.toNat ∧ (0b000111#6 ++ low : Byte).extractLsb' 0 2 = low := by
  revert low; decide

theorem invalid20_opcodeByte_bits (low : BitVec 5) :
    (0b001#3 ++ low : Byte).toNat = 0x20 + low.toNat ∧ (0b001#3 ++ low : Byte).extractLsb' 0 5 = low := by
  revert low; decide

theorem toNat_lt_0x40_iff_bits (op : Byte) : op.toNat < 0x40 ↔ op.getLsbD 7 = false ∧ op.getLsbD 6 = false := by
  revert op; decide

theorem decode_invalid1C_opcodeByte (low : BitVec 2) (bs : List Byte) :
    decode ((0b000111#6 ++ low : Byte) :: bs) = fmtN (.invalid1C low) bs := by
  obtain ⟨hop, hlow⟩ := invalid1C_opcodeByte_bits low
  obtain ⟨h7, h6⟩ := (toNat_lt_0x40_iff_bits (0b000111#6 ++ low)).1 (by omega)
  rw [decode_of_named h7 h6, decodeNamed_of_ge (by omega), if_pos (by omega), hlow]

theorem decode_invalid20_opcodeByte (low : BitVec 5) (bs : List Byte) :
    decode ((0b001#3 ++ low : Byte) :: bs) = fmtN (.invalid20 low) bs := by
  obtain ⟨hop, hlow⟩ := invalid20_opcodeByte_bits low
  obtain ⟨h7, h6⟩ := (toNat_lt_0x40_iff_bits (0b001#3 ++ low)).1 (by omega)
  rw [decode_of_named h7 h6, decodeNamed_of_ge (by omega), if_neg (by omega), hlow]

/-- Settles O2: each opcode byte selects its format, which reads the operands back. -/
theorem decodeInvertsEncode : Obligations.DecodeInvertsEncode := by
  intro i rest hwf
  cases i with dsimp only [encode, Instr.opcodeByte, Instr.operandBytes]
  | movi d n => exact fmtBW_bytes .movi d n rest
  | movr d s => exact fmtBB_bytes .movr d s rest
  | addr d s => exact fmtBB_bytes .addr d s rest
  | addi d n => exact fmtBW_bytes .addi d n rest
  | call tgt => exact fmtW_bytes .call tgt rest
  | ret => rfl
  | yield => rfl
  | jump tgt => exact fmtW_bytes .jump tgt rest
  | init t tgt => exact fmtBW_bytes .init t tgt rest
  | djnz r tgt => exact fmtBW_bytes .djnz r tgt rest
  | cjmp v r rhs tgt => exact fmtCJ_bytes hwf r tgt rest
  | palette w => exact fmtW_bytes .palette w rest
  | reset first last state => exact fmtBBB_bytes .reset first last state rest
  | page p => exact fmtB_bytes .page p rest
  | fill p c => exact fmtBB_bytes .fill p c rest
  | copy src dst => exact fmtBB_bytes .copy src dst rest
  | blit p => exact fmtB_bytes .blit p rest
  | kill => rfl
  | print id x y c => exact fmtWBBB_bytes .print id x y c rest
  | subr d s => exact fmtBB_bytes .subr d s rest
  | andi d n => exact fmtBW_bytes .andi d n rest
  | iori d n => exact fmtBW_bytes .iori d n rest
  | shli d n => exact fmtBW_bytes .shli d n rest
  | shri d n => exact fmtBW_bytes .shri d n rest
  | sound id freq vol chan => exact fmtWBBB_bytes .sound id freq vol chan rest
  | loadres id => exact fmtW_bytes .loadres id rest
  | music id delay pos => exact fmtWWB_bytes .music id delay pos rest
  | invalid1B => rfl
  | invalid1C low => exact decode_invalid1C_opcodeByte low rest
  | invalid20 low => exact decode_invalid20_opcodeByte low rest
  | poly40 m hi lo x y z =>
    simp only [Instr.wellFormed, Bool.and_eq_true] at hwf
    obtain ⟨⟨hx, hy⟩, hz⟩ := hwf
    exact (decode_poly40_opcodeByte m _).trans (fmtP40_bytes hx hy hz hi lo rest)
  | poly80 high lo x y => exact (decode_poly80_opcodeByte high _).trans (fmtBBB_bytes (.poly80 high) lo x y rest)

/-! ## What the decoder took -/

section
variable {op : Byte} {bs rest : List Byte} {i : Instr}

/-- `i` stands for an encoding, of which `op` is the opcode byte and `bs` without its tail `rest` the operand bytes. -/
structure EncodedBy (op : Byte) (bs : List Byte) (i : Instr) (rest : List Byte) : Prop where
  opcodeByte : i.opcodeByte = op
  wellFormed : i.wellFormed = true
  operandBytes : i.operandBytes ++ rest = bs

theorem decodeNamed_ok (h7 : op.getLsbD 7 = false) (h6 : op.getLsbD 6 = false)
    (h : decodeNamed op bs = .ok (i, rest)) : EncodedBy op bs i rest := by
  have hopcode : ∀ {n}, op.toNat = n → BitVec.ofNat 8 n = op := by rintro _ rfl; simp
  unfold decodeNamed at h
  split at h
  next hop => obtain ⟨d, n, rfl, rfl⟩ := fmtBW_ok h; exact ⟨hopcode hop, rfl, rfl⟩
  next hop => obtain ⟨d, s, rfl, rfl⟩ := fmtBB_ok h; exact ⟨hopcode hop, rfl, rfl⟩
  next hop => obtain ⟨d, s, rfl, rfl⟩ := fmtBB_ok h; exact ⟨hopcode hop, rfl, rfl⟩
  next hop => obtain ⟨d, n, rfl, rfl⟩ := fmtBW_ok h; exact ⟨hopcode hop, rfl, rfl⟩
  next hop => obtain ⟨tgt, rfl, rfl⟩ := fmtW_ok h; exact ⟨hopcode hop, rfl, rfl⟩
  next hop => cases h; exact ⟨hopcode hop, rfl, rfl⟩
  next hop => cases h; exact ⟨hopcode hop, rfl, rfl⟩
  next hop => obtain ⟨tgt, rfl, rfl⟩ := fmtW_ok h; exact ⟨hopcode hop, rfl, rfl⟩
  next hop => obtain ⟨t, tgt, rfl, rfl⟩ := fmtBW_ok h; exact ⟨hopcode hop, rfl, rfl⟩
  next hop => obtain ⟨r, tgt, rfl, rfl⟩ := fmtBW_ok h; exact ⟨hopcode hop, rfl, rfl⟩
  next hop => obtain ⟨v, r, rhs, tgt, rfl, hrhs, rfl⟩ := fmtCJ_ok h; exact ⟨hopcode hop, hrhs, rfl⟩
  next hop => obtain ⟨w, rfl, rfl⟩ := fmtW_ok h; exact ⟨hopcode hop, rfl, rfl⟩
  next hop => obtain ⟨first, last, state, rfl, rfl⟩ := fmtBBB_ok h; exact ⟨hopcode hop, rfl, rfl⟩
  next hop => obtain ⟨p, rfl, rfl⟩ := fmtB_ok h; exact ⟨hopcode hop, rfl, rfl⟩
  next hop => obtain ⟨p, c, rfl, rfl⟩ := fmtBB_ok h; exact ⟨hopcode hop, rfl, rfl⟩
  next hop => obtain ⟨src, dst, rfl, rfl⟩ := fmtBB_ok h; exact ⟨hopcode hop, rfl, rfl⟩
  next hop => obtain ⟨p, rfl, rfl⟩ := fmtB_ok h; exact ⟨hopcode hop, rfl, rfl⟩
  next hop => cases h; exact ⟨hopcode hop, rfl, rfl⟩
  next hop => obtain ⟨id, x, y, c, rfl, rfl⟩ := fmtWBBB_ok h; exact ⟨hopcode hop, rfl, rfl⟩
  next hop => obtain ⟨d, s, rfl, rfl⟩ := fmtBB_ok h; exact ⟨hopcode hop, rfl, rfl⟩
  next hop => obtain ⟨d, n, rfl, rfl⟩ := fmtBW_ok h; exact ⟨hopcode hop, rfl, rfl⟩
  next hop => obtain ⟨d, n, rfl, rfl⟩ := fmtBW_ok h; exact ⟨hopcode hop, rfl, rfl⟩
  next hop => obtain ⟨d, n, rfl, rfl⟩ := fmtBW_ok h; exact ⟨hopcode hop, rfl, rfl⟩
  next hop => obtain ⟨d, n, rfl, rfl⟩ := fmtBW_ok h; exact ⟨hopcode hop, rfl, rfl⟩
  next hop => obtain ⟨id, freq, vol, chan, rfl, rfl⟩ := fmtWBBB_ok h; exact ⟨hopcode hop, rfl, rfl⟩
  next hop => obtain ⟨id, rfl, rfl⟩ := fmtW_ok h; exact ⟨hopcode hop, rfl, rfl⟩
  next hop => obtain ⟨id, delay, pos, rfl, rfl⟩ := fmtWWB_ok h; exact ⟨hopcode hop, rfl, rfl⟩
  next hop => cases h; exact ⟨hopcode hop, rfl, rfl⟩
  next =>
    have hband : 0x1B < op.toNat := by grind
    split at h
    · cases h; exact ⟨invalid1C_opcodeByte_of_range op hband (by omega), rfl, rfl⟩
    · cases h; exact ⟨invalid20_opcodeByte_of_range op h7 h6 (by omega), rfl, rfl⟩

theorem decode_ok (h : decode (op :: bs) = .ok (i, rest)) : EncodedBy op bs i rest := by
  cases h7 : op.getLsbD 7 with
  | true =>
    rw [decode_of_bit7 h7] at h
    obtain ⟨lo, x, y, rfl, rfl⟩ := fmtBBB_ok h
    exact ⟨poly80_opcodeByte_of_bits op h7, rfl, rfl⟩
  | false =>
    cases h6 : op.getLsbD 6 with
    | true =>
      rw [decode_of_bit6 h7 h6] at h
      obtain ⟨hi, lo, x, y, z, rfl, ⟨hx, hy, hz⟩, rfl⟩ := fmtP40_ok h
      exact ⟨poly40_opcodeByte_of_bits op h7 h6, by simp [Instr.wellFormed, hx, hy, hz], rfl⟩
    | false =>
      rw [decode_of_named h7 h6] at h
      exact decodeNamed_ok h7 h6 h

end

/-- Settles O3: an empty list decodes to nothing, and of any other the decoder takes an opcode byte and operand bytes. -/
theorem encodeInvertsDecode : Obligations.EncodeInvertsDecode := by
  intro bs i rest h
  cases bs with
  | nil => cases h
  | cons op bs =>
    obtain ⟨rfl, hwf, rfl⟩ := decode_ok h
    exact ⟨hwf, rfl⟩

/-! ## The length of what the decoder took -/

theorem encodedLength (i : Instr) : Laws.EncodedLength.Statement i := by
  cases i with
  | movi d n => exact Laws.EncodedLength.movi d n
  | movr d s => exact Laws.EncodedLength.movr d s
  | addr d s => exact Laws.EncodedLength.addr d s
  | addi d n => exact Laws.EncodedLength.addi d n
  | call tgt => exact Laws.EncodedLength.call tgt
  | ret => exact Laws.EncodedLength.ret
  | yield => exact Laws.EncodedLength.yield
  | jump tgt => exact Laws.EncodedLength.jump tgt
  | init t tgt => exact Laws.EncodedLength.init t tgt
  | djnz r tgt => exact Laws.EncodedLength.djnz r tgt
  | cjmp v r rhs tgt => exact Laws.EncodedLength.cjmp v r rhs tgt
  | palette w => exact Laws.EncodedLength.palette w
  | reset first last state => exact Laws.EncodedLength.reset first last state
  | page p => exact Laws.EncodedLength.page p
  | fill p c => exact Laws.EncodedLength.fill p c
  | copy src dst => exact Laws.EncodedLength.copy src dst
  | blit p => exact Laws.EncodedLength.blit p
  | kill => exact Laws.EncodedLength.kill
  | print id x y c => exact Laws.EncodedLength.print id x y c
  | subr d s => exact Laws.EncodedLength.subr d s
  | andi d n => exact Laws.EncodedLength.andi d n
  | iori d n => exact Laws.EncodedLength.iori d n
  | shli d n => exact Laws.EncodedLength.shli d n
  | shri d n => exact Laws.EncodedLength.shri d n
  | sound id freq vol chan => exact Laws.EncodedLength.sound id freq vol chan
  | loadres id => exact Laws.EncodedLength.loadres id
  | music id delay pos => exact Laws.EncodedLength.music id delay pos
  | invalid1B => exact Laws.EncodedLength.invalid1B
  | invalid1C low => exact Laws.EncodedLength.invalid1C low
  | invalid20 low => exact Laws.EncodedLength.invalid20 low
  | poly40 m hi lo x y z => exact Laws.EncodedLength.poly40 m hi lo x y z
  | poly80 high lo x y => exact Laws.EncodedLength.poly80 high lo x y

/-- Settles O5: the bytes taken are the instruction's encoding, whose length is the opcode map's. -/
theorem decodeTakesByteLength : Obligations.DecodeTakesByteLength := by
  intro bs i rest h
  obtain ⟨hwf, rfl⟩ := encodeInvertsDecode bs i rest h
  obtain ⟨hlen, hpos, hmax⟩ := encodedLength i hwf
  exact ⟨by rw [List.length_append, hlen, Nat.add_comm], hpos, hmax⟩

/-- Settles O6, from the length of any instruction: three bytes, one or two each for x and y, at most one for zoom. -/
theorem polyFortyLength : Obligations.PolyFortyLength := by
  intro bs rest m hi lo x y z h
  obtain ⟨hlen, -, -⟩ := decodeTakesByteLength bs _ rest h
  simp only [Instr.byteLength] at hlen
  refine ⟨hlen, ?_⟩
  split_ifs at hlen <;> omega

/-! ## The instruction that the opcode byte selects (R91, R100) -/

theorem bit7_iff_toNat (op : Byte) : op.getLsbD 7 = true ↔ 0x80 ≤ op.toNat := by
  revert op; decide

theorem bit6_iff_toNat (op : Byte) : op.getLsbD 7 = false ∧ op.getLsbD 6 = true ↔ 0x40 ≤ op.toNat ∧ op.toNat < 0x80 := by
  revert op; decide

theorem poly40_opcodeByte_toNat (m : BitVec 6) : (0b01#2 ++ m : Byte).toNat = 0x40 + m.toNat := by
  revert m; decide

theorem poly80_opcodeByte_toNat (high : BitVec 7) : (1#1 ++ high : Byte).toNat = 0x80 + high.toNat := by
  revert high; decide

/-- The rows of the opcode map do not overlap: each instruction's opcode byte lies in the range of its row (R93). -/
theorem opcodeByte_range (i : Instr) :
    (0x80 ≤ i.opcodeByte.toNat ↔ ∃ high lo x y, i = .poly80 high lo x y) ∧
    (0x40 ≤ i.opcodeByte.toNat ∧ i.opcodeByte.toNat < 0x80 ↔ ∃ m hi lo x y z, i = .poly40 m hi lo x y z) ∧
    (0x1B ≤ i.opcodeByte.toNat ∧ i.opcodeByte.toNat ≤ 0x3F ↔
      i = .invalid1B ∨ (∃ low, i = .invalid1C low) ∨ ∃ low, i = .invalid20 low) := by
  cases i with
  | poly80 high lo x y =>
    simp [Instr.opcodeByte, poly80_opcodeByte_toNat]
    omega
  | poly40 m hi lo x y z =>
    simp [Instr.opcodeByte, poly40_opcodeByte_toNat]
    omega
  | invalid1C low =>
    simp [Instr.opcodeByte, (invalid1C_opcodeByte_bits low).1]
    omega
  | invalid20 low =>
    simp [Instr.opcodeByte, (invalid20_opcodeByte_bits low).1]
    omega
  | _ => simp [Instr.opcodeByte]

/-- Settles O4: eight bytes always decode, to an instruction with this opcode byte, whose range tells its row. -/
theorem opcodeByteSelectsInstruction : Obligations.OpcodeByteSelectsInstruction := by
  intro op bs hlen
  cases h : decode (op :: bs) with
  | error e =>
    have hshort := decode_error_length h
    simp only [List.length_cons] at hshort
    omega
  | ok p =>
    obtain ⟨i, rest⟩ := p
    obtain ⟨hop, -, -⟩ := decode_ok h
    obtain ⟨h80, h40, hband⟩ := opcodeByte_range i
    rw [hop] at h80 h40 hband
    exact ⟨i, rest, rfl, hop, (bit7_iff_toNat op).trans h80, (bit6_iff_toNat op).trans h40, hband⟩

/-- Settles O1, by evaluation. -/
theorem sampleWordsDecode : Obligations.SampleWordsDecode := ⟨rfl, rfl, rfl, rfl, rfl, rfl, rfl, rfl, rfl, rfl⟩

end Sys2Proof

namespace Sys2Proof.Machine

theorem invalid1C_opcodeByte_eq (low : BitVec 2) : (0b000111#6 ++ low : Byte) = BitVec.ofNat 8 (0x1C + low.toNat) := by
  rw [← (invalid1C_opcodeByte_bits low).1, BitVec.ofNat_toNat, BitVec.setWidth_eq]

theorem invalid20_opcodeByte_eq (low : BitVec 5) : (0b001#3 ++ low : Byte) = BitVec.ofNat 8 (0x20 + low.toNat) := by
  rw [← (invalid20_opcodeByte_bits low).1, BitVec.ofNat_toNat, BitVec.setWidth_eq]

/-- Settles O31: the three rows of the band raise the fault, each with its own opcode byte. -/
theorem invalidOpcodesFault : Obligations.InvalidOpcodesFault := by
  intro l2 l5 s
  refine ⟨⟨_, rfl, s.raise_faultedBy _⟩, ⟨_, rfl, ?_⟩, ⟨_, rfl, ?_⟩⟩
  · rw [← invalid1C_opcodeByte_eq]
    exact s.raise_faultedBy _
  · rw [← invalid20_opcodeByte_eq]
    exact s.raise_faultedBy _

end Sys2Proof.Machine

/-! # Proofs of the family 40_scheduler.md -/

namespace Sys2Proof.Machine

/-! ## The step of each phase of a pass -/

section
variable {s : State} (hf : s.fault = none)
include hf

/-- A `run` next in the queue begins its pass: the input copy, the dispatch pass, and thread 0 comes next (R130 to R132). -/
theorem step_of_run {m : Memory} {input : Snapshot} {now : Nat} {calls : List HostCall} (hp : s.phase = .idle)
    (hq : s.hostQueue = .run input now :: calls) (hseg : s.segment = some m) :
    step s = .next { s with
      regs := inputCopy s.params input s.regs
      tcbs := s.tcbs.map Tcb.dispatch
      phase := .scan 0
      passNow := now
      passMark := s.events.length
      hostQueue := calls } := by
  simp [step, hf, hp, hostStep, hq, hostCall, State.beginPass, hseg]

theorem step_of_run_without_segment {input : Snapshot} {now : Nat} {calls : List HostCall} (hp : s.phase = .idle)
    (hq : s.hostQueue = .run input now :: calls) (hseg : s.segment = none) :
    step s = .next (State.takeFault { s with hostQueue := calls } noSegmentRecord) := by
  simp [step, hf, hp, hostStep, hq, hostCall, State.beginPass, hseg]

theorem step_of_scan {k : Nat} (hp : s.phase = .scan k) : step s = .next (s.scanThread k) := by
  simp [step, hf, hp]

theorem step_of_decode_ok {i : Instr} {rest : List Byte} {t : State} (hp : s.phase = .slice)
    (hd : decode s.window = .ok (i, rest))
    (hexec : exec i (s.fetched i.opcodeByte (s.window.length - rest.length)) = .next t) :
    step s = .next t.endOpcode := by
  simp [step, hf, hp, fetchInstr, hd, hexec, endOpcodeResult]

end

/-! ## The beginning of a pass (R130 to R132) -/

/-- Dispatch field by field: a pending `requested_pc` is applied, 0xFFFE as a halt, and none is pending after it (R132). -/
theorem Tcb.dispatch_eq (c : Tcb) : c.dispatch =
    { c with
      currentState := c.requestedState
      currentPc := if c.requestedPc = 0xFFFF then c.currentPc
        else if c.requestedPc = 0xFFFE then 0xFFFF else c.requestedPc
      requestedPc := 0xFFFF } := by
  unfold Tcb.dispatch
  by_cases hpending : c.requestedPc ≠ 0xFFFF
  · simp only [if_pos hpending, if_neg hpending]
  · have hnone : c.requestedPc = 0xFFFF := not_not.1 hpending
    simp [hnone]

/-- Two register banks with the same registers are equal. -/
theorem RegBank.ext_byte {x y : RegBank} (h : ∀ j : Byte, x[j.toNat]'(j.isLt) = y[j.toNat]'(j.isLt)) : x = y := by
  refine Vector.ext fun n hn => ?_
  have hj := h (BitVec.ofNatLT n hn)
  simpa using hj

/-- Settles O36: after the input copy a reserved register is the map's and any other the bank's, which is the map's too
where the map writes no other. -/
theorem inputCopyWritesOnlyReserved : Obligations.InputCopyWritesOnlyReserved := by
  rintro s m input now calls mapped hf hp hq hseg rfl
  have hcopy := getElem_inputCopy s.params input s.regs
  refine ⟨_, step_of_run hf hp hq hseg, rfl, fun j hj => ?_, fun j hj => ?_, fun hkeeps => RegBank.ext_byte fun j => ?_⟩
  · exact (hcopy j).trans (if_neg hj)
  · exact (hcopy j).trans (if_pos hj)
  · rw [hcopy]
    split
    · rfl
    · exact (hkeeps j ‹_›).symm

/-- Settles O34: the pass does not begin, and the fault touches no result. -/
theorem runWithoutSegmentFaults : Obligations.RunWithoutSegmentFaults := by
  intro s input now calls hf hp hq hseg
  exact ⟨_, step_of_run_without_segment hf hp hq hseg, rfl, rfl, rfl⟩

/-- Settles O35, from the pass's beginning and what dispatch does to one thread. -/
theorem dispatchAppliesRequests : Obligations.DispatchAppliesRequests := by
  intro s m input now calls hf hp hq hseg
  refine ⟨_, step_of_run hf hp hq hseg, rfl, rfl, rfl, rfl, fun k => ?_, rfl, fun _ => rfl⟩
  rw [← Tcb.dispatch_eq]
  simp [State.tcb]

/-! ## The execution pass looks at a thread (R133, R134, R143) -/

theorem State.scanThread_of_skipped {s : State} {k : Fin 64}
    (h : (s.tcb k).currentPc = 0xFFFF ∨ (s.tcb k).currentState ≠ 0) :
    s.scanThread k.val = { s with phase := .scan (k.val + 1) } := by
  have hrun : ¬ (s.tcb k).lifecycle = .runnable := by
    rw [Tcb.lifecycle_eq_runnable_iff]
    tauto
  simp [State.scanThread, hrun]

theorem State.scanThread_of_runnable {s : State} {k : Fin 64} (hpc : (s.tcb k).currentPc ≠ 0xFFFF)
    (hstate : (s.tcb k).currentState = 0) : s.scanThread k.val = s.beginSlice k := by
  have hrun := (Tcb.lifecycle_eq_runnable_iff (s.tcb k)).2 ⟨hpc, hstate⟩
  simp [State.scanThread, hrun]

theorem State.scanThread_of_le {s : State} {k : Nat} (h : 64 ≤ k) : s.scanThread k = s.endPass := by
  simp [State.scanThread, Nat.not_lt.2 h]

/-- The execution pass does one of three things when it reaches a thread. -/
theorem State.scanThread_cases (s : State) (k : Nat) :
    s.scanThread k = { s with phase := .scan (k + 1) } ∨
      (∃ j : Fin 64, (s.tcb j).currentPc ≠ 0xFFFF ∧ s.scanThread k = s.beginSlice j) ∨ s.scanThread k = s.endPass := by
  by_cases hk : k < 64
  · by_cases hrun : (s.tcb ⟨k, hk⟩).lifecycle = .runnable
    · obtain ⟨hpc, hstate⟩ := (Tcb.lifecycle_eq_runnable_iff _).1 hrun
      exact .inr (.inl ⟨⟨k, hk⟩, hpc, State.scanThread_of_runnable hpc hstate⟩)
    · rw [Tcb.lifecycle_eq_runnable_iff] at hrun
      exact .inl (State.scanThread_of_skipped (k := ⟨k, hk⟩) (by tauto))
  · exact .inr (.inr (State.scanThread_of_le (Nat.not_lt.1 hk)))

theorem State.beginSlice_sp (s : State) (t : Fin 64) :
    (s.beginSlice t).sp = if s.params.stackSliceReset then 0 else s.sp := rfl

theorem lt_deadline (now : Nat) (pauseSlices : Word) (quantum : Nat) : now < deadline now pauseSlices quantum := by
  unfold deadline
  omega

/-- Settles O37. -/
theorem haltedAndPausedThreadsAreSkipped : Obligations.HaltedAndPausedThreadsAreSkipped := by
  intro s k hf hp hskip
  rw [step_of_scan hf hp, State.scanThread_of_skipped hskip]

/-- Settles O38: the pass reaches a runnable thread and starts its slice. -/
theorem sliceStartSeeksThread : Obligations.SliceStartSeeksThread := by
  intro s k hf hp hpc hstate
  refine ⟨s.beginSlice k, ?_, rfl, rfl, rfl, fun h => ?_, fun h => ?_, s.tcb_beginSlice k, fun _ => rfl, rfl, fun _ => rfl⟩
  · rw [step_of_scan hf hp, State.scanThread_of_runnable hpc hstate]
  · simp [State.beginSlice_sp, h]
  · simp [State.beginSlice_sp, h]

/-- Settles O41: past thread 63 the pass ends, and its deadline is later than `now`. -/
theorem passReturnsDeadline : Obligations.PassReturnsDeadline := by
  intro s k hf hp hk
  refine ⟨s.endPass, _, ?_, rfl, rfl, lt_deadline _ _ _, rfl, rfl, fun _ => rfl⟩
  rw [step_of_scan hf hp, State.scanThread_of_le hk]

/-! ## A halted thread during the execution pass (R141, R390) -/

/-- The pass starts no slice of a halted thread, and looking at threads wakes none. -/
theorem State.scanThread_halted {s : State} {k : Fin 64} (h : (s.tcb k).currentPc = 0xFFFF) (n : Nat) :
    ((s.scanThread n).tcb k).currentPc = 0xFFFF ∧ ((s.scanThread n).phase = .slice → (s.scanThread n).cur ≠ k) := by
  rcases s.scanThread_cases n with hskip | ⟨j, hj, hslice⟩ | hend
  · rw [hskip]; exact ⟨h, nofun⟩
  · have hne : j ≠ k := fun e => hj (e ▸ h)
    rw [hslice, State.tcb_beginSlice, if_neg hne.symm]
    exact ⟨h, fun _ => hne⟩
  · rw [hend]; exact ⟨h, nofun⟩

/-- Settles O40: looking at a thread starts no halted one, and an opcode moves only its own thread's `current_pc`. -/
theorem haltedThreadNeverStartsWithinPass : Obligations.HaltedThreadNeverStartsWithinPass := by
  intro s t k hpass hhalted hother hstep hf
  cases hp : s.phase with
  | idle => simp [hp, Phase.inPass] at hpass
  | unpack d => simp [hp, Phase.inPass] at hpass
  | scan n =>
    obtain ⟨hfault, -⟩ := step_next_cases hstep
    rw [step_of_scan hfault hp] at hstep
    cases hstep
    exact State.scanThread_halted hhalted n
  | slice =>
    have o := step_slice_opcodeStep hp hstep hf
    have hne := hother hp
    rw [o.otherPc k hne.symm, o.cur]
    exact ⟨hhalted, fun _ => hne⟩

/-! ## The instruction at the cursor (R136 to R138) -/

/-- Bytes that stand in the segment from `a` on are what a read of at least as many begins with. -/
theorem State.prefix_segBytes {s : State} {a : Word} {bs : List Byte} {n : Nat} (hn : bs.length ≤ n)
    (h : ∀ j, j < bs.length → s.segByte (a + BitVec.ofNat 16 j) = bs[j]?) : bs <+: s.segBytes n a := by
  obtain ⟨-, -, hmissing⟩ := s.segBytes_spec n a
  have hlen : bs.length ≤ (s.segBytes n a).length := by
    by_contra hshort
    have hthere := h _ (Nat.not_le.1 hshort)
    rw [hmissing (by omega)] at hthere
    exact hshort (List.getElem?_eq_none_iff.1 hthere.symm)
  refine List.prefix_iff_getElem?.2 fun j hj => ?_
  rw [s.segBytes_getElem? (by omega), h j hj, List.getElem?_eq_getElem hj]

/-- The window decodes to an instruction iff the segment holds its encoding from the cursor on. -/
theorem State.decode_window_iff (s : State) (i : Instr) :
    (∃ rest, decode s.window = .ok (i, rest)) ↔
      i.wellFormed = true ∧ ∀ j, j < i.byteLength → s.segByte (s.pc + BitVec.ofNat 16 j) = (encode i)[j]? := by
  constructor
  · rintro ⟨rest, hd⟩
    obtain ⟨hwf, happend⟩ := encodeInvertsDecode _ i rest hd
    obtain ⟨hlen, -, -⟩ := encodedLength i hwf
    refine ⟨hwf, fun j hj => ?_⟩
    rw [← hlen] at hj
    have hwindow : j < s.window.length := by rw [← happend, List.length_append]; omega
    calc s.segByte (s.pc + BitVec.ofNat 16 j) = s.window[j]? := (s.segBytes_getElem? hwindow).symm
      _ = (encode i ++ rest)[j]? := by rw [happend]
      _ = (encode i)[j]? := List.getElem?_append_left hj
  · rintro ⟨hwf, hbytes⟩
    obtain ⟨hlen, -, hmax⟩ := encodedLength i hwf
    rw [← hlen] at hbytes hmax
    obtain ⟨rest, happend⟩ := State.prefix_segBytes hmax hbytes
    exact ⟨rest, by rw [State.window, ← happend]; exact decodeInvertsEncode i rest hwf⟩

theorem State.endOpcode_of_fault {t : State} (h : t.fault.isSome = true) : t.endOpcode = t := if_pos h

/-- Settles O9: the decoded bytes are the encoding at the cursor, and the step executes what they decode to. -/
theorem stepRunsDecodedInstruction : Obligations.StepRunsDecodedInstruction := by
  intro s i hf hp
  refine ⟨s.decode_window_iff i, fun rest hd => ?_⟩
  obtain ⟨hlen, -, -⟩ := decodeTakesByteLength _ i rest hd
  have hcount : s.window.length - rest.length = i.byteLength := by omega
  obtain ⟨t, hexec, -⟩ := exec_shape i (s.fetched i.opcodeByte i.byteLength)
  exact ⟨s.fetched i.opcodeByte i.byteLength, t, rfl, rfl, s.tcb_fetched _ _, rfl, hexec,
    step_of_decode_ok hf hp hd (by rw [hcount]; exact hexec), State.endOpcode_of_fault, State.endOpcode_spec⟩

/-! ## The end of a slice (R138) -/

/-- A step of a slice that does not fault executes the instruction at the cursor and ends its opcode. -/
theorem step_slice_exec {s t : State} (hp : s.phase = .slice) (h : step s = .next t) (hf : t.fault = none) :
    ∃ i rest u, decode s.window = .ok (i, rest) ∧
      exec i (s.fetched i.opcodeByte (s.window.length - rest.length)) = .next u ∧ u.fault = none ∧ t = u.endOpcode := by
  obtain ⟨-, hc⟩ := step_next_cases h
  cases hc with
  | opcode i rest u _ hd hu ht =>
    subst ht
    rw [State.endOpcode_fault] at hf
    exact ⟨i, rest, u, hd, hu, hf, rfl⟩
  | missing _ _ _ ht => subst ht; simp at hf
  | waiting hq => simp [hp] at hq
  | call _ _ hq => simp [hp] at hq
  | scanned _ hq => simp [hp] at hq
  | unpacked _ hq => simp [hp] at hq

theorem Tcb.request_yield (state : Byte) (c : Tcb) : (c.request state).yield = c.yield := by
  unfold Tcb.request
  split <;> rfl

theorem State.yield_fetched (s : State) (op : Byte) (n : Nat) (k : Fin 64) :
    ((s.fetched op n).tcb k).yield = (s.tcb k).yield := by
  rw [State.tcb_fetched]
  split <;> rfl

/-- `yield` and `kill` set the current thread's `yield` (R222, R224). -/
theorem exec_sets_yield {i : Instr} {s t : State} (hi : i = .yield ∨ i = .kill) (h : exec i s = .next t) :
    (t.tcb s.cur).yield = true := by
  rcases hi with rfl | rfl
  · cases h; simp
  · cases h; simp

/-- No other instruction writes any thread's `yield`, unless it faults (R138). -/
theorem exec_keeps_yield {i : Instr} {s t : State} (hyield : i ≠ .yield) (hkill : i ≠ .kill) (h : exec i s = .next t)
    (hf : t.fault = none) (k : Fin 64) : (t.tcb k).yield = (s.tcb k).yield := by
  cases i with
  | yield => exact absurd rfl hyield
  | kill => exact absurd rfl hkill
  | call tgt =>
    simp only [exec, execCall] at h
    split at h
    · rename_i u hu
      cases h
      obtain ⟨-, -, -, -, hu⟩ := State.push_some hu
      rw [hu]; rfl
    · cases h; simp at hf
  | ret =>
    simp only [exec, execRet] at h
    split at h
    · rename_i v u hu
      cases h
      obtain ⟨-, -, -, hu⟩ := State.pop_some hu
      rw [hu]; rfl
    · cases h; simp at hf
  | init u tgt =>
    simp only [exec, execInit] at h
    split at h
    · cases h
      rw [State.tcb_modifyTcb]
      split
      · rename_i hk; subst hk; rfl
      · rfl
    · cases h; simp at hf
  | reset first last state =>
    simp only [exec, execReset] at h
    split at h
    · cases h; simp at hf
    split at h
    · cases h; simp at hf
    · cases h
      rw [State.tcb_modifyRange]
      split
      · exact Tcb.request_yield _ _
      · rfl
  | cjmp v r rhs tgt =>
    simp only [exec, execCjmp] at h
    split at h
    · cases h; simp at hf
    · cases h; rfl
    · cases h; rfl
  | djnz r tgt =>
    simp only [exec, execDjnz] at h
    split at h
    · cases h; rfl
    · cases h; rfl
  | invalid1B | invalid1C | invalid20 => cases h; simp at hf
  | movi | movr | addr | addi | subr | andi | iori | shli | shri => cases h; rfl
  | jump => cases h; rfl
  | palette | page | fill | copy | blit | print | sound | loadres | music | poly40 | poly80 => cases h; rfl

/-- Settles O39: the flag is clear before the opcode, `yield` and `kill` set it, and no other opcode writes it. -/
theorem sliceEndsOnlyAtYieldOrKill : Obligations.SliceEndsOnlyAtYieldOrKill := by
  intro s t hp hclear hstep hf
  obtain ⟨i, rest, u, hd, hu, hfault, rfl⟩ := step_slice_exec hp hstep hf
  have hframe := exec_frame hu hfault
  have hcur : u.cur = s.cur := hframe.cur
  have hslice : u.phase = .slice := hframe.phase.trans hp
  obtain ⟨-, hphase, -⟩ := State.endOpcode_spec hfault
  rw [hcur] at hphase
  refine ⟨i, rest, hd, ?_⟩
  by_cases hi : i = .yield ∨ i = .kill
  · have hset : (u.tcb s.cur).yield = true := exec_sets_yield (s := s.fetched _ _) hi hu
    exact .inl ⟨hi, by rw [hphase, if_pos hset]⟩
  · obtain ⟨hyield, hkill⟩ := not_or.1 hi
    have hkept : (u.tcb s.cur).yield = false := by
      rw [exec_keeps_yield hyield hkill hu hfault, State.yield_fetched, hclear]
    exact .inr ⟨⟨hyield, hkill⟩, by rw [hphase, if_neg (by simp [hkept]), hslice]⟩

end Sys2Proof.Machine

/-! # Proofs of the family 41_data_arith.md -/

namespace Sys2Proof.Machine

/-! ## Each instruction writes one value to its destination register

With `State.reg_setReg_self` and `State.setReg_onlyRegister`, the equation gives the effect and the frame. -/

section
variable (d src : Byte) (n : Word) (s : State)

theorem exec_movi : exec (.movi d n) s = .next (s.setReg d n) := rfl

theorem exec_movr : exec (.movr d src) s = .next (s.setReg d (s.reg src)) := rfl

theorem exec_addi : exec (.addi d n) s = .next (s.setReg d (s.reg d + n)) := rfl

theorem exec_addr : exec (.addr d src) s = .next (s.setReg d (s.reg d + s.reg src)) := rfl

theorem exec_subr : exec (.subr d src) s = .next (s.setReg d (s.reg d - s.reg src)) := rfl

theorem exec_andi : exec (.andi d n) s = .next (s.setReg d (s.reg d &&& n)) := rfl

theorem exec_iori : exec (.iori d n) s = .next (s.setReg d (s.reg d ||| n)) := rfl

theorem exec_shli : exec (.shli d n) s = .next (s.setReg d (shiftLeft16 (s.reg d) n)) := rfl

theorem exec_shri : exec (.shri d n) s = .next (s.setReg d (shiftRight16 (s.reg d) n)) := rfl

end

/-! ## The shifts bit by bit (R167, R168)

The model's test for a count of 16 or more agrees with the shift of bit vectors, which shifts every bit out. -/

theorem shiftLeft16_eq_zero (v : Word) {n : Word} (h : 16 ≤ n.toNat) : shiftLeft16 v n = 0 := if_neg (Nat.not_lt.2 h)

theorem shiftRight16_eq_zero (v : Word) {n : Word} (h : 16 ≤ n.toNat) : shiftRight16 v n = 0 := if_neg (Nat.not_lt.2 h)

theorem shiftLeft16_eq (v n : Word) : shiftLeft16 v n = v <<< n.toNat := by
  by_cases h : n.toNat < 16
  · exact if_pos h
  · have hge : 16 ≤ n.toNat := Nat.not_lt.1 h
    rw [shiftLeft16_eq_zero v hge, BitVec.shiftLeft_eq_zero hge]
    rfl

theorem shiftRight16_eq (v n : Word) : shiftRight16 v n = v >>> n.toNat := by
  by_cases h : n.toNat < 16
  · exact if_pos h
  · have hge : 16 ≤ n.toNat := Nat.not_lt.1 h
    rw [shiftRight16_eq_zero v hge, BitVec.ushiftRight_eq_zero hge]
    rfl

theorem getLsbD_shiftLeft16 (v n : Word) {k : Nat} (hk : k < 16) :
    (shiftLeft16 v n).getLsbD k = (decide (n.toNat ≤ k) && v.getLsbD (k - n.toNat)) := by
  rw [shiftLeft16_eq, BitVec.getLsbD_shiftLeft]
  simp only [hk, decide_true, Bool.true_and, ← decide_not, Nat.not_lt]

theorem getLsbD_shiftRight16 (v n : Word) (k : Nat) :
    (shiftRight16 v n).getLsbD k = (decide (k + n.toNat < 16) && v.getLsbD (k + n.toNat)) := by
  rw [shiftRight16_eq, BitVec.getLsbD_ushiftRight, Nat.add_comm]
  by_cases h : k + n.toNat < 16
  · simp [h]
  · simp [h, BitVec.getLsbD_of_ge v _ (Nat.not_lt.1 h)]

/-! ## The statements -/

/-- Settles O12: one sum or difference of bit vectors is the modular result under both readings (R169). -/
theorem addAndSubtractWrap : Obligations.AddAndSubtractWrap := by
  intro d src n s
  refine ⟨⟨_, exec_addi d n s, ?_, ?_, s.setReg_onlyRegister d _⟩, ⟨_, exec_addr d src s, ?_, ?_, s.setReg_onlyRegister d _⟩,
    ⟨_, exec_subr d src s, ?_, ?_, s.setReg_onlyRegister d _⟩⟩ <;> rw [State.reg_setReg_self]
  · exact BitVec.toNat_add _ _
  · exact BitVec.toInt_add _ _
  · exact BitVec.toNat_add _ _
  · exact BitVec.toInt_add _ _
  · rw [BitVec.toNat_sub, Nat.add_comm]
  · exact BitVec.toInt_sub

/-- Settles O14: the bits of a shifted word, and the zero of a count that no bit survives. -/
theorem shiftsAreLogicalAndUnmasked : Obligations.ShiftsAreLogicalAndUnmasked := by
  intro d n s
  refine ⟨⟨_, exec_shli d n s, ?_, ?_, s.setReg_onlyRegister d _⟩, ⟨_, exec_shri d n s, ?_, ?_, s.setReg_onlyRegister d _⟩⟩ <;>
    rw [State.reg_setReg_self]
  · exact fun _ hk => getLsbD_shiftLeft16 _ n hk
  · exact shiftLeft16_eq_zero _
  · exact fun k _ => getLsbD_shiftRight16 _ n k
  · exact shiftRight16_eq_zero _

/-- Settles O11. -/
theorem moveWritesDestination : Obligations.MoveWritesDestination := fun d src n s =>
  ⟨⟨_, exec_movi d n s, s.reg_setReg_self d n, s.setReg_onlyRegister d n⟩,
    ⟨_, exec_movr d src s, s.reg_setReg_self d _, s.setReg_onlyRegister d _⟩⟩

/-- Settles O13: the bits of the conjunction and of the disjunction. -/
theorem bitwiseImmediatesActOnEachBit : Obligations.BitwiseImmediatesActOnEachBit := by
  intro d n s
  refine ⟨⟨_, exec_andi d n s, fun k => ?_, s.setReg_onlyRegister d _⟩,
    ⟨_, exec_iori d n s, fun k => ?_, s.setReg_onlyRegister d _⟩⟩ <;> rw [State.reg_setReg_self]
  · exact BitVec.getLsbD_and
  · exact BitVec.getLsbD_or

end Sys2Proof.Machine

/-! # Proofs of the family 42_control.md -/

namespace Sys2Proof.Machine

/-! ## What each control transfer does

A conditional transfer that is not taken leaves the cursor where it stands, after the instruction, which is the same as
seeking there: so each outcome that is no fault is one `seek`. -/

section
variable {s t : State} {tgt v : Word}

theorem State.seek_onlyCursor (s : State) (o : Word) : OnlyCursor s (s.seek o) := ⟨fun _ => rfl, rfl, fun _ => rfl⟩

theorem exec_jump (tgt : Word) (s : State) : exec (.jump tgt) s = .next (s.seek tgt) := rfl

theorem exec_cjmp_of_condition {w r : Byte} {rhs : CmpOperand} {c : Bool}
    (h : condition (conditionCode w) (s16 (s.reg r)) (cmpValue s rhs) = some c) :
    exec (.cjmp w r rhs tgt) s = .next (s.seek (if c then tgt else s.pc)) := by
  simp only [exec, execCjmp, h]
  cases c with
  | true => rfl
  | false => rfl

theorem exec_cjmp_of_badCondition {w r : Byte} {rhs : CmpOperand}
    (h : condition (conditionCode w) (s16 (s.reg r)) (cmpValue s rhs) = none) :
    exec (.cjmp w r rhs tgt) s = .next (s.raise (.badCondition (conditionCode w))) := by
  simp only [exec, execCjmp, h]

theorem exec_djnz (r : Byte) (tgt : Word) (s : State) :
    exec (.djnz r tgt) s = .next ((s.setReg r (s.reg r - 1)).seek (if s.reg r - 1 = 0 then s.pc else tgt)) := by
  by_cases h : s.reg r - 1 = 0
  · simp only [exec, execDjnz, h, ne_eq, not_true_eq_false, if_false, if_true]
    rfl
  · simp only [exec, execDjnz, h, ne_eq, not_false_eq_true, if_false, if_true]

theorem exec_call_of_push (h : s.push s.pc = some t) : exec (.call tgt) s = .next (t.seek tgt) := by
  simp only [exec, execCall, h]

theorem exec_call_of_overflow (h : s.push s.pc = none) : exec (.call tgt) s = .next (s.raise .stackOverflow) := by
  simp only [exec, execCall, h]

theorem exec_ret_of_pop (h : s.pop = some (v, t)) : exec .ret s = .next (t.seek v) := by
  simp only [exec, execRet, h]

theorem exec_ret_of_underflow (h : s.pop = none) : exec .ret s = .next (s.raise .stackUnderflow) := by
  simp only [exec, execRet, h]

end

/-- Settles O16. -/
theorem jumpSetsCursor : Obligations.JumpSetsCursor := fun tgt s => ⟨_, exec_jump tgt s, rfl, s.seek_onlyCursor tgt⟩

/-! ## Conditional transfers (R193 to R195) -/

section
variable {cc : BitVec 3} (b a : Int)

theorem condition_eq (h : cc.toNat = 0) : condition cc b a = some (decide (b = a)) := by simp only [condition, h]

theorem condition_ne (h : cc.toNat = 1) : condition cc b a = some (decide (b ≠ a)) := by simp only [condition, h]

theorem condition_gt (h : cc.toNat = 2) : condition cc b a = some (decide (b > a)) := by simp only [condition, h]

theorem condition_ge (h : cc.toNat = 3) : condition cc b a = some (decide (b ≥ a)) := by simp only [condition, h]

theorem condition_lt (h : cc.toNat = 4) : condition cc b a = some (decide (b < a)) := by simp only [condition, h]

theorem condition_le (h : cc.toNat = 5) : condition cc b a = some (decide (b ≤ a)) := by simp only [condition, h]

end

/-- Where the cursor goes on the outcome `c` of a condition is where it goes on the comparison `p` that computes it. -/
theorem cursor_of_condition {p : Prop} [Decidable p] {o : Option Bool} {c : Bool} {tgt pc : Word} (hc : o = some c)
    (hp : o = some (decide p)) : (if c then tgt else pc) = if p then tgt else pc := by
  obtain rfl : c = decide p := Option.some.inj (hc.symm.trans hp)
  simp only [decide_eq_true_eq]

theorem conditionCode_eq_ofNat (v : Byte) : conditionCode v = BitVec.ofNat 3 (v.toNat % 8) := by
  rw [← conditionCode_toNat, BitVec.ofNat_toNat, BitVec.setWidth_eq]

/-- Settles O17: the codes 0 to 5 have an outcome, which is that of their comparison, and the others have none. -/
theorem cjmpComparesSigned : Obligations.CjmpComparesSigned := by
  intro v r rhs tgt s a b hb ha
  obtain rfl : a = cmpValue s rhs := by cases rhs <;> exact ha
  obtain rfl : b = s16 (s.reg r) := hb
  rw [← conditionCode_eq_ofNat, ← conditionCode_toNat]
  constructor
  · intro hcode
    have hsome := mt (condition_eq_none_iff (conditionCode v) (s16 (s.reg r)) (cmpValue s rhs)).1 (Nat.not_le.2 hcode)
    obtain ⟨c, hc⟩ := Option.ne_none_iff_exists'.1 hsome
    exact ⟨_, exec_cjmp_of_condition hc, s.seek_onlyCursor _,
      fun h => cursor_of_condition hc (condition_eq _ _ h), fun h => cursor_of_condition hc (condition_ne _ _ h),
      fun h => cursor_of_condition hc (condition_gt _ _ h), fun h => cursor_of_condition hc (condition_ge _ _ h),
      fun h => cursor_of_condition hc (condition_lt _ _ h), fun h => cursor_of_condition hc (condition_le _ _ h)⟩
  · intro hcode
    exact ⟨_, exec_cjmp_of_badCondition ((condition_eq_none_iff _ _ _).2 hcode), s.raise_faultedBy _⟩

theorem sub_one_eq_zero_iff_toNat (w : Word) : w - 1 = 0 ↔ w.toNat = 1 := by
  constructor
  · intro h; bv_omega
  · intro h; bv_omega

/-- Settles O18: the decremented register is 0 exactly if the register was 1. -/
theorem djnzDecrementsThenTests : Obligations.DjnzDecrementsThenTests := by
  intro r tgt s
  refine ⟨_, exec_djnz r tgt s, ?_, ?_, fun j hj => s.reg_setReg_ne hj _, rfl, fun _ => rfl⟩
  · rw [State.seek_reg, State.reg_setReg_self, BitVec.toNat_sub, Nat.add_comm]
    rfl
  · simp only [State.seek_pc, sub_one_eq_zero_iff_toNat]

/-! ## The call stack (R196 to R198) -/

/-- Settles O19: the push succeeds exactly below 256 entries. -/
theorem callPushesReturnOffset : Obligations.CallPushesReturnOffset := by
  intro tgt s
  constructor
  · intro hsp
    obtain ⟨u, hu⟩ := s.push_isSome s.pc hsp
    obtain ⟨-, hindex, hentry, hothers, hrest⟩ := State.push_some hu
    refine ⟨_, exec_call_of_push hu, rfl, hindex, hentry, hothers, fun j => ?_, congrArg (·.seek tgt) hrest, fun o => ?_⟩
    · rw [hrest]; rfl
    · rw [hrest]; rfl
  · intro hsp
    exact ⟨_, exec_call_of_overflow ((s.push_none_iff _).2 hsp), s.raise_faultedBy _⟩

/-- Settles O20: the pop succeeds exactly above 0 entries. -/
theorem retPopsCursor : Obligations.RetPopsCursor := by
  intro s
  constructor
  · intro hsp
    obtain ⟨v, u, hu⟩ := s.pop_isSome hsp
    obtain ⟨-, hindex, hentry, hrest⟩ := State.pop_some hu
    refine ⟨_, exec_ret_of_pop hu, hentry, hindex, fun j => ?_, congrArg (·.seek v) hrest, fun o => ?_⟩
    · rw [hrest]; rfl
    · rw [hrest]; rfl
  · intro hsp
    exact ⟨_, exec_ret_of_underflow (s.pop_none_iff.2 hsp), s.raise_faultedBy _⟩

/-- `t` is `depth` calls deep from `s`. Of `offsets`, which lists the cursor of `s` and then the targets of the calls, the
entry `depth` is the cursor, and those before it are the offsets to return to, the latest on top. -/
structure CallDepth (s : State) (offsets : List Word) (depth : Nat) (t : State) : Prop where
  fault : t.fault = none
  sp : t.sp.val = s.sp.val + depth
  pc : offsets[depth]? = some t.pc
  pushed : ∀ m, m < depth → t.stack[s.sp.val + m]? = offsets[m]?
  below : ∀ m, m < s.sp.val → t.stack[m]? = s.stack[m]?
  reg : ∀ j, t.reg j = s.reg j

theorem CallDepth.zero {s : State} (h : s.fault = none) (targets : List Word) : CallDepth s (s.pc :: targets) 0 s :=
  ⟨h, rfl, rfl, nofun, fun _ _ => rfl, fun _ => rfl⟩

section
variable {s t : State} {offsets : List Word} {d : Nat}

theorem CallDepth.call (h : CallDepth s offsets d t) {tgt : Word} (hroom : s.sp.val + d < 256)
    (htgt : offsets[d + 1]? = some tgt) : ∃ u, exec (.call tgt) t = .next u ∧ CallDepth s offsets (d + 1) u := by
  obtain ⟨u, hexec, hpc, hsp, hentry, hothers, hreg, hrest, -⟩ :=
    (callPushesReturnOffset tgt t).1 (by rw [h.sp]; exact hroom)
  rw [h.sp] at hsp hentry hothers
  refine ⟨u, hexec, by rw [hrest]; exact h.fault, hsp, by rw [hpc]; exact htgt, fun m hm => ?_, fun m hm => ?_,
    fun j => (hreg j).trans (h.reg j)⟩
  · rcases Nat.lt_succ_iff_lt_or_eq.1 hm with hlt | rfl
    · rw [hothers _ (by omega), h.pushed m hlt]
    · rw [hentry, h.pc]
  · rw [hothers m (by omega), h.below m hm]

theorem CallDepth.ret (h : CallDepth s offsets (d + 1) t) : ∃ u, exec .ret t = .next u ∧ CallDepth s offsets d u := by
  have hindex : t.sp.val - 1 = s.sp.val + d := by rw [h.sp]; omega
  obtain ⟨u, hexec, hpc, hsp, hreg, hrest, -⟩ := (retPopsCursor t).1 (by rw [h.sp]; omega)
  have hstack : u.stack = t.stack := by rw [hrest]
  rw [hindex] at hpc hsp
  refine ⟨u, hexec, by rw [hrest]; exact h.fault, hsp, ?_, fun m hm => ?_, fun m hm => ?_,
    fun j => (hreg j).trans (h.reg j)⟩
  · rw [← h.pushed d (Nat.lt_succ_self d), hpc]
  · rw [hstack, h.pushed m (by omega)]
  · rw [hstack, h.below m hm]

theorem execAll_cons_of_next {i : Instr} (is : List Instr) (h : exec i s = .next t) (hf : t.fault = none) :
    execAll (i :: is) s = execAll is t := by
  simp [execAll, h, hf]

/-- Calls to the targets that the list still names, before any further instructions. -/
theorem CallDepth.calls {targets : List Word} (h : CallDepth s offsets d t) (htargets : offsets.drop (d + 1) = targets)
    (hroom : s.sp.val + d + targets.length ≤ 256) :
    ∃ u, (∀ is, execAll (targets.map .call ++ is) t = execAll is u) ∧ CallDepth s offsets (d + targets.length) u := by
  induction targets generalizing d t with
  | nil => exact ⟨t, fun _ => rfl, h⟩
  | cons tgt targets ih =>
    rw [List.length_cons] at hroom ⊢
    have htgt : offsets[d + 1]? = some tgt := by rw [← List.head?_drop, htargets, List.head?_cons]
    have hlater : offsets.drop (d + 1 + 1) = targets := by rw [← List.drop_drop, htargets, List.drop_one, List.tail_cons]
    obtain ⟨u, hexec, hu⟩ := h.call (by omega) htgt
    obtain ⟨w, hall, hw⟩ := ih hu hlater (by omega)
    refine ⟨w, fun is => ?_, by rw [Nat.add_comm targets.length, ← Nat.add_assoc]; exact hw⟩
    rw [List.map_cons, List.cons_append, execAll_cons_of_next _ hexec hu.fault, hall]

theorem CallDepth.rets {k : Nat} (h : CallDepth s offsets (d + k) t) :
    ∃ u, execAll (List.replicate k .ret) t = .next u ∧ CallDepth s offsets d u := by
  induction k generalizing t with
  | zero => exact ⟨t, rfl, h⟩
  | succ k ih =>
    obtain ⟨u, hexec, hu⟩ := CallDepth.ret (d := d + k) h
    obtain ⟨w, hall, hw⟩ := ih hu
    exact ⟨w, by rw [List.replicate_succ, execAll_cons_of_next _ hexec hu.fault, hall], hw⟩

end

/-- Settles O21: the calls go down to the depth of their number, and each return goes up by one. -/
theorem nestedCallsReturnInReverseOrder : Obligations.NestedCallsReturnInReverseOrder := by
  intro targets k s hf hroom hk
  obtain ⟨u, hcalls, hu⟩ := (CallDepth.zero hf targets).calls (targets := targets) rfl hroom
  have hdepth : 0 + targets.length = targets.length - k + k := by omega
  rw [hdepth] at hu
  obtain ⟨t, hrets, ht⟩ := hu.rets
  exact ⟨t, (hcalls _).trans hrets, ht.fault, ht.pc, ht.sp, ht.reg, ht.below⟩

/-! ## Instructions that write no register -/

/-- An outcome of an instruction executed in `s` that writes no register, unless it is a fault. -/
def KeepsRegs (s : State) (r : Result) : Prop := ∀ t, r = .next t → t.fault = none → ∀ j, t.reg j = s.reg j

section
variable {s t : State}

theorem KeepsRegs.next (h : ∀ j, t.reg j = s.reg j) : KeepsRegs s (.next t) := by
  rintro _ ⟨⟩ -
  exact h

theorem KeepsRegs.raise (c : FaultCause) : KeepsRegs s (.next (s.raise c)) := by
  rintro _ ⟨⟩ hf
  simp at hf

theorem exec_call_keepsRegs (tgt : Word) : KeepsRegs s (exec (.call tgt) s) := by
  cases hpush : s.push s.pc with
  | none => rw [exec_call_of_overflow hpush]; exact .raise _
  | some u =>
    obtain ⟨-, -, -, -, hu⟩ := State.push_some hpush
    rw [exec_call_of_push hpush, hu]
    exact .next fun _ => rfl

theorem exec_ret_keepsRegs : KeepsRegs s (exec .ret s) := by
  cases hpop : s.pop with
  | none => rw [exec_ret_of_underflow hpop]; exact .raise _
  | some p =>
    obtain ⟨-, -, -, hu⟩ := State.pop_some hpop
    rw [exec_ret_of_pop hpop, hu]
    exact .next fun _ => rfl

theorem exec_cjmp_keepsRegs (w r : Byte) (rhs : CmpOperand) (tgt : Word) : KeepsRegs s (exec (.cjmp w r rhs tgt) s) := by
  cases hc : condition (conditionCode w) (s16 (s.reg r)) (cmpValue s rhs) with
  | none => rw [exec_cjmp_of_badCondition hc]; exact .raise _
  | some c => rw [exec_cjmp_of_condition hc]; exact .next fun _ => rfl

theorem exec_init_keepsRegs (k : Byte) (tgt : Word) : KeepsRegs s (exec (.init k tgt) s) := by
  simp only [exec, execInit]
  split
  · exact .next fun _ => rfl
  · exact .raise _

theorem exec_reset_keepsRegs (first last state : Byte) : KeepsRegs s (exec (.reset first last state) s) := by
  simp only [exec, execReset]
  split
  · exact .raise _
  split
  · exact .raise _
  · exact .next fun _ => rfl

end

/-- Settles O15, instruction by instruction. -/
theorem onlyDataInstructionsAndDjnzWriteRegisters : Obligations.OnlyDataInstructionsAndDjnzWriteRegisters := by
  intro i s t h hf hi
  suffices hkeeps : KeepsRegs s (exec i s) from hkeeps t h hf
  cases i with
  | movi | movr | addi | addr | subr | andi | iori | shli | shri | djnz => exact False.elim hi
  | call tgt => exact exec_call_keepsRegs tgt
  | ret => exact exec_ret_keepsRegs
  | cjmp v r rhs tgt => exact exec_cjmp_keepsRegs v r rhs tgt
  | init k tgt => exact exec_init_keepsRegs k tgt
  | reset first last state => exact exec_reset_keepsRegs first last state
  | jump | yield | kill => exact .next fun _ => rfl
  | palette | page | fill | copy | blit | print | sound | loadres | music | poly40 | poly80 => exact .next fun _ => rfl
  | invalid1B | invalid1C | invalid20 => exact .raise _

end Sys2Proof.Machine

/-! # Proofs of the family 43_thread_control.md -/

namespace Sys2Proof.Machine

/-! ## What each thread-control instruction does -/

section
variable (s : State)

theorem State.tcb_modifyTcb_eq_ite (t k : Fin 64) (f : Tcb → Tcb) :
    (s.modifyTcb t f).tcb k = if k = t then f (s.tcb k) else s.tcb k := by
  by_cases h : k = t
  · subst h; rw [State.tcb_modifyTcb_self, if_pos rfl]
  · rw [State.tcb_modifyTcb_ne s h, if_neg h]

theorem State.modifyTcb_onlyTcbs (t : Fin 64) (f : Tcb → Tcb) : OnlyTcbs s (s.modifyTcb t f) :=
  ⟨fun _ => rfl, rfl, fun _ => rfl⟩

theorem State.modifyRange_onlyTcbs (first last : Nat) (f : Tcb → Tcb) : OnlyTcbs s (s.modifyRange first last f) :=
  ⟨fun _ => rfl, rfl, fun _ => rfl⟩

theorem exec_kill : exec .kill s = .next ((s.seek 0xFFFF).modifyTcb s.cur fun c => { c with yield := true }) := rfl

theorem exec_yield : exec .yield s = .next (s.modifyTcb s.cur fun c => { c with yield := true }) := rfl

theorem exec_init_of_lt {t : Byte} (h : t.toNat < 64) (tgt : Word) :
    exec (.init t tgt) s = .next (s.modifyTcb ⟨t.toNat, h⟩ fun c => { c with requestedPc := tgt }) := by
  simp only [exec, execInit, dif_pos h]

theorem exec_init_of_badThread {t : Byte} (h : 64 ≤ t.toNat) (tgt : Word) :
    exec (.init t tgt) s = .next (s.raise (.badThreadId t)) := by
  simp only [exec, execInit, dif_neg (Nat.not_lt.2 h)]

variable {first last state : Byte}

/-- The range is checked first, so the state operand does not matter here (R364). -/
theorem exec_reset_of_badRange (h : 64 ≤ first.toNat ∨ 64 ≤ last.toNat ∨ last.toNat < first.toNat) :
    exec (.reset first last state) s = .next (s.raise (.badThreadRange first last)) := by
  simp only [exec, execReset]
  exact if_pos h

theorem exec_reset_of_goodRange (hfirst : first.toNat < 64) (hlast : last.toNat < 64)
    (hle : first.toNat ≤ last.toNat) :
    exec (.reset first last state) s =
      if 3 ≤ state.toNat then .next (s.raise (.badThreadState state))
      else .next (s.modifyRange first.toNat last.toNat (Tcb.request state)) := by
  simp only [exec, execReset]
  exact if_neg (by omega)

end

/-! ## The statements of tier 1 -/

/-- Settles O23: the thread operand names a thread exactly below 64. -/
theorem initRequestsPcChange : Obligations.InitRequestsPcChange := by
  intro t tgt s
  constructor
  · intro ht
    refine ⟨_, exec_init_of_lt s ht tgt, s.modifyTcb_onlyTcbs _ _, fun k => ?_⟩
    simp only [State.tcb_modifyTcb_eq_ite, Fin.ext_iff]
  · intro ht
    exact ⟨_, exec_init_of_badThread s ht tgt, s.raise_faultedBy _⟩

/-- Settles O24. -/
theorem killAndYieldSetYieldFlag : Obligations.KillAndYieldSetYieldFlag := fun s =>
  ⟨⟨_, exec_kill s, rfl, fun k => (s.seek 0xFFFF).tcb_modifyTcb_eq_ite s.cur k _, fun _ => rfl, rfl, fun _ => rfl⟩,
    ⟨_, exec_yield s, s.modifyTcb_onlyTcbs _ _, fun k => s.tcb_modifyTcb_eq_ite s.cur k _⟩⟩

/-! ## `reset` (R226) -/

theorem Tcb.request_eq (state : Byte) (c : Tcb) :
    c.request state = if state.toNat = 2 then { c with requestedPc := 0xFFFE } else { c with requestedState := state } := by
  simp only [Tcb.request, BitVec.toNat_eq]
  rfl

/-- Settles O25: the range operands decide first, then the state operand. -/
theorem resetActsOnThreadRange : Obligations.ResetActsOnThreadRange := by
  intro first last state s
  refine ⟨fun hfirst hlast hle hstate => ?legal, fun hrange => ?badRange, fun hfirst hlast hle hstate => ?badState⟩
  case legal =>
    have hexec := exec_reset_of_goodRange s (state := state) hfirst hlast hle
    rw [if_neg (Nat.not_le.2 hstate)] at hexec
    refine ⟨_, hexec, s.modifyRange_onlyTcbs _ _ _, fun k => ?_⟩
    rw [State.tcb_modifyRange, Tcb.request_eq]
  case badRange => exact ⟨_, exec_reset_of_badRange s hrange, s.raise_faultedBy _⟩
  case badState =>
    have hexec := exec_reset_of_goodRange s (state := state) hfirst hlast hle
    rw [if_pos hstate] at hexec
    exact ⟨_, hexec, s.raise_faultedBy _⟩

/-! ## Which instructions write thread control blocks (R228) -/

/-- An outcome of an instruction executed in `s` that writes no thread control block, unless it is a fault. -/
def KeepsTcbs (s : State) (r : Result) : Prop := ∀ t, r = .next t → t.fault = none → t.tcbs = s.tcbs

section
variable {s t : State}

theorem KeepsTcbs.next (h : t.tcbs = s.tcbs) : KeepsTcbs s (.next t) := by
  rintro _ ⟨⟩ -
  exact h

theorem KeepsTcbs.raise (c : FaultCause) : KeepsTcbs s (.next (s.raise c)) := by
  rintro _ ⟨⟩ hf
  simp at hf

theorem exec_call_keepsTcbs (tgt : Word) : KeepsTcbs s (exec (.call tgt) s) := by
  cases hpush : s.push s.pc with
  | none => rw [exec_call_of_overflow hpush]; exact .raise _
  | some u =>
    obtain ⟨-, -, -, -, hu⟩ := State.push_some hpush
    rw [exec_call_of_push hpush, hu]
    exact .next rfl

theorem exec_ret_keepsTcbs : KeepsTcbs s (exec .ret s) := by
  cases hpop : s.pop with
  | none => rw [exec_ret_of_underflow hpop]; exact .raise _
  | some p =>
    obtain ⟨-, -, -, hu⟩ := State.pop_some hpop
    rw [exec_ret_of_pop hpop, hu]
    exact .next rfl

theorem exec_cjmp_keepsTcbs (w r : Byte) (rhs : CmpOperand) (tgt : Word) : KeepsTcbs s (exec (.cjmp w r rhs tgt) s) := by
  cases hc : condition (conditionCode w) (s16 (s.reg r)) (cmpValue s rhs) with
  | none => rw [exec_cjmp_of_badCondition hc]; exact .raise _
  | some c => rw [exec_cjmp_of_condition hc]; exact .next rfl

theorem exec_djnz_keepsTcbs (r : Byte) (tgt : Word) : KeepsTcbs s (exec (.djnz r tgt) s) := by
  rw [exec_djnz]
  exact .next rfl

end

/-- An instruction outside 43_thread_control.md that does not fault writes no thread control block. -/
theorem exec_keepsTcbs {i : Instr} (s : State) (hinit : ∀ a b, i ≠ .init a b) (hreset : ∀ a b c, i ≠ .reset a b c)
    (hyield : i ≠ .yield) (hkill : i ≠ .kill) : KeepsTcbs s (exec i s) := by
  cases i with
  | init a b => exact absurd rfl (hinit a b)
  | reset a b c => exact absurd rfl (hreset a b c)
  | yield => exact absurd rfl hyield
  | kill => exact absurd rfl hkill
  | call tgt => exact exec_call_keepsTcbs tgt
  | ret => exact exec_ret_keepsTcbs
  | cjmp v r rhs tgt => exact exec_cjmp_keepsTcbs v r rhs tgt
  | djnz r tgt => exact exec_djnz_keepsTcbs r tgt
  | jump => exact .next rfl
  | movi | movr | addr | addi | subr | andi | iori | shli | shri => exact .next rfl
  | palette | page | fill | copy | blit | print | sound | loadres | music | poly40 | poly80 => exact .next rfl
  | invalid1B | invalid1C | invalid20 => exact .raise _

/-- The two fields that hold what is asked of a thread (R23) are the same. -/
def Tcb.SameRequests (c c' : Tcb) : Prop := c'.requestedPc = c.requestedPc ∧ c'.requestedState = c.requestedState

theorem State.sameRequests_setYield (s : State) (t k : Fin 64) :
    (s.tcb k).SameRequests ((s.modifyTcb t fun c => { c with yield := true }).tcb k) := by
  rw [State.tcb_modifyTcb_eq_ite]
  split <;> exact ⟨rfl, rfl⟩

/-- Settles O26: `kill` and `yield` write only the yield flag, and the others no thread control block. -/
theorem onlyInitAndResetWriteRequests : Obligations.OnlyInitAndResetWriteRequests := by
  intro i s t h hf hinit hreset k
  by_cases hyield : i = .yield
  · subst hyield
    cases h
    exact s.sameRequests_setYield s.cur k
  by_cases hkill : i = .kill
  · subst hkill
    cases h
    exact (s.seek 0xFFFF).sameRequests_setYield s.cur k
  have htcbs : t.tcbs = s.tcbs := exec_keepsTcbs s hinit hreset hyield hkill t h hf
  simp only [State.tcb, htcbs, and_self]

end Sys2Proof.Machine

/-! # Proofs of the family 44_engine_calls.md -/

namespace Sys2Proof.Machine

/-! ## What each engine call does

Every engine call is one `emit`, so one frame lemma about `emit` serves them all; the equations below say which event. -/

section
variable (s : State)

/-- The frame of R250: an emitted event lengthens the event output and leaves the rest of the state. -/
theorem State.emit_onlyEvent (e : Event) : OnlyEvent e s (s.emit e) :=
  ⟨s.emit_events e, s.emit_reg e, rfl, s.emit_segByte e⟩

/-- The high byte `w[15:8]` (R253) as arithmetic. -/
theorem hiByte_eq_ofNat (w : Word) : hiByte w = BitVec.ofNat 8 (w.toNat / 256) := by
  apply BitVec.eq_of_toNat_eq
  rw [hiByte, BitVec.extractLsb'_toNat, BitVec.toNat_ofNat, Nat.shiftRight_eq_div_pow]

theorem exec_palette (w : Word) :
    exec (.palette w) s = .next (s.emit (.selectPalette (BitVec.ofNat 8 (w.toNat / 256)))) := by
  rw [← hiByte_eq_ofNat]
  rfl

theorem exec_page (p : Byte) : exec (.page p) s = .next (s.emit (.selectPage p)) := rfl

theorem exec_fill (p c : Byte) : exec (.fill p c) s = .next (s.emit (.fillPage p c)) := rfl

theorem exec_copy (src dst : Byte) :
    exec (.copy src dst) s = .next (s.emit (.copyPage src dst (s.reg s.params.idxScrollY).toInt)) := rfl

theorem exec_blit (p : Byte) : exec (.blit p) s = .next (s.emit (.blitPage p)) := rfl

theorem exec_print (id : Word) (x y c : Byte) : exec (.print id x y c) s = .next (s.emit (.drawString id x y c)) := rfl

theorem exec_sound (id : Word) (freq vol chan : Byte) :
    exec (.sound id freq vol chan) s = .next (s.emit (.playSound id freq vol chan)) := rfl

theorem exec_music (id delay : Word) (pos : Byte) :
    exec (.music id delay pos) s = .next (s.emit (.playMusic id delay pos)) := rfl

theorem exec_loadres (id : Word) : exec (.loadres id) s = .next (s.emit (.load id)) := rfl

end

/-- Settles O28: each engine call is one `emit`, whose frame is `State.emit_onlyEvent`. -/
theorem engineCallsEmitOneEvent : Obligations.EngineCallsEmitOneEvent := fun w w' a b c s =>
  ⟨⟨_, exec_palette s w, s.emit_onlyEvent _⟩,
   ⟨_, exec_page s a, s.emit_onlyEvent _⟩,
   ⟨_, exec_fill s a b, s.emit_onlyEvent _⟩,
   ⟨_, exec_copy s a b, s.emit_onlyEvent _⟩,
   ⟨_, exec_blit s a, s.emit_onlyEvent _⟩,
   ⟨_, exec_print s w a b c, s.emit_onlyEvent _⟩,
   ⟨_, exec_sound s w a b c, s.emit_onlyEvent _⟩,
   ⟨_, exec_music s w w' a, s.emit_onlyEvent _⟩,
   ⟨_, exec_loadres s w, s.emit_onlyEvent _⟩⟩

end Sys2Proof.Machine

/-! # Proofs of the family 45_polygon.md -/

namespace Sys2Proof.Machine

/-! ## The offset of the polygon data (R97, R98) -/

/-- The offset of two bytes (R98) as arithmetic: the bits that the doubling shifts out are the ones `ofNat` drops. -/
theorem polygonOffset_eq_ofNat (hi lo : Byte) :
    polygonOffset hi lo = BitVec.ofNat 16 ((hi.toNat * 256 + lo.toNat) * 2) := by
  have happend : (hi ++ lo : Word).toNat = hi.toNat * 256 + lo.toNat := by
    rw [BitVec.toNat_append, ← Nat.shiftLeft_add_eq_or_of_lt lo.isLt, Nat.shiftLeft_eq]
  apply BitVec.eq_of_toNat_eq
  rw [polygonOffset, BitVec.toNat_shiftLeft, BitVec.toNat_ofNat, happend, Nat.shiftLeft_eq, pow_one]

/-- The corner case of R282: bit 7 of the opcode byte does not reach the offset. -/
theorem polygonOffset_poly80_opcodeByte (high : BitVec 7) (lo : Byte) :
    polygonOffset (1#1 ++ high) lo = BitVec.ofNat 16 ((high.toNat * 256 + lo.toNat) * 2) := by
  rw [polygonOffset_eq_ofNat, poly80_opcodeByte_toNat]
  apply BitVec.eq_of_toNat_eq
  simp only [BitVec.toNat_ofNat]
  omega

/-! ## The position of `poly80` (R282) -/

section
variable {x y : Byte}

theorem poly80Position_of_le (h : y.toNat ≤ 199) : poly80Position x y = ((x.toNat : Int), (y.toNat : Int)) :=
  if_neg (Nat.not_lt.mpr h)

theorem poly80Position_of_gt (h : 199 < y.toNat) :
    poly80Position x y = ((x.toNat : Int) + ((y.toNat : Int) - 199), 199) :=
  if_pos h

/-- The bounds of R282: the largest x is 255 with the excess 56 of y = 255. -/
theorem poly80Position_le (x y : Byte) : (poly80Position x y).1 ≤ 311 ∧ (poly80Position x y).2 ≤ 199 := by
  have hx := x.isLt
  have hy := y.isLt
  rcases Nat.lt_or_ge 199 y.toNat with h | h
  case inl => rw [poly80Position_of_gt h]; omega
  case inr => rw [poly80Position_of_le h]; omega

end

/-! ## The fields of `poly40` (R284 to R286) -/

section
variable (s : State)

@[simp] theorem xValue_imm16 (n : Word) : xValue s (.imm16 n) = n.toInt := rfl
@[simp] theorem xValue_reg (b : Byte) : xValue s (.reg b) = (s.reg b).toInt := rfl
@[simp] theorem xValue_byte (b : Byte) : xValue s (.byte b) = (b.toNat : Int) := rfl
@[simp] theorem xValue_bytePlus256 (b : Byte) : xValue s (.bytePlus256 b) = (b.toNat : Int) + 256 := rfl

@[simp] theorem yValue_imm16 (n : Word) : yValue s (.imm16 n) = n.toInt := rfl
@[simp] theorem yValue_reg (b : Byte) : yValue s (.reg b) = (s.reg b).toInt := rfl
@[simp] theorem yValue_byte (b : Byte) : yValue s (.byte b) = (b.toNat : Int) := rfl

@[simp] theorem toNat_zoomValue_unscaled : (zoomValue s .unscaled).toNat = 64 := rfl
@[simp] theorem toNat_zoomValue_reg (b : Byte) : (zoomValue s (.reg b)).toNat = (s.reg b).toNat := rfl
@[simp] theorem toNat_zoomValue_secondBuffer : (zoomValue s .secondBuffer).toNat = 64 := rfl

/-- A zoom byte is zero-extended (R286), so no sign enters the 16-bit value. -/
@[simp] theorem toNat_zoomValue_byte (b : Byte) : (zoomValue s (.byte b)).toNat = b.toNat :=
  BitVec.toNat_setWidth_of_le (by decide)

end

theorem zoomBuffer_eq_one_iff (z : ZoomField) : zoomBuffer z = 1 ↔ z = .secondBuffer := by
  cases z with
  | unscaled | reg | byte => simp [zoomBuffer]
  | secondBuffer => simp [zoomBuffer]

/-! ## What the two instructions do

Each is one `emit`, so `State.emit_onlyEvent` gives the frame of both. -/

theorem exec_poly80 (high : BitVec 7) (lo x y : Byte) (s : State) :
    exec (.poly80 high lo x y) s =
      .next (s.emit (.drawPolygon 0 (BitVec.ofNat 16 ((high.toNat * 256 + lo.toNat) * 2))
        (poly80Position x y).1 (poly80Position x y).2 64)) := by
  rw [← polygonOffset_poly80_opcodeByte]
  rfl

theorem exec_poly40 (m : BitVec 6) (hi lo : Byte) (x : XField) (y : YField) (z : ZoomField) (s : State) :
    exec (.poly40 m hi lo x y z) s =
      .next (s.emit (.drawPolygon (zoomBuffer z) (BitVec.ofNat 16 ((hi.toNat * 256 + lo.toNat) * 2))
        (xValue s x) (yValue s y) (zoomValue s z))) := by
  rw [← polygonOffset_eq_ofNat]
  rfl

/-- Settles O29, from the two cases of the position and its bounds. -/
theorem polyEightyDrawsClamped : Obligations.PolyEightyDrawsClamped := by
  intro high lo x y s
  obtain ⟨hpx, hpy⟩ := poly80Position_le x y
  refine ⟨_, _, _, exec_poly80 high lo x y s, s.emit_onlyEvent _, fun h => ?_, fun h => ?_, hpx, hpy⟩
  · simp only [poly80Position_of_le h, and_self]
  · simp only [poly80Position_of_gt h, and_self]

/-- Settles O30, one case per shape of each field. -/
theorem polyFortyDrawsFromFields : Obligations.PolyFortyDrawsFromFields := by
  intro m hi lo x y z s
  refine ⟨_, _, _, _, _, exec_poly40 m hi lo x y z s, s.emit_onlyEvent _, ?px, ?py, ?zoom, zoomBuffer_eq_one_iff z⟩
  case px =>
    cases x with
    | imm16 n => exact xValue_imm16 s n
    | reg b => exact xValue_reg s b
    | byte b => exact xValue_byte s b
    | bytePlus256 b => exact xValue_bytePlus256 s b
  case py =>
    cases y with
    | imm16 n => exact yValue_imm16 s n
    | reg b => exact yValue_reg s b
    | byte b => exact yValue_byte s b
  case zoom =>
    cases z with
    | unscaled => exact toNat_zoomValue_unscaled s
    | reg b => exact toNat_zoomValue_reg s b
    | byte b => exact toNat_zoomValue_byte s b
    | secondBuffer => exact toNat_zoomValue_secondBuffer s

end Sys2Proof.Machine

/-! # Proofs of the family 46_decompressor.md -/

namespace Sys2Proof.Machine

/-! ## The buffer as a byte string -/

theorem Memory.getElem?_toBytes (m : Memory) (o : Nat) : m.toBytes[o]? = m.read o := by
  by_cases h : o < m.len
  · simp [Memory.toBytes, Memory.read, h]
  · simp [Memory.toBytes, Memory.read, h]

/-! ## `GetBit` (R304) -/

section
variable {d : Decomp}

theorem shiftRight_one_eq_zero_iff (w : DWord) : w >>> 1 = 0 ↔ w.toNat / 2 = 0 := by
  rw [← BitVec.toNat_inj, BitVec.toNat_ushiftRight, Nat.shiftRight_eq_div_pow]
  rfl

theorem getLsbD_zero_eq_decide (w : DWord) : w.getLsbD 0 = decide (w.toNat % 2 = 1) := Nat.testBit_zero _

/-- The shift leaves bit 31 clear, so that setting it adds its value. -/
theorem seedMarker_eq_ofNat (w : DWord) : (w >>> 1) ||| 0x80000000 = BitVec.ofNat 32 (w.toNat / 2 + 2 ^ 31) := by
  have hhalf : w.toNat / 2 < 2 ^ 31 := by omega
  have hor : w.toNat / 2 ||| 2 ^ 31 = 2 ^ 31 + w.toNat / 2 := by
    rw [Nat.or_comm]
    exact (Nat.two_pow_add_eq_or_of_lt hhalf 1).symm
  apply BitVec.eq_of_toNat_eq
  rw [BitVec.toNat_or, BitVec.toNat_ushiftRight, Nat.shiftRight_eq_div_pow, BitVec.toNat_ofNat]
  change w.toNat / 2 ||| 2 ^ 31 = _
  omega

theorem Decomp.getBit_of_chunk (h : d.chunk.toNat / 2 ≠ 0) :
    d.getBit = .ok (decide (d.chunk.toNat % 2 = 1), { d with chunk := d.chunk >>> 1 }) := by
  unfold Decomp.getBit
  rw [if_neg (mt (shiftRight_one_eq_zero_iff _).1 h), getLsbD_zero_eq_decide]

theorem Decomp.getBit_of_refill {w : DWord} (h : d.chunk.toNat / 2 = 0) (hw : d.buf.read32 d.src = some w) :
    d.getBit = .ok (decide (w.toNat % 2 = 1),
      { d with src := d.src - 4, crc := d.crc ^^^ w, chunk := BitVec.ofNat 32 (w.toNat / 2 + 2 ^ 31) }) := by
  unfold Decomp.getBit
  rw [if_pos ((shiftRight_one_eq_zero_iff _).2 h), hw, ← seedMarker_eq_ofNat, ← getLsbD_zero_eq_decide]

theorem Decomp.getBit_of_missing (h : d.chunk.toNat / 2 = 0) (hw : d.buf.read32 d.src = none) :
    d.getBit = .error .readBounds := by
  unfold Decomp.getBit
  rw [if_pos ((shiftRight_one_eq_zero_iff _).2 h), hw]

end

/-- Settles O50, from the three cases of `GetBit`. -/
theorem getBitTakesLowBitAndRefills : Obligations.GetBitTakesLowBitAndRefills := by
  intro d
  refine ⟨Decomp.getBit_of_chunk, fun hchunk o w hsrc hw => ?_, fun hchunk hout => ?_⟩
  · exact Decomp.getBit_of_refill hchunk (hsrc ▸ Memory.read32_of_bigEndianAt hw)
  · exact Decomp.getBit_of_missing hchunk (Memory.read32_eq_none hout)

/-! ## `GetBits` (R305) -/

section
variable {d e f : Decomp} {m n v w : Nat}

@[simp] theorem Decomp.getBits_zero (d : Decomp) : d.getBits 0 = .ok (0, d) := rfl

/-- The first of several bits is the most significant one. -/
theorem Decomp.getBits_succ_of_getBit {b : Bool} (h : d.getBit = .ok (b, e)) (k : e.getBits n = .ok (w, f)) :
    d.getBits (n + 1) = .ok (b.toNat * 2 ^ n + w, f) := by
  unfold Decomp.getBits at k ⊢
  simp [Decomp.getBitsFrom, h, Decomp.getBitsFrom_eq n b.toNat e, k]

theorem Decomp.getBits_add (h : d.getBits m = .ok (v, e)) (k : e.getBits n = .ok (w, f)) :
    d.getBits (m + n) = .ok (v * 2 ^ n + w, f) := by
  unfold Decomp.getBits at h k ⊢
  simp [Decomp.getBitsFrom_add m n 0 d, h, Decomp.getBitsFrom_eq n v e, k]

theorem Decomp.getBits_lt (h : d.getBits n = .ok (v, e)) : v < 2 ^ n := by
  simpa using Decomp.getBitsFrom_lt h

theorem Decomp.getBits_error {x : DecompressFailure} (h : d.getBits n = .error x) : x = .readBounds :=
  Decomp.getBitsFrom_error h

/-- What a successful `GetBits` read: its first bit, then the others. -/
theorem Decomp.getBits_succ_ok (h : d.getBits (n + 1) = .ok (v, f)) :
    ∃ b e w, d.getBit = .ok (b, e) ∧ e.getBits n = .ok (w, f) ∧ v = b.toNat * 2 ^ n + w := by
  cases hb : d.getBit with
  | error x => simp [Decomp.getBits, Decomp.getBitsFrom, hb] at h
  | ok p =>
    obtain ⟨b, e⟩ := p
    cases hw : e.getBits n with
    | error x =>
      unfold Decomp.getBits at h hw
      simp [Decomp.getBitsFrom, hb, Decomp.getBitsFrom_eq n b.toNat e, hw] at h
    | ok q =>
      obtain ⟨w, g⟩ := q
      rw [Decomp.getBits_succ_of_getBit hb hw] at h
      cases h
      exact ⟨b, e, w, rfl, hw, rfl⟩

/-- The state with another `rem`, which a run sets before it begins (R310). -/
def Decomp.setRem (d : Decomp) (r : Int) : Decomp := { d with rem := r }

theorem Decomp.getBits_setRem (h : d.getBits n = .ok (v, e)) (r : Int) :
    (d.setRem r).getBits n = .ok (v, e.setRem r) := by
  unfold Decomp.getBits at h ⊢
  rw [Decomp.setRem, Decomp.getBitsFrom_setRem, h]
  rfl

theorem Decomp.getBits_setRem_error {x : DecompressFailure} (h : d.getBits n = .error x) (r : Int) :
    (d.setRem r).getBits n = .error x := by
  unfold Decomp.getBits at h ⊢
  rw [Decomp.setRem, Decomp.getBitsFrom_setRem, h]

end

/-- Settles O51: `getBits_add` with the bounds of both parts. -/
theorem getBitsFirstBitMostSignificant : Obligations.GetBitsFirstBitMostSignificant := by
  intro d
  refine ⟨d.getBits_zero, fun b e hb => ?_, fun m n v w e f hv hw => ?_⟩
  · rw [Decomp.getBits_succ_of_getBit hb e.getBits_zero]
    cases b <;> rfl
  · exact ⟨Decomp.getBits_add hv hw, Decomp.getBits_lt hv, Decomp.getBits_lt hw⟩

/-! ## The codes of the decode loop (R307) -/

section
variable {d e f g : Decomp} {v : Nat}

theorem Decomp.literalHeader_of_getBits {bits : Nat} (h : d.getBits bits = .ok (v, e)) (base : Nat) :
    d.literalHeader bits base = .ok (.literal (v + base), e) := by
  unfold Decomp.literalHeader
  rw [h]

theorem Decomp.backRefHeader_of_getBits {bits : Nat} (h : d.getBits bits = .ok (v, e)) (count : Nat) :
    d.backRefHeader count bits = .ok (.backRef count v, e) := by
  unfold Decomp.backRefHeader
  rw [h]

/-- A code that begins with 1 has three bits. -/
theorem Decomp.getBits_three_ok {c : Nat} (hc : c < 4) (h : d.getBits 3 = .ok (4 + c, f)) :
    ∃ e, d.getBit = .ok (true, e) ∧ e.getBits 2 = .ok (c, f) := by
  obtain ⟨b, e, w, hb, hw, hv⟩ := Decomp.getBits_succ_ok h
  have hlt := Decomp.getBits_lt hw
  cases b with
  | false => simp at hv; omega
  | true =>
    have hwc : w = c := by simp at hv; omega
    exact ⟨e, hb, hwc ▸ hw⟩

theorem Decomp.getBits_two_ok {b : Bool} (h : d.getBits 2 = .ok (b.toNat, f)) :
    ∃ e, d.getBit = .ok (false, e) ∧ e.getBit = .ok (b, f) := by
  obtain ⟨b₁, e, w, hb₁, hw, hv⟩ := Decomp.getBits_succ_ok h
  obtain ⟨b₂, f', z, hb₂, hz, hw⟩ := Decomp.getBits_succ_ok hw
  cases hz
  have hbits : ∀ x y z : Bool, z.toNat = x.toNat * 2 ^ 1 + (y.toNat * 2 ^ 0 + 0) → x = false ∧ y = z := by decide
  obtain ⟨rfl, rfl⟩ := hbits b₁ b₂ b (hw ▸ hv)
  exact ⟨e, hb₁, hb₂⟩

theorem Decomp.readToken_code00 (hc : d.getBits 2 = .ok (0, e)) (hv : e.getBits 3 = .ok (v, f)) :
    d.readToken = .ok (.literal (v + 1), f) := by
  obtain ⟨e', h₁, h₂⟩ := Decomp.getBits_two_ok (b := false) hc
  simp only [Decomp.readToken, h₁, h₂, Decomp.literalHeader_of_getBits hv]

theorem Decomp.readToken_code01 (hc : d.getBits 2 = .ok (1, e)) (hv : e.getBits 8 = .ok (v, f)) :
    d.readToken = .ok (.backRef 2 v, f) := by
  obtain ⟨e', h₁, h₂⟩ := Decomp.getBits_two_ok (b := true) hc
  simp only [Decomp.readToken, h₁, h₂, Decomp.backRefHeader_of_getBits hv]

theorem Decomp.readToken_code100 (hc : d.getBits 3 = .ok (4, e)) (hv : e.getBits 9 = .ok (v, f)) :
    d.readToken = .ok (.backRef 3 v, f) := by
  obtain ⟨e', h₁, h₂⟩ := Decomp.getBits_three_ok (c := 0) (by omega) hc
  simp only [Decomp.readToken, h₁, h₂, Decomp.backRefHeader_of_getBits hv]

theorem Decomp.readToken_code101 (hc : d.getBits 3 = .ok (5, e)) (hv : e.getBits 10 = .ok (v, f)) :
    d.readToken = .ok (.backRef 4 v, f) := by
  obtain ⟨e', h₁, h₂⟩ := Decomp.getBits_three_ok (c := 1) (by omega) hc
  simp only [Decomp.readToken, h₁, h₂, Decomp.backRefHeader_of_getBits hv]

theorem Decomp.readToken_code110 {c : Nat} (hc : d.getBits 3 = .ok (6, e)) (hcount : e.getBits 8 = .ok (c, f))
    (hv : f.getBits 12 = .ok (v, g)) : d.readToken = .ok (.backRef (c + 1) v, g) := by
  obtain ⟨e', h₁, h₂⟩ := Decomp.getBits_three_ok (c := 2) (by omega) hc
  simp only [Decomp.readToken, h₁, h₂, hcount, Decomp.backRefHeader_of_getBits hv]

theorem Decomp.readToken_code111 (hc : d.getBits 3 = .ok (7, e)) (hv : e.getBits 8 = .ok (v, f)) :
    d.readToken = .ok (.literal (v + 9), f) := by
  obtain ⟨e', h₁, h₂⟩ := Decomp.getBits_three_ok (c := 3) (by omega) hc
  simp only [Decomp.readToken, h₁, h₂, Decomp.literalHeader_of_getBits hv]

end

/-- One of the six runs of the table of R307, with its bounds. -/
def Token.IsRun (t : Token) : Prop :=
  (∃ v, v < 2 ^ 3 ∧ t = .literal (v + 1)) ∨ (∃ v, v < 2 ^ 8 ∧ t = .backRef 2 v) ∨
    (∃ v, v < 2 ^ 9 ∧ t = .backRef 3 v) ∨ (∃ v, v < 2 ^ 10 ∧ t = .backRef 4 v) ∨
    (∃ c v, c < 2 ^ 8 ∧ v < 2 ^ 12 ∧ t = .backRef (c + 1) v) ∨ ∃ v, v < 2 ^ 8 ∧ t = .literal (v + 9)

/-- The answer of reading a header: one of the six runs, or the failure to read a bit. -/
def ReadsRun (r : Except DecompressFailure (Token × Decomp)) : Prop :=
  r = .error .readBounds ∨ ∃ t f, r = .ok (t, f) ∧ t.IsRun

theorem ReadsRun.of_error {x : DecompressFailure} (h : x = .readBounds) : ReadsRun (.error x) := .inl (h ▸ rfl)

theorem Decomp.literalHeader_readsRun (d : Decomp) {bits base : Nat}
    (hrun : ∀ v < 2 ^ bits, (Token.literal (v + base)).IsRun) : ReadsRun (d.literalHeader bits base) := by
  unfold Decomp.literalHeader
  split
  · exact .of_error (Decomp.getBits_error ‹_›)
  · exact .inr ⟨_, _, rfl, hrun _ (Decomp.getBits_lt ‹_›)⟩

theorem Decomp.backRefHeader_readsRun (d : Decomp) {count bits : Nat}
    (hrun : ∀ v < 2 ^ bits, (Token.backRef count v).IsRun) : ReadsRun (d.backRefHeader count bits) := by
  unfold Decomp.backRefHeader
  split
  · exact .of_error (Decomp.getBits_error ‹_›)
  · exact .inr ⟨_, _, rfl, hrun _ (Decomp.getBits_lt ‹_›)⟩

/-- Every bit sequence decodes (R313). -/
theorem Decomp.readToken_readsRun (d : Decomp) : ReadsRun d.readToken := by
  unfold Decomp.readToken
  split
  · exact .of_error (Decomp.getBit_error ‹_›)
  · split
    · exact .of_error (Decomp.getBit_error ‹_›)
    · exact Decomp.literalHeader_readsRun _ fun v hv => .inl ⟨v, hv, rfl⟩
    · exact Decomp.backRefHeader_readsRun _ fun v hv => .inr (.inl ⟨v, hv, rfl⟩)
  · split
    · exact .of_error (Decomp.getBits_error ‹_›)
    · exact Decomp.backRefHeader_readsRun _ fun v hv => .inr (.inr (.inl ⟨v, hv, rfl⟩))
    · exact Decomp.backRefHeader_readsRun _ fun v hv => .inr (.inr (.inr (.inl ⟨v, hv, rfl⟩)))
    · split
      · exact .of_error (Decomp.getBits_error ‹_›)
      · rename_i c _ hc
        exact Decomp.backRefHeader_readsRun _ fun v hv =>
          .inr (.inr (.inr (.inr (.inl ⟨c, v, Decomp.getBits_lt hc, hv, rfl⟩))))
    · exact Decomp.literalHeader_readsRun _ fun v hv => .inr (.inr (.inr (.inr (.inr ⟨v, hv, rfl⟩))))

/-! ## One step of a running decompression (R307, R310, R311) -/

section
variable {s t : State} {d e f : Decomp} {token : Token} {x : DecompressFailure}

theorem Decomp.iterate_of_readToken (h : d.readToken = .ok (token, f)) : d.iterate = f.runToken token := by
  simp only [Decomp.iterate, h]

theorem Decomp.iterate_of_readToken_error (h : d.readToken = .error x) : d.iterate = .error x := by
  simp only [Decomp.iterate, h]

theorem step_of_unpack (hf : s.fault = none) (hp : s.phase = .unpack d) : step s = .next (s.unpackStep d) := by
  simp only [step, hf, hp]

theorem State.unpackStep_of_iterate (s : State) (hrem : 0 < d.rem) (h : d.iterate = .ok e) :
    s.unpackStep d = { s with phase := .unpack e } := by
  simp only [State.unpackStep, gt_iff_lt, if_pos hrem, h]

theorem State.unpackStep_of_iterate_error (s : State) (hrem : 0 < d.rem) (h : d.iterate = .error x) :
    s.unpackStep d = s.endUnpack (.unpackFailed x) := by
  simp only [State.unpackStep, gt_iff_lt, if_pos hrem, h]

theorem State.unpackStep_of_done (s : State) (hrem : d.rem ≤ 0) : s.unpackStep d = s.endUnpack d.result :=
  if_neg (not_lt.2 hrem)

/-- What one step of a decompression in state `d` can do. -/
inductive UnpackCase (s : State) (d : Decomp) (t : State) : Prop
  | goesOn (e : Decomp) : 0 < d.rem → d.iterate = .ok e → t = { s with phase := .unpack e } → UnpackCase s d t
  | fails (x : DecompressFailure) : 0 < d.rem → d.iterate = .error x → t = s.endUnpack (.unpackFailed x) →
      UnpackCase s d t
  | ends : d.rem ≤ 0 → t = s.endUnpack d.result → UnpackCase s d t

theorem State.unpackStep_cases (s : State) (d : Decomp) : UnpackCase s d (s.unpackStep d) := by
  rcases lt_or_ge 0 d.rem with hrem | hrem
  · cases h : d.iterate with
    | ok e => exact .goesOn e hrem h (s.unpackStep_of_iterate hrem h)
    | error x => exact .fails x hrem h (s.unpackStep_of_iterate_error hrem h)
  · exact .ends hrem (s.unpackStep_of_done hrem)

theorem step_unpack_cases (hp : s.phase = .unpack d) (h : step s = .next t) : UnpackCase s d t := by
  obtain ⟨hf, -⟩ := step_next_cases h
  rw [step_of_unpack hf hp] at h
  cases h
  exact s.unpackStep_cases d

theorem step_of_iterate (hf : s.fault = none) (hp : s.phase = .unpack d) (hrem : 0 < d.rem) (h : d.iterate = .ok e) :
    step s = .next { s with phase := .unpack e } := by
  rw [step_of_unpack hf hp, s.unpackStep_of_iterate hrem h]

theorem step_of_iterate_error (hf : s.fault = none) (hp : s.phase = .unpack d) (hrem : 0 < d.rem)
    (h : d.iterate = .error x) : step s = .next (s.endUnpack (.unpackFailed x)) := by
  rw [step_of_unpack hf hp, s.unpackStep_of_iterate_error hrem h]

theorem step_of_done (hf : s.fault = none) (hp : s.phase = .unpack d) (hrem : d.rem ≤ 0) :
    step s = .next (s.endUnpack d.result) := by
  rw [step_of_unpack hf hp, s.unpackStep_of_done hrem]

end

/-- Settles O52: a lemma per code, `readToken_readsRun` for "no other code", and the step of an iteration. -/
theorem codesSelectRuns : Obligations.CodesSelectRuns := by
  intro d
  refine ⟨fun _ _ _ => Decomp.readToken_code00, fun _ _ _ => Decomp.readToken_code01,
    fun _ _ _ => Decomp.readToken_code100, fun _ _ _ => Decomp.readToken_code101,
    fun _ _ _ _ _ => Decomp.readToken_code110, fun _ _ _ => Decomp.readToken_code111,
    d.readToken_readsRun, fun s hf hp hrem => ⟨fun x hx => ?_, fun token f x ht hx => ?_, fun token f e ht he => ?_⟩⟩
  · exact step_of_iterate_error hf hp hrem (Decomp.iterate_of_readToken_error hx)
  · exact step_of_iterate_error hf hp hrem ((Decomp.iterate_of_readToken ht).trans hx)
  · exact step_of_iterate hf hp hrem ((Decomp.iterate_of_readToken ht).trans he)

/-! ## The call of `decompress` (R301 to R303) -/

section
variable {s : State} {bytes : List Byte} {packed unpacked : Nat} {calls : List HostCall}

theorem step_of_decompress (hf : s.fault = none) (hp : s.phase = .idle)
    (hq : s.hostQueue = .decompress bytes packed unpacked :: calls) :
    step s = .next (State.beginUnpack { s with hostQueue := calls } bytes packed unpacked) := by
  simp only [step, hf, hp, hostStep, hq, hostCall]

theorem State.beginUnpack_of_start {d : Decomp} (s : State) (h : Decomp.start bytes packed unpacked = .ok d) :
    s.beginUnpack bytes packed unpacked = { s with phase := .unpack d } := by
  simp only [State.beginUnpack, h]

theorem State.beginUnpack_of_start_error {x : DecompressFailure} (s : State)
    (h : Decomp.start bytes packed unpacked = .error x) :
    s.beginUnpack bytes packed unpacked = s.endUnpack (.unpackFailed x) := by
  simp only [State.beginUnpack, h]

/-- A failure at the entry leaves an idle block idle. -/
theorem step_of_start_error {x : DecompressFailure} (hf : s.fault = none) (hp : s.phase = .idle)
    (hq : s.hostQueue = .decompress bytes packed unpacked :: calls) (h : Decomp.start bytes packed unpacked = .error x) :
    step s = .next { s with hostQueue := calls, results := s.results ++ [.unpackFailed x] } := by
  rw [step_of_decompress hf hp hq, State.beginUnpack_of_start_error _ h, State.endUnpack, ← hp]

theorem Decomp.start_of_short_trailer (bytes : List Byte) (unpacked : Nat) (h : packed < 12) :
    Decomp.start bytes packed unpacked = .error .trailerTooShort :=
  if_pos h

theorem Decomp.start_of_small_buffer (h : 12 ≤ packed) (hsmall : bytes.length < packed ∨ bytes.length < unpacked) :
    Decomp.start bytes packed unpacked = .error .bufferTooSmall :=
  (if_neg (not_lt.2 h)).trans (if_pos hsmall)

/-- The state in which a call starts from the words of its trailer (R302). -/
def Decomp.initial (bytes : List Byte) (packed unpacked : Nat) (seed chunk : DWord) : Decomp where
  buf := Memory.ofBytes bytes
  unpacked := unpacked
  src := (packed : Int) - 16
  dst := (unpacked : Int) - 1
  rem := unpacked
  crc := seed ^^^ chunk
  chunk := chunk

theorem Memory.read32_ofBytes {o : Nat} {w : DWord} (h : BigEndianAt (fun o => bytes[o]?) o w) :
    (Memory.ofBytes bytes).read32 o = some w := by
  rw [← funext (Memory.read_ofBytes bytes)] at h
  exact Memory.read32_of_bigEndianAt h

theorem bigEndianAt_bytes_exists {o : Nat} (h : o + 4 ≤ bytes.length) : ∃ w, BigEndianAt (fun o => bytes[o]?) o w := by
  rw [← funext (Memory.read_ofBytes bytes)]
  exact Memory.bigEndianAt_exists h

/-- The entry of a call whose sizes pass the checks, by the words of its trailer. -/
theorem Decomp.start_of_trailer {length seed chunk : DWord} (h : 12 ≤ packed) (hpacked : packed ≤ bytes.length)
    (hunpacked : unpacked ≤ bytes.length) (hlength : BigEndianAt (fun o => bytes[o]?) (packed - 4) length)
    (hseed : BigEndianAt (fun o => bytes[o]?) (packed - 8) seed)
    (hchunk : BigEndianAt (fun o => bytes[o]?) (packed - 12) chunk) :
    Decomp.start bytes packed unpacked =
      if length.toNat ≠ unpacked then .error .sizeMismatch else .ok (Decomp.initial bytes packed unpacked seed chunk) := by
  have hfits : ¬ (packed > (Memory.ofBytes bytes).len ∨ unpacked > (Memory.ofBytes bytes).len) := by
    simp only [Memory.ofBytes_len]
    omega
  have hlength := Memory.read32_ofBytes hlength
  have hseed := Memory.read32_ofBytes hseed
  have hchunk := Memory.read32_ofBytes hchunk
  rw [Nat.cast_sub (by omega)] at hlength hseed hchunk
  norm_num at hlength hseed hchunk
  unfold Decomp.start
  simp only [if_neg (not_lt.2 h), if_neg hfits, hlength, hseed, hchunk]
  split
  · rfl
  · rename_i heq
    rw [not_not.1 heq]
    rfl

end

/-- Settles O48, from the two failing checks in their order. -/
theorem decompressEntryChecks : Obligations.DecompressEntryChecks := by
  intro s bytes packed unpacked calls hf hp hq
  refine ⟨fun hshort => ?_, fun hlong hsmall => ?_⟩
  · exact step_of_start_error hf hp hq (Decomp.start_of_short_trailer bytes unpacked hshort)
  · exact step_of_start_error hf hp hq (Decomp.start_of_small_buffer hlong hsmall)

/-- Settles O49: the trailer's bytes exist, and `start_of_trailer` gives both outcomes. -/
theorem decompressStartsFromTrailer : Obligations.DecompressStartsFromTrailer := by
  intro s bytes packed unpacked calls hf hp hq h12 hpacked hunpacked
  obtain ⟨length, hlength⟩ := bigEndianAt_bytes_exists (bytes := bytes) (o := packed - 4) (by omega)
  obtain ⟨seed, hseed⟩ := bigEndianAt_bytes_exists (bytes := bytes) (o := packed - 8) (by omega)
  obtain ⟨chunk, hchunk⟩ := bigEndianAt_bytes_exists (bytes := bytes) (o := packed - 12) (by omega)
  have hstart := Decomp.start_of_trailer h12 hpacked hunpacked hlength hseed hchunk
  refine ⟨length, seed, chunk, hlength, hseed, hchunk, fun hne => ?_, fun heq => ?_⟩
  · exact step_of_start_error hf hp hq (hstart.trans (if_pos hne))
  · refine ⟨Decomp.initial bytes packed unpacked seed chunk, ?_, rfl, Memory.read_ofBytes bytes, rfl, rfl, rfl, rfl, rfl,
      rfl⟩
    rw [step_of_decompress hf hp hq, State.beginUnpack_of_start _ (hstart.trans (if_neg (not_not.2 heq)))]

/-! ## One byte of the output (R308, R309, R312) -/

section
variable {d e : Decomp} {v : Byte}

theorem Decomp.put_of_neg (h : d.dst < 0) (v : Byte) : d.put v = .error .writeBounds := if_pos h

theorem Decomp.put_of_lt {o : Nat} (hdst : d.dst = o) (hlen : o < d.buf.len) (v : Byte) :
    d.put v = .ok { d with buf := d.buf.write o v, dst := d.dst - 1 } := by
  have htoNat : d.dst.toNat = o := by omega
  unfold Decomp.put
  rw [if_neg (by omega), htoNat, if_pos hlen]

/-- A byte that was put went to an offset of the buffer. -/
theorem Decomp.put_inv (h : d.put v = .ok e) :
    ∃ o : Nat, d.dst = o ∧ o < d.buf.len ∧ e = { d with buf := d.buf.write o v, dst := d.dst - 1 } := by
  unfold Decomp.put at h
  split at h
  · cases h
  · split at h
    · cases h
      exact ⟨d.dst.toNat, by omega, ‹_›, rfl⟩
    · cases h

theorem Decomp.put_error {x : DecompressFailure} (h : d.put v = .error x) : x = .writeBounds := by
  unfold Decomp.put at h
  split at h
  · cases h; rfl
  · split at h <;> cases h
    rfl

theorem Decomp.read_put (hwf : d.buf.wf = true) (h : d.put v = .ok e) {o : Nat} (ho : d.dst = o) :
    e.buf.read o = some v := by
  obtain ⟨p, hp, hlen, rfl⟩ := Decomp.put_inv h
  obtain rfl : p = o := by omega
  exact Memory.read_write_self hwf hlen v

end

/-! ## Literal runs (R308) -/

section
variable {d e f g : Decomp} {n v : Nat}

theorem Decomp.ReadsOnly.buf_eq (h : d.ReadsOnly e) : e.buf = d.buf := by
  rw [show e = _ from h]

theorem Decomp.ReadsOnly.dst_eq (h : d.ReadsOnly e) : e.dst = d.dst := by
  rw [show e = _ from h]

theorem Decomp.ReadsOnly.rem_eq (h : d.ReadsOnly e) : e.rem = d.rem := by
  rw [show e = _ from h]

theorem Decomp.runToken_literal (d : Decomp) (n : Nat) :
    d.runToken (.literal n) = Decomp.literalBytes n (d.setRem (d.rem - n)) := rfl

theorem Decomp.literalBytes_of_getBits_error {x : DecompressFailure} (h : d.getBits 8 = .error x) (n : Nat) :
    Decomp.literalBytes (n + 1) d = .error x := by
  simp only [Decomp.literalBytes, h]

theorem Decomp.literalBytes_of_put_error {x : DecompressFailure} (h : d.getBits 8 = .ok (v, f))
    (hput : f.put (BitVec.ofNat 8 v) = .error x) (n : Nat) : Decomp.literalBytes (n + 1) d = .error x := by
  simp only [Decomp.literalBytes, h, hput]

theorem Decomp.literalBytes_of_put (h : d.getBits 8 = .ok (v, f)) (hput : f.put (BitVec.ofNat 8 v) = .ok g) (n : Nat) :
    Decomp.literalBytes (n + 1) d = Decomp.literalBytes n g := by
  simp only [Decomp.literalBytes, h, hput]

/-- A literal run that succeeds has read and put its first byte. -/
theorem Decomp.literalBytes_succ_ok (h : Decomp.literalBytes (n + 1) d = .ok e) :
    ∃ v f g, d.getBits 8 = .ok (v, f) ∧ f.put (BitVec.ofNat 8 v) = .ok g ∧ Decomp.literalBytes n g = .ok e := by
  cases hv : d.getBits 8 with
  | error x => simp [Decomp.literalBytes_of_getBits_error hv] at h
  | ok p =>
    obtain ⟨v, f⟩ := p
    cases hput : f.put (BitVec.ofNat 8 v) with
    | error x => simp [Decomp.literalBytes_of_put_error hv hput] at h
    | ok g => exact ⟨v, f, g, rfl, hput, (Decomp.literalBytes_of_put hv hput n).symm.trans h⟩

theorem Decomp.literalBytes_error {x : DecompressFailure} (h : Decomp.literalBytes n d = .error x) :
    x = .readBounds ∨ x = .writeBounds := by
  induction n generalizing d with
  | zero => cases h
  | succ n ih =>
    cases hv : d.getBits 8 with
    | error y =>
      rw [Decomp.literalBytes_of_getBits_error hv] at h
      cases h
      exact .inl (Decomp.getBits_error hv)
    | ok p =>
      obtain ⟨v, f⟩ := p
      cases hput : f.put (BitVec.ofNat 8 v) with
      | error y =>
        rw [Decomp.literalBytes_of_put_error hv hput] at h
        cases h
        exact .inr (Decomp.put_error hput)
      | ok g =>
        rw [Decomp.literalBytes_of_put hv hput] at h
        exact ih h

/-- The first byte of a literal run stands at `dst` when the run has ended: the later ones go below it. -/
theorem Decomp.read_literalBytes_first (hwf : d.buf.wf = true) (h : Decomp.literalBytes (n + 1) d = .ok e)
    (hv : d.getBits 8 = .ok (v, f)) : e.buf.read d.dst.toNat = some (BitVec.ofNat 8 v) := by
  obtain ⟨v', f', g, hv', hput, hrest⟩ := Decomp.literalBytes_succ_ok h
  obtain ⟨rfl, rfl⟩ : v' = v ∧ f' = f := by simpa [hv] using hv'.symm
  have hread := Decomp.getBits_readsOnly hv
  have hdst := hread.dst_eq
  obtain ⟨o, ho, -, -⟩ := Decomp.put_inv hput
  have hg := (Decomp.put_ok hput).dst
  rw [show d.dst.toNat = o by omega, (Decomp.literalBytes_ok hrest).frame o (.inr (by push_cast at hg; omega))]
  exact Decomp.read_put (hread.buf_eq ▸ hwf) hput ho

end

/-- Settles O53: the run's own recursion, and what `Wrote` says of a run that succeeds. -/
theorem literalRunWritesNextBytesDownward : Obligations.LiteralRunWritesNextBytesDownward := by
  intro d
  refine ⟨?empty, fun n x hx => ?noBits, fun n v f hv hneg => ?below, fun n v f o hv ho hlen => ?next,
    fun n e hwf he => ?ok⟩
  case empty => simp [Decomp.runToken_literal, Decomp.literalBytes, Decomp.setRem]
  case noBits => exact Decomp.literalBytes_of_getBits_error (Decomp.getBits_setRem_error hx _) n
  case below =>
    have hput := Decomp.put_of_neg (d := f.setRem (d.rem - (n + 1 : Nat))) hneg (BitVec.ofNat 8 v)
    exact Decomp.literalBytes_of_put_error (Decomp.getBits_setRem hv _) hput n
  case next =>
    have hrem : d.rem - (n + 1 : Nat) = f.rem - 1 - n := by
      rw [(Decomp.getBits_readsOnly hv).rem_eq]
      push_cast
      omega
    have hput := Decomp.put_of_lt (d := f.setRem (f.rem - 1 - n)) ho hlen (BitVec.ofNat 8 v)
    rw [Decomp.runToken_literal, hrem]
    exact Decomp.literalBytes_of_put (Decomp.getBits_setRem hv _) hput n
  case ok =>
    have hwrote := Decomp.literalBytes_ok he
    refine ⟨hwrote.rem, hwrote.dst, fun v f hn hv => ?_, hwrote.frame⟩
    obtain ⟨m, rfl⟩ := Nat.exists_eq_add_one_of_ne_zero hn.ne'
    have hv := Decomp.getBits_setRem hv (d.rem - (m + 1 : Nat))
    exact Decomp.read_literalBytes_first (d := d.setRem (d.rem - (m + 1 : Nat))) hwf he hv

/-! ## Back-references (R309) -/

section
variable {d e g : Decomp} {offset n : Nat} {v : Byte}

theorem Decomp.runToken_backRef (d : Decomp) (count offset : Nat) :
    d.runToken (.backRef count offset) = Decomp.backRefBytes offset count (d.setRem (d.rem - count)) := rfl

theorem Decomp.backRefBytes_of_neg (h : d.dst < 0) (offset n : Nat) :
    Decomp.backRefBytes offset (n + 1) d = .error .writeBounds := by
  simp only [Decomp.backRefBytes, if_pos h]

theorem Decomp.backRefBytes_of_refBounds (hdst : 0 ≤ d.dst) (h : (d.unpacked : Int) ≤ d.dst + offset) (n : Nat) :
    Decomp.backRefBytes offset (n + 1) d = .error .refBounds := by
  simp only [Decomp.backRefBytes, if_neg (not_lt.2 hdst), if_pos h, ge_iff_le]

theorem Decomp.backRefBytes_of_put (hdst : 0 ≤ d.dst) (hsource : d.dst + offset < d.unpacked)
    (hread : d.buf.read (d.dst + offset).toNat = some v) (hput : d.put v = .ok g) (n : Nat) :
    Decomp.backRefBytes offset (n + 1) d = Decomp.backRefBytes offset n g := by
  simp only [Decomp.backRefBytes, if_neg (not_lt.2 hdst), if_neg (not_le.2 hsource), ge_iff_le, hread, hput]

/-- A back-reference that succeeds has copied its first byte from a source below `unpackedSize`. -/
theorem Decomp.backRefBytes_succ_ok (h : Decomp.backRefBytes offset (n + 1) d = .ok e) :
    ∃ (o : Nat) (v : Byte) (g : Decomp), d.dst = o ∧ o + offset < d.unpacked ∧ d.buf.read (o + offset) = some v ∧
      d.put v = .ok g ∧ Decomp.backRefBytes offset n g = .ok e := by
  simp only [Decomp.backRefBytes] at h
  split at h
  · cases h
  · split at h
    · cases h
    · split at h
      · cases h
      · rename_i v hread
        split at h
        · cases h
        · rename_i g hput
          have hsource : (d.dst + offset).toNat = d.dst.toNat + offset := by omega
          exact ⟨d.dst.toNat, v, g, by omega, by omega, hsource ▸ hread, hput, h⟩

theorem Decomp.backRefBytes_error {x : DecompressFailure} (h : Decomp.backRefBytes offset n d = .error x) :
    x = .readBounds ∨ x = .writeBounds ∨ x = .refBounds := by
  induction n generalizing d with
  | zero => cases h
  | succ n ih =>
    simp only [Decomp.backRefBytes] at h
    split at h
    · cases h; exact .inr (.inl rfl)
    · split at h
      · cases h; exact .inr (.inr rfl)
      · split at h
        · cases h; exact .inl rfl
        · split at h
          · rename_i y hput
            cases h
            exact .inr (.inl (Decomp.put_error hput))
          · exact ih h

/-- Each byte written equals the byte `offset` above it: the source stands above every later write, or is the byte itself. -/
theorem Decomp.backRefBytes_copies (hwf : d.buf.wf = true) (h : Decomp.backRefBytes offset n d = .ok e) {o : Nat}
    (hlow : e.dst < o) (hhigh : (o : Int) ≤ d.dst) :
    e.buf.read o = e.buf.read (o + offset) ∧ o + offset < d.unpacked := by
  induction n generalizing d with
  | zero => cases h; omega
  | succ n ih =>
    have hwrote := Decomp.backRefBytes_ok h
    obtain ⟨p, v, g, hp, hsource, hread, hput, hrest⟩ := Decomp.backRefBytes_succ_ok h
    have hg := Decomp.put_ok hput
    have hgdst : g.dst = p - 1 := by rw [hg.dst, hp]; rfl
    by_cases ho : (o : Int) ≤ g.dst
    · rw [← hg.unpacked]
      exact ih (hg.wf hwf) hrest ho
    · obtain rfl : o = p := by omega
      refine ⟨?_, hsource⟩
      rcases Nat.eq_zero_or_pos offset with rfl | hoffset
      · rfl
      · calc
          e.buf.read o = g.buf.read o := (Decomp.backRefBytes_ok hrest).frame o (.inr (by omega))
          _ = some v := Decomp.read_put hwf hput hp
          _ = d.buf.read (o + offset) := hread.symm
          _ = e.buf.read (o + offset) := (hwrote.frame _ (.inr (by push_cast; omega))).symm

/-- An offset of 0 copies each byte onto itself. -/
theorem Decomp.backRefBytes_zero_read (hwf : d.buf.wf = true) (h : Decomp.backRefBytes 0 n d = .ok e) (o : Nat) :
    e.buf.read o = d.buf.read o := by
  induction n generalizing d with
  | zero => cases h; rfl
  | succ n ih =>
    obtain ⟨p, v, g, hp, -, hread, hput, hrest⟩ := Decomp.backRefBytes_succ_ok h
    have hg := Decomp.put_ok hput
    rw [ih (hg.wf hwf) hrest]
    by_cases ho : o = p
    · subst ho
      rw [Decomp.read_put hwf hput hp, ← hread, Nat.add_zero]
    · have hgdst : g.dst = p - 1 := by rw [hg.dst, hp]; rfl
      exact hg.frame o (by omega)

/-- Where the source lies below `unpackedSize` one byte is copied, and the same holds of the bytes that remain. -/
theorem Decomp.backRefBytes_copyOne (hfits : d.unpacked ≤ d.buf.len) (hdst : 0 ≤ d.dst)
    (hsource : d.dst + offset < d.unpacked) (n : Nat) :
    ∃ g : Decomp, g.unpacked ≤ g.buf.len ∧ g.dst = d.dst - 1 ∧ g.dst + offset < g.unpacked ∧
      Decomp.backRefBytes offset (n + 1) d = Decomp.backRefBytes offset n g := by
  obtain ⟨o, ho⟩ := Int.eq_ofNat_of_zero_le hdst
  obtain ⟨v, hread⟩ := Option.isSome_iff_exists.1 ((d.buf.read_isSome_iff (d.dst + offset).toNat).2 (by omega))
  have hput := Decomp.put_of_lt ho (by omega) v
  have hwrote := Decomp.put_ok hput
  refine ⟨_, ?_, hwrote.dst, ?_, Decomp.backRefBytes_of_put hdst hsource hread hput n⟩
  · rw [hwrote.unpacked, hwrote.len]
    exact hfits
  · rw [hwrote.unpacked, hwrote.dst]
    omega

theorem Decomp.backRefBytes_succeeds (hfits : d.unpacked ≤ d.buf.len) (hsource : d.dst + offset < d.unpacked)
    (hroom : n ≤ d.dst + 1) : ∃ e, Decomp.backRefBytes offset n d = .ok e := by
  induction n generalizing d with
  | zero => exact ⟨d, rfl⟩
  | succ n ih =>
    push_cast at hroom
    obtain ⟨g, hgfits, hgdst, hgsource, hg⟩ := Decomp.backRefBytes_copyOne hfits (by omega) hsource n
    rw [hg]
    exact ih hgfits hgsource (by omega)

/-- A back-reference longer than the room below `dst` fails at offset −1. -/
theorem Decomp.backRefBytes_overruns (hfits : d.unpacked ≤ d.buf.len) (hsource : d.dst + offset < d.unpacked)
    (hn : 0 < n) (hroom : d.dst + 1 < n) : Decomp.backRefBytes offset n d = .error .writeBounds := by
  induction n generalizing d with
  | zero => omega
  | succ n ih =>
    rcases lt_or_ge d.dst 0 with hneg | hdst
    · exact Decomp.backRefBytes_of_neg hneg offset n
    · push_cast at hroom
      obtain ⟨g, hgfits, hgdst, hgsource, hg⟩ := Decomp.backRefBytes_copyOne hfits hdst hsource n
      rw [hg]
      exact ih hgfits hgsource (by omega) (by omega)

end

/-- Settles O54: what a run that succeeds wrote, and the cases in which it fails or succeeds. -/
theorem backReferenceRepeatsAtOffset : Obligations.BackReferenceRepeatsAtOffset := by
  intro d count offset hwf
  rw [Decomp.runToken_backRef]
  refine ⟨fun e he => ?ok, fun hfits hcount => ⟨fun hneg => ?below, fun hdst href => ?ref,
    fun _ hsource hroom => ?overrun, fun hsource hroom => ?succeeds⟩⟩
  case ok =>
    have hwrote := Decomp.backRefBytes_ok he
    refine ⟨hwrote.rem, hwrote.dst, fun o hlow hhigh => ?_, ?_, hwrote.frame⟩
    · exact Decomp.backRefBytes_copies (d := d.setRem (d.rem - count)) hwf he hlow hhigh
    · rintro rfl o
      exact Decomp.backRefBytes_zero_read (d := d.setRem (d.rem - count)) hwf he o
  case below =>
    obtain ⟨n, rfl⟩ := Nat.exists_eq_add_one_of_ne_zero hcount.ne'
    exact Decomp.backRefBytes_of_neg (d := d.setRem (d.rem - (n + 1 : Nat))) hneg offset n
  case ref =>
    obtain ⟨n, rfl⟩ := Nat.exists_eq_add_one_of_ne_zero hcount.ne'
    exact Decomp.backRefBytes_of_refBounds (d := d.setRem (d.rem - (n + 1 : Nat))) hdst href n
  case overrun =>
    exact Decomp.backRefBytes_overruns (d := d.setRem (d.rem - count)) hfits hsource hcount hroom
  case succeeds => exact Decomp.backRefBytes_succeeds (d := d.setRem (d.rem - count)) hfits hsource hroom

/-! ## The whole call -/

/-- Settles O55: an iteration writes at or below `dst`, which is below `unpackedSize`. -/
theorem decompressNeverWritesAboveUnpackedSize : Obligations.DecompressNeverWritesAboveUnpackedSize := by
  intro s t d e hp hgood hstep ht
  cases step_unpack_cases hp hstep with
  | goesOn e' _ he heq =>
    subst heq
    cases ht
    obtain ⟨n, -, -, -, -, hunpacked, hlen, -, hframe⟩ := Decomp.iterate_ok he
    have hdst : d.dst < d.unpacked := by have := hgood.cursor; have := hgood.remLe; omega
    exact ⟨hunpacked, hlen, fun o ho => hframe o (.inr (by omega))⟩
  | fails _ _ _ heq => subst heq; cases ht
  | ends _ heq => subst heq; cases ht

section
variable {d : Decomp}

theorem Decomp.result_of_crc_zero (h : d.crc = 0) : d.result = .unpacked d.buf.toBytes := if_neg (not_not.2 h)

theorem Decomp.result_of_crc_ne_zero (h : d.crc ≠ 0) : d.result = .unpackFailed .checksumError := if_pos h

theorem Decomp.result_eq_unpacked {bytes : List Byte} (h : d.result = .unpacked bytes) :
    d.crc = 0 ∧ bytes = d.buf.toBytes := by
  by_cases hcrc : d.crc = 0
  · rw [Decomp.result_of_crc_zero hcrc] at h
    cases h
    exact ⟨hcrc, rfl⟩
  · simp [Decomp.result_of_crc_ne_zero hcrc] at h

end

/-- Settles O57: only the step after the loop adds a successful result, and `Good` ties `dst` to `rem`. -/
theorem decompressSuccessIsCompleteAndChecked : Obligations.DecompressSuccessIsCompleteAndChecked := by
  intro s t d hf hp hgood hstep
  refine ⟨fun bytes hres => ?_, fun hrem hcrc => ?_, fun hrem hcrc => ?_⟩
  · cases step_unpack_cases hp hstep with
    | goesOn _ _ _ heq => subst heq; simp at hres
    | fails _ _ _ heq => subst heq; simp [State.endUnpack] at hres
    | ends hdone heq =>
      subst heq
      obtain ⟨hcrc, rfl⟩ := Decomp.result_eq_unpacked (by simpa [State.endUnpack] using hres)
      have hrem := hgood.remPos
      have hdst := hgood.cursor
      exact ⟨by omega, by omega, hcrc, d.buf.getElem?_toBytes⟩
  · rw [step_of_done hf hp hrem.le, Decomp.result_of_crc_zero hcrc] at hstep
    cases hstep
    exact ⟨rfl, _, rfl, d.buf.getElem?_toBytes⟩
  · rw [step_of_done hf hp hrem.le, Decomp.result_of_crc_ne_zero hcrc] at hstep
    cases hstep
    exact ⟨rfl, rfl⟩

/-! ## A decompression ends (R310, R316) -/

theorem stepN_one {s t : State} (h : step s = .next t) : stepN 1 s = .next t := by simp only [stepN, h]

theorem stepN_succ_of_step {s u : State} (h : step s = .next u) (n : Nat) : stepN (n + 1) s = stepN n u := by
  simp only [stepN, h]

/-- Settles O58, by induction on a bound for `rem`: an iteration that goes on lowers it by one or more. -/
theorem decompressReturnsWithinBound : Obligations.DecompressReturnsWithinBound := by
  intro s d hf hp
  induction hk : d.rem.toNat using Nat.strong_induction_on generalizing s d with
  | h k ih =>
    have hstep := step_of_unpack hf hp
    cases s.unpackStep_cases d with
    | goesOn e hrem he heq =>
      obtain ⟨m, hm, hdrop, -⟩ := Decomp.iterate_ok he
      obtain ⟨n, t, r, hn, hrun, ht⟩ := ih e.rem.toNat (by omega) { s with phase := .unpack e } e hf rfl rfl
      refine ⟨n + 1, t, r, by omega, ?_, ht⟩
      rw [stepN_succ_of_step hstep, heq]
      exact hrun
    | fails x _ _ heq => exact ⟨1, _, _, by omega, stepN_one hstep, heq⟩
    | ends _ heq => exact ⟨1, _, _, by omega, stepN_one hstep, heq⟩

/-! ## The causes of a failure (R313) -/

section
variable {d f : Decomp} {x : DecompressFailure}

theorem Decomp.readToken_error (h : d.readToken = .error x) : x = .readBounds := by
  rcases d.readToken_readsRun with hx | ⟨t, f, ht, -⟩
  · rw [hx] at h; cases h; rfl
  · rw [ht] at h; cases h

theorem Decomp.runToken_error {token : Token} (h : d.runToken token = .error x) :
    x = .readBounds ∨ x = .writeBounds ∨ x = .refBounds := by
  cases token with
  | literal n => exact (Decomp.literalBytes_error h).imp_right .inl
  | backRef n offset => exact Decomp.backRefBytes_error h

theorem Decomp.iterate_error (h : d.iterate = .error x) : x = .readBounds ∨ x = .writeBounds ∨ x = .refBounds := by
  cases ht : d.readToken with
  | error y =>
    rw [Decomp.iterate_of_readToken_error ht] at h
    cases h
    exact .inl (Decomp.readToken_error ht)
  | ok p =>
    obtain ⟨token, f⟩ := p
    exact Decomp.runToken_error ((Decomp.iterate_of_readToken ht).symm.trans h)

theorem Decomp.start_error_ne_badCode {bytes : List Byte} {packed unpacked : Nat}
    (h : Decomp.start bytes packed unpacked = .error x) : x ≠ .badCode := by
  unfold Decomp.start at h
  simp only at h
  split at h
  · cases h; simp
  split at h
  · cases h; simp
  split at h
  · cases h; simp
  split at h
  · cases h; simp
  split at h <;> cases h
  simp

theorem Decomp.result_ne_badCode (d : Decomp) : d.result ≠ .unpackFailed .badCode := by
  unfold Decomp.result
  split <;> simp

end

/-- From `s` to `t` at most one result is added, and it is not the cause `BadCode`. -/
def AddsNoBadCode (s t : State) : Prop :=
  ∃ r : Option HostResult, t.results = s.results ++ r.toList ∧ r ≠ some (.unpackFailed .badCode)

section
variable {s t : State}

theorem AddsNoBadCode.of_eq (h : t.results = s.results) : AddsNoBadCode s t := ⟨none, by simp [h], by simp⟩

theorem AddsNoBadCode.of_append {r : HostResult} (h : t.results = s.results ++ [r]) (hr : r ≠ .unpackFailed .badCode) :
    AddsNoBadCode s t := ⟨some r, h, by simpa using hr⟩

theorem AddsNoBadCode.results_ne (h : AddsNoBadCode s t) : t.results ≠ s.results ++ [.unpackFailed .badCode] := by
  obtain ⟨r, hr, hne⟩ := h
  rw [hr]
  intro heq
  have hlist := List.append_cancel_left heq
  cases r with
  | none => cases hlist
  | some r => cases hlist; exact hne rfl

theorem State.unpackStep_addsNoBadCode (s : State) (d : Decomp) : AddsNoBadCode s (s.unpackStep d) := by
  cases s.unpackStep_cases d with
  | goesOn e _ _ heq => exact .of_eq (by rw [heq])
  | fails x _ hx heq =>
    rw [heq]
    refine .of_append rfl ?_
    rcases Decomp.iterate_error hx with rfl | rfl | rfl <;> simp
  | ends _ heq =>
    rw [heq]
    exact .of_append rfl d.result_ne_badCode

theorem State.beginUnpack_addsNoBadCode (s : State) (bytes : List Byte) (packed unpacked : Nat) :
    AddsNoBadCode s (s.beginUnpack bytes packed unpacked) := by
  cases h : Decomp.start bytes packed unpacked with
  | ok d => exact .of_eq (by rw [State.beginUnpack_of_start s h])
  | error x =>
    rw [State.beginUnpack_of_start_error s h]
    exact .of_append rfl (by simpa using Decomp.start_error_ne_badCode h)

theorem hostCall_addsNoBadCode {c : HostCall} (h : hostCall c s = .next t) : AddsNoBadCode s t := by
  cases c with
  | setByteCode bytes =>
    obtain ⟨-, rfl⟩ := of_ite_next h
    exact .of_eq rfl
  | run input now =>
    cases h
    exact .of_eq (by simpa using (s.beginPass_hostFrame input now).results)
  | getRegister i =>
    obtain ⟨-, rfl⟩ := of_ite_next h
    exact .of_append rfl (by simp)
  | setRegister i v =>
    obtain ⟨-, rfl⟩ := of_ite_next h
    exact .of_eq rfl
  | setMusicMark v =>
    obtain ⟨-, rfl⟩ := of_ite_next h
    exact .of_eq rfl
  | decompress bytes packed unpacked =>
    cases h
    exact s.beginUnpack_addsNoBadCode bytes packed unpacked

/-- The pass ends with its own result; before that, looking at a thread adds none. -/
theorem State.scanThread_addsNoBadCode (s : State) (k : Nat) : AddsNoBadCode s (s.scanThread k) := by
  unfold State.scanThread
  split
  · split
    · exact .of_eq rfl
    · exact .of_eq rfl
  · exact .of_append rfl (by simp)

end

/-- Settles O56, one case per kind of step: only those of a decompression add a failure. -/
theorem badCodeIsNeverProduced : Obligations.BadCodeIsNeverProduced := by
  intro s t h
  refine AddsNoBadCode.results_ne ?_
  obtain ⟨-, hc⟩ := step_next_cases h
  cases hc with
  | waiting _ _ ht => exact .of_eq (by rw [ht])
  | call c cs _ _ hcall => exact hostCall_addsNoBadCode (s := { s with hostQueue := cs }) hcall
  | scanned k _ ht => exact ht ▸ s.scanThread_addsNoBadCode k
  | opcode i rest u _ _ hu ht =>
    have hfetched : HostFrame none s (s.fetched i.opcodeByte (s.window.length - rest.length)) := .of_eq rfl rfl rfl
    have hframe := (hfetched.trans (exec_next_shape hu).hostFrame).trans u.endOpcode_hostFrame
    exact .of_eq (by simpa [ht] using hframe.results)
  | missing _ _ _ ht => exact .of_eq (by rw [ht]; rfl)
  | unpacked d _ ht => exact ht ▸ s.unpackStep_addsNoBadCode d

end Sys2Proof.Machine

/-! # Proofs of the family 60_exceptions.md -/

namespace Sys2Proof.Machine

/-! ## The fault state that an instruction leaves (R351) -/

/-- An outcome that is a next state, whose fault state has this cause. -/
def FaultsWith (cause : Option FaultCause) (r : Result) : Prop :=
  ∃ t, r = .next t ∧ t.fault.map FaultRecord.cause = cause

section
variable {s t : State}

theorem FaultsWith.raise (c : FaultCause) : FaultsWith (some c) (.next (s.raise c)) := ⟨_, rfl, rfl⟩

theorem FaultsWith.next (h : t.fault = none) : FaultsWith none (.next t) := ⟨_, rfl, congrArg _ h⟩

theorem conditionCode_eq_ofNat_toNat (v : Byte) : conditionCode v = BitVec.ofNat 3 v.toNat := by
  rw [conditionCode_eq_ofNat]
  exact BitVec.eq_of_toNat_eq (by simp)

variable (hf : s.fault = none)
include hf

theorem exec_call_faultsWith (tgt : Word) :
    FaultsWith (if s.sp.val = 256 then some .stackOverflow else none) (exec (.call tgt) s) := by
  cases hpush : s.push s.pc with
  | none =>
    rw [exec_call_of_overflow hpush, if_pos ((s.push_none_iff _).1 hpush)]
    exact .raise _
  | some u =>
    obtain ⟨hsp, -, -, -, hu⟩ := State.push_some hpush
    rw [exec_call_of_push hpush, if_neg hsp.ne, hu]
    exact .next hf

theorem exec_ret_faultsWith :
    FaultsWith (if s.sp.val = 0 then some .stackUnderflow else none) (exec .ret s) := by
  cases hpop : s.pop with
  | none =>
    rw [exec_ret_of_underflow hpop, if_pos (s.pop_none_iff.1 hpop)]
    exact .raise _
  | some p =>
    obtain ⟨hsp, -, -, hu⟩ := State.pop_some hpop
    rw [exec_ret_of_pop hpop, if_neg hsp.ne', hu]
    exact .next hf

theorem exec_init_faultsWith (k : Byte) (tgt : Word) :
    FaultsWith (if 64 ≤ k.toNat then some (.badThreadId k) else none) (exec (.init k tgt) s) := by
  by_cases hk : 64 ≤ k.toNat
  · rw [exec_init_of_badThread s hk, if_pos hk]
    exact .raise _
  · rw [exec_init_of_lt s (Nat.not_le.1 hk), if_neg hk]
    exact .next hf

/-- The range is checked before the state operand (R364). -/
theorem exec_reset_faultsWith (first last state : Byte) :
    FaultsWith
      (if 64 ≤ first.toNat ∨ 64 ≤ last.toNat ∨ last.toNat < first.toNat then some (.badThreadRange first last)
        else if 3 ≤ state.toNat then some (.badThreadState state) else none)
      (exec (.reset first last state) s) := by
  by_cases hrange : 64 ≤ first.toNat ∨ 64 ≤ last.toNat ∨ last.toNat < first.toNat
  · rw [exec_reset_of_badRange s hrange, if_pos hrange]
    exact .raise _
  rw [exec_reset_of_goodRange s (by omega) (by omega) (by omega), if_neg hrange]
  by_cases hstate : 3 ≤ state.toNat
  · rw [if_pos hstate, if_pos hstate]
    exact .raise _
  · rw [if_neg hstate, if_neg hstate]
    exact .next hf

theorem exec_cjmp_faultsWith (v r : Byte) (rhs : CmpOperand) (tgt : Word) :
    FaultsWith (if 6 ≤ v.toNat % 8 then some (.badCondition (BitVec.ofNat 3 v.toNat)) else none)
      (exec (.cjmp v r rhs tgt) s) := by
  have hnone := condition_eq_none_iff (conditionCode v) (s16 (s.reg r)) (cmpValue s rhs)
  rw [conditionCode_toNat] at hnone
  cases hc : condition (conditionCode v) (s16 (s.reg r)) (cmpValue s rhs) with
  | none =>
    rw [exec_cjmp_of_badCondition hc, if_pos (hnone.1 hc), conditionCode_eq_ofNat_toNat]
    exact .raise _
  | some c =>
    rw [exec_cjmp_of_condition hc, if_neg (mt hnone.2 (by simp [hc]))]
    exact .next hf

theorem exec_djnz_faultsWith (r : Byte) (tgt : Word) : FaultsWith none (exec (.djnz r tgt) s) := by
  rw [exec_djnz]
  exact .next hf

end

/-- Settles O32, instruction by instruction: five fault in some cases, the invalid band in every case, and the rest
never. -/
theorem opcodeFaultsExactlyAsTabled : Obligations.OpcodeFaultsExactlyAsTabled := by
  intro i s hf
  cases i with
  | call tgt => exact exec_call_faultsWith hf tgt
  | ret => exact exec_ret_faultsWith hf
  | init k tgt => exact exec_init_faultsWith hf k tgt
  | reset first last state => exact exec_reset_faultsWith hf first last state
  | cjmp v r rhs tgt => exact exec_cjmp_faultsWith hf v r rhs tgt
  | invalid1B | invalid1C | invalid20 => exact FaultsWith.raise _
  | djnz r tgt => exact exec_djnz_faultsWith hf r tgt
  | jump | yield | kill => exact FaultsWith.next hf
  | movi | movr | addi | addr | subr | andi | iori | shli | shri => exact FaultsWith.next hf
  | palette | page | fill | copy | blit | print | sound | loadres | music | poly40 | poly80 => exact FaultsWith.next hf

/-! ## After a fault (R350, R366) -/

theorem step_of_faulted {s : State} {record : FaultRecord} (h : s.fault = some record) :
    step s = .fault (.stopped record) := by
  simp only [step, h]

/-- Settles O33: adding host calls leaves the fault state, and `step` looks at nothing else. -/
theorem faultedBlockStaysFaulted : Obligations.FaultedBlockStaysFaulted := by
  intro s record calls h
  have hcalls : (s.withHostCalls calls).fault = some record := h
  exact step_of_faulted hcalls

end Sys2Proof.Machine


/-! # Proofs of the family 70_reset_and_hazards.md -/

namespace Sys2Proof.Machine

/-! ## The state after reset (R25, R380) -/

/-- Settles O60: reset leaves an idle block with no segment, and every thread control block is `Tcb.reset`. -/
theorem resetHasInvariant : Obligations.ResetHasInvariant := by
  intro _
  have hstates (k : Fin 64) : (State.reset.tcb k).legalStates := by
    rw [State.reset_tcb]
    exact Tcb.reset_legalStates k
  exact .of_idle nofun hstates rfl

/-! ## What `setByteCode` leaves (R380, R381) -/

section
variable (s : State) (bytes : List Byte)

theorem State.setByteCode_segByte (o : Word) : (s.setByteCode bytes).segByte o = bytes[o.toNat]? :=
  Memory.read_ofBytes bytes o.toNat

theorem State.setByteCode_tcb (k : Fin 64) : (s.setByteCode bytes).tcb k = Tcb.reset k := TcbBank.reset_getElem k

end

/-! ## The host call that an idle block makes (R372, R380 to R384) -/

section
variable {s : State} {m : Memory} {calls : List HostCall} (hf : s.fault = none) (hp : s.phase = .idle)
include hf hp

theorem step_of_hostCall {c : HostCall} (hq : s.hostQueue = c :: calls) :
    step s = hostCall c { s with hostQueue := calls } := by
  simp only [step, hf, hp, hostStep, hq]

theorem step_of_setByteCode {bytes : List Byte} (hq : s.hostQueue = .setByteCode bytes :: calls)
    (hlen : bytes.length ≤ 65536) : step s = .next (State.setByteCode { s with hostQueue := calls } bytes) := by
  rw [step_of_hostCall hf hp hq, hostCall, if_pos hlen]

theorem step_of_getRegister {i : Byte} (hq : s.hostQueue = .getRegister i :: calls) (hseg : s.segment = some m) :
    step s = .next { s with hostQueue := calls, results := s.results ++ [.register i (s.reg i)] } := by
  rw [step_of_hostCall hf hp hq, hostCall, if_pos (Option.isSome_of_eq_some hseg)]
  rfl

theorem step_of_setRegister {i : Byte} {v : Word} (hq : s.hostQueue = .setRegister i v :: calls)
    (hseg : s.segment = some m) : step s = .next (State.setReg { s with hostQueue := calls } i v) := by
  rw [step_of_hostCall hf hp hq, hostCall, if_pos (Option.isSome_of_eq_some hseg)]

/-- The write of `MUSIC_MARK` is a write of the register that the parameter names (R384). -/
theorem step_of_setMusicMark {v : Word} (hq : s.hostQueue = .setMusicMark v :: calls) (hseg : s.segment = some m) :
    step s = .next (State.setReg { s with hostQueue := calls } s.params.idxMusicMark v) := by
  rw [step_of_hostCall hf hp hq, hostCall, if_pos (Option.isSome_of_eq_some hseg)]

end

/-- The host's calls that read or write a register (R384). -/
inductive HostCall.IsRegisterCall : HostCall → Prop
  | getRegister (i : Byte) : IsRegisterCall (.getRegister i)
  | setRegister (i : Byte) (v : Word) : IsRegisterCall (.setRegister i v)
  | setMusicMark (v : Word) : IsRegisterCall (.setMusicMark v)

theorem HostCall.IsRegisterCall.refused_of_no_segment {c : HostCall} {s : State} (hc : c.IsRegisterCall)
    (hseg : s.segment = none) : hostCall c s = .refused .registersBeforeInstall := by
  cases hc with
  | getRegister i => simp [hostCall, hseg]
  | setRegister i v => simp [hostCall, hseg]
  | setMusicMark v => simp [hostCall, hseg]

/-! ## The statements -/

/-- Settles O43: every field but the thread control blocks is read off `setByteCode`, and they are `Tcb.reset`. -/
theorem setByteCodeInstallsAndResets : Obligations.SetByteCodeInstallsAndResets := by
  intro s bytes calls hf hp hq hlen
  refine ⟨_, step_of_setByteCode hf hp hq hlen, rfl, State.setByteCode_segByte _ bytes, fun _ => rfl, fun k => ?_,
    rfl, rfl, hf, rfl, rfl, rfl⟩
  rw [State.setByteCode_tcb]
  exact ⟨rfl, rfl, rfl, rfl⟩

/-- Settles O44: with a segment installed a read adds the register's value to the results, and both writes are
`setReg`. -/
theorem hostReadsAndWritesRegisters : Obligations.HostReadsAndWritesRegisters := by
  intro s m i v calls hf hp hseg
  refine ⟨fun hq => ?read, fun hq => ?write, fun hq => ?musicMark⟩
  case read => exact step_of_getRegister hf hp hq hseg
  case write =>
    exact ⟨_, step_of_setRegister hf hp hq hseg, State.reg_setReg_self _ _ v, State.setReg_onlyRegister _ _ v⟩
  case musicMark =>
    exact ⟨_, step_of_setMusicMark hf hp hq hseg, State.reg_setReg_self _ _ v, State.setReg_onlyRegister _ _ v⟩

/-- Settles O45: without a segment each of the three register calls is refused. -/
theorem registerCallsBeforeInstallAreRefused : Obligations.RegisterCallsBeforeInstallAreRefused := by
  intro s i v calls hf hp hseg hq
  have hrefused {c : HostCall} (hc : c.IsRegisterCall) (hq : s.hostQueue = c :: calls) :
      step s = .refused .registersBeforeInstall := by
    rw [step_of_hostCall hf hp hq]
    exact hc.refused_of_no_segment hseg
  rcases hq with hget | hset | hmark
  · exact hrefused (.getRegister i) hget
  · exact hrefused (.setRegister i v) hset
  · exact hrefused (.setMusicMark v) hmark

end Sys2Proof.Machine
